-- ==== Sys2Proof/Word.lean ====
section
/-!
DEFINITION. The widths of the block's values (R10, R11, R14, R33): 32-bit words of the register window and of the output
port, 64-bit registers, and binary64 patterns.
-/

namespace Sys2Proof

/-- A byte of a host transfer (R82). -/
abbrev Byte := BitVec 8

/-- A 32-bit word: what one host access moves (R11, R81) and what the output port moves (R83). -/
abbrev Word := BitVec 32

/-- A 64-bit register of the window (R33). -/
abbrev DWord := BitVec 64

/-- A time in seconds: a binary64 value, held as its 64-bit pattern (R15, R116). -/
abbrev F64 := BitVec 64

/-- The byte offset of a host access in the 1 KiB register window (R11, R80): 0x000 to 0x3FF. -/
abbrev Offset := BitVec 10

end Sys2Proof
end

