-- ==== Sys2Proof/Config.lean ====
section
/-!
DEFINITION. What the spec leaves to the platform (R12) and the one free value of the model (R91, U8). None of these has a
body: no proof can see a value of it, so a statement holds for every platform and every choice.
The fixed parameters of R10 are plain constants of Machine/Constants.lean.
-/

namespace Sys2Proof

/-- Which value a host read of a register written by the current command returns before the host has seen the command
complete: R91 allows the old value and the new one, R58 the value the register holds at that moment. -/
inductive ReadView where
  | old
  | current
  | new
  deriving DecidableEq, Repr, Inhabited

/-- `MTS_BASE`: the host address of the register window (R12, D4). Assumption log entry 5. -/
opaque Config.mtsBase : Nat

/-- `PG_BASE`: what the downstream interconnect adds to the output port's address, unseen by the block (R12, D36).
Assumption log entry 5. -/
opaque Config.pgBase : Nat

/-- The free choice of R91 and U8 (`any value` of old and new): which view the `n`-th host read shows of its field number
`lane`. Assumption log entry 3. -/
opaque Config.readChoice : Nat → Nat → ReadView

end Sys2Proof
end

