-- ==== Sys2Proof/Syntax.lean ====
section
/-!
DEFINITION. The syntax: the ten commands of spec/opcode_table.json (R111), the raw command word (R110), the names of the
register window (R33), the moves of the external agents (R27, R80, R320) and the host assembly lines (R120, R121).
-/

namespace Sys2Proof

/-- The commands (R4, R111), one constructor per row of spec/opcode_table.json. A command names no operand: each reads
fixed registers (R115). -/
inductive Instr where
  /-- R131 -/
  | quant
  /-- R132 -/
  | cyc2sec
  /-- R176 -/
  | validate
  /-- R154 -/
  | regidx
  /-- R155 -/
  | regaddr
  /-- R196 -/
  | sync
  /-- R202 -/
  | delta
  /-- R207 -/
  | one
  /-- R217 -/
  | seq
  /-- R253 -/
  | build
  deriving DecidableEq, Repr

/-- The one format `CMD` of a command word (R110): OPC in bits 3:0, RSV in bits 31:4. -/
structure CommandWord where
  rsv : BitVec 28
  opc : BitVec 4
  deriving DecidableEq, Repr

/-- The 64-bit registers of the window (R33). An array entry is named by its slot 0..9 (R17). -/
inductive Reg64 where
  | clkPeriod
  | repRate
  | deadTime
  | pulseLen
  | auxTime
  | errInfo
  | delayBegin (k : Fin 10)
  | delayEnd (k : Fin 10)
  | opA
  | opB
  | opC
  | result
  | winStart (k : Fin 10)
  | winStop (k : Fin 10)
  deriving DecidableEq, Repr

/-- The 32-bit registers of the window (R33). -/
inductive Reg32 where
  | cmd
  | status
  | param
  | latchRep
  | progRepCyc
  | progDeadCyc
  | progIoInit
  | progChgStart
  | progChgStop
  | progPulseStart (k : Fin 10)
  | progPulseStop (k : Fin 10)
  deriving DecidableEq, Repr

/-- One mapped 32-bit word of the window: a 32-bit register, or a half of a 64-bit one (`.LO`, `.HI` of R120; R82). -/
inductive WindowWord where
  | word (r : Reg32)
  | low (r : Reg64)
  | high (r : Reg64)
  deriving DecidableEq, Repr

/-- One move of an agent outside the block, or the turn of the engine (R26, R27). The list of these that a State holds is
the model's schedule: it says which agent moves next. -/
inductive Event where
  /-- a host read of `bytes` bytes at window offset `off` (R80) -/
  | read (bytes : Nat) (off : Offset)
  /-- a host write of `bytes` bytes at window offset `off` (R80); only a 4-byte one carries `data` in (R81) -/
  | write (bytes : Nat) (off : Offset) (data : Word)
  /-- one round of the host's polling loop `wait` (R121): a read of STATUS, repeated while BUSY reads 1 -/
  | poll
  /-- the reset input is asserted (R320) -/
  | reset
  /-- the engine takes its enabled step (R61, R334); in EMIT it offers its write to the downstream (R95) -/
  | engine
  /-- time passes and no agent moves: latency (R333) -/
  | wait
  deriving DecidableEq, Repr

/-- A binary64 literal of host assembly (R121): a decimal number `± digits × 10^exp10`, or a 64-bit pattern. -/
inductive TimeLit where
  | decimal (neg : Bool) (digits : Nat) (exp10 : Int)
  | pattern (bits : F64)
  deriving DecidableEq, Repr

/-- A line of a host program (R120) or a pseudo-instruction (R121). -/
inductive HostLine where
  | wr (w : WindowWord) (v : Word)
  | rd (w : WindowWord)
  | cmd (i : Instr)
  | wr64 (r : Reg64) (x : TimeLit)
  | wri64 (r : Reg64) (n : Int)
  | wait
  | run (i : Instr)
  deriving DecidableEq, Repr

end Sys2Proof
end

