-- ==== Sys2Proof/WellFormed.lean ====
section
/-!
DEFINITION. Which terms of the syntax are well-formed: command words (R110 to R113), host accesses (R81) and host assembly
lines (R121). An ill-formed command word is no error of the model: the block accepts it and completes it with
IllegalCommandError (R112).
-/

namespace Sys2Proof

/-- The opcodes that name a command (R111); the rest, 0x0, 0x6, 0x7, 0xD, 0xE and 0xF, are reserved (R112). -/
def CommandWord.opcAssigned (c : CommandWord) : Bool :=
  [0x1#4, 0x2#4, 0x3#4, 0x4#4, 0x5#4, 0x8#4, 0x9#4, 0xA#4, 0xB#4, 0xC#4].contains c.opc

/-- RSV must be 0 (R110). -/
def CommandWord.rsvClear (c : CommandWord) : Bool := c.rsv == 0

/-- A legal command word (R110, R111, R112). -/
def CommandWord.wellFormed (c : CommandWord) : Bool := c.rsvClear && c.opcAssigned

/-- A command has no field (R110, R115): every command is well-formed. -/
def Instr.wellFormed : Instr → Bool
  | .quant => true
  | .cyc2sec => true
  | .validate => true
  | .regidx => true
  | .regaddr => true
  | .sync => true
  | .delta => true
  | .one => true
  | .seq => true
  | .build => true

/-- The only host access the block serves: 32 bits wide, at an offset that is a multiple of 4 (R81). -/
def accessAligned (bytes : Nat) (off : Offset) : Bool := bytes == 4 && off.toNat % 4 == 0

/-- Well-formed host events (R81); the moves of the other agents have no form to check. -/
def Event.wellFormed : Event → Bool
  | .read bytes off => accessAligned bytes off
  | .write bytes off _ => accessAligned bytes off
  | .poll => true
  | .reset => true
  | .engine => true
  | .wait => true

/-- Well-formed host lines: `wri64` takes an integer in -2^63 .. 2^64 - 1 (R121). -/
def HostLine.wellFormed : HostLine → Bool
  | .wri64 _ n => decide (-(2 : Int) ^ 63 ≤ n) && decide (n ≤ 2 ^ 64 - 1)
  | .wr _ _ => true
  | .rd _ => true
  | .cmd _ => true
  | .wr64 _ _ => true
  | .wait => true
  | .run _ => true

end Sys2Proof
end

