-- ==== Sys2Proof/Decode.lean ====
section
/-!
DEFINITION. The decoder of command words (R110 to R113), total and rejecting by name, and after it the encoder (R111).
A command word crosses the host bus little-endian (R82), so both have a byte form.
-/

namespace Sys2Proof

/-- Why a command word is no command (R112), or a byte string holds no command word. -/
inductive DecodeError where
  /-- RSV is not 0 (R112) -/
  | reservedBits
  /-- OPC is 0x0, 0x6, 0x7, 0xD, 0xE or 0xF (R112) -/
  | reservedOpcode
  /-- fewer than the four bytes of a command word (R110) -/
  | truncated
  deriving DecidableEq, Repr

/-- The fields of a command word (R110). -/
def splitWord (w : Word) : CommandWord := ⟨w.extractLsb' 4 28, w.extractLsb' 0 4⟩

/-- The word with the given fields (R110). -/
def joinWord (c : CommandWord) : Word := c.rsv ++ c.opc

/-- The opcode map (R111); the other opcodes are reserved (R112). -/
def decodeOpc (opc : BitVec 4) : Except DecodeError Instr :=
  match opc.toNat with
  | 0x1 => .ok .quant
  | 0x2 => .ok .cyc2sec
  | 0x3 => .ok .validate
  | 0x4 => .ok .regidx
  | 0x5 => .ok .regaddr
  | 0x8 => .ok .sync
  | 0x9 => .ok .delta
  | 0xA => .ok .one
  | 0xB => .ok .seq
  | 0xC => .ok .build
  | _ => .error .reservedOpcode

/-- The full command word selects the command; every other word is illegal (R111, R112). -/
def decodeWord (w : Word) : Except DecodeError Instr :=
  let c := splitWord w
  if c.rsv = 0 then decodeOpc c.opc else .error .reservedBits

/-- Four bytes, lowest address first, as a little-endian word (R82). -/
def wordOfBytes (b0 b1 b2 b3 : Byte) : Word := (b3 ++ b2) ++ (b1 ++ b0)

/-- The bytes of a word, lowest address first (R82). -/
def bytesOfWord (w : Word) : List Byte :=
  [w.extractLsb' 0 8, w.extractLsb' 8 8, w.extractLsb' 16 8, w.extractLsb' 24 8]

/-- The decoder on bytes: the command that the first word holds, and the bytes after it. -/
def decode : List Byte → Except DecodeError (Instr × List Byte)
  | b0 :: b1 :: b2 :: b3 :: rest =>
    match decodeWord (wordOfBytes b0 b1 b2 b3) with
    | .ok i => .ok (i, rest)
    | .error e => .error e
  | _ => .error .truncated

/-- The fields of the word that stands for a command (R111). -/
def commandWord : Instr → CommandWord
  | .quant => ⟨0, 0x1⟩
  | .cyc2sec => ⟨0, 0x2⟩
  | .validate => ⟨0, 0x3⟩
  | .regidx => ⟨0, 0x4⟩
  | .regaddr => ⟨0, 0x5⟩
  | .sync => ⟨0, 0x8⟩
  | .delta => ⟨0, 0x9⟩
  | .one => ⟨0, 0xA⟩
  | .seq => ⟨0, 0xB⟩
  | .build => ⟨0, 0xC⟩

/-- The encoder (R111): the 32-bit word a host writes to CMD. -/
def encode (i : Instr) : Word := joinWord (commandWord i)

/-- The encoder on bytes (R82). -/
def encodeBytes (i : Instr) : List Byte := bytesOfWord (encode i)

/-- The number `w` of `nbits` bits as the command word it stands for: the bits above `nbits` are 0. -/
def tableWord (nbits w : Nat) : Word := BitVec.ofNat 32 (w % 2 ^ nbits)

/-- What the decoder reads from the opcode table's number `w` of `nbits` bits, laid out as the host bus carries it. -/
def decodeTableWord (nbits w : Nat) : Option Instr :=
  match decode (bytesOfWord (tableWord nbits w)) with
  | .ok (i, _) => some i
  | .error _ => none

end Sys2Proof
end

