-- ==== Sys2Proof/Machine/State.lean ====
section
/-!
DEFINITION. The state of the block (R30), all of it: the registers of the window (R33), the sequencer (R60), the output
trace (R65), and the model's own fields, which stand for the host's side of the bus and for the free choice of R91.
-/

namespace Sys2Proof.Machine

/-- The program shadow registers (R49): the last program that passed a compute phase. -/
structure Shadow where
  /-- PROG_REP_CYC, offset 0x1A0 -/
  repCyc : Word
  /-- PROG_DEAD_CYC, offset 0x1A4 -/
  deadCyc : Word
  /-- PROG_IO_INIT, offset 0x1A8 -/
  ioInit : Word
  /-- PROG_CHG_START, offset 0x1AC -/
  chgStart : Word
  /-- PROG_CHG_STOP, offset 0x1B0 -/
  chgStop : Word
  /-- PROG_PULSE_START[k], offset 0x1C0 + 8k -/
  pulseStart : Vector Word 10
  /-- PROG_PULSE_STOP[k], offset 0x1C4 + 8k -/
  pulseStop : Vector Word 10
  deriving DecidableEq, Repr

/-- The registers and STATUS fields that a command writes (the list of R91 and R328). They stand together because R91
speaks of the old and the new value of exactly these. -/
structure CmdRegs where
  /-- RESULT, offset 0x0F8 (R47) -/
  result : DWord
  /-- ERR_INFO, offset 0x038 (R48) -/
  errInfo : DWord
  /-- STATUS.ERR, bit 2 (R35) -/
  err : Bool
  /-- STATUS.ERR_CODE, bits 23:16 (R35, R280) -/
  errCode : BitVec 8
  /-- STATUS.ERR_CHAN, bits 27:24 (R35, R284) -/
  errChan : BitVec 4
  /-- STATUS.CLASS, bits 9:8 (R35): 00 none, 01 Disabled, 10 Enabled -/
  cls : BitVec 2
  /-- STATUS.PROG_VALID, bit 6 (R35, R51) -/
  progValid : Bool
  /-- STATUS.LATCH_VALID, bit 5 (R35, R53) -/
  latchValid : Bool
  /-- LATCH_REP, offset 0x034 (R52) -/
  latchRep : Word
  /-- WIN_START[k], offset 0x100 + 16k (R45) -/
  winStart : Vector F64 10
  /-- WIN_STOP[k], offset 0x108 + 16k (R45) -/
  winStop : Vector F64 10
  /-- the PROG_ registers (R49) -/
  prog : Shadow
  deriving DecidableEq, Repr

/-- The phases of the engine (R60). -/
inductive Phase where
  /-- no command -/
  | idle
  /-- accepted, not yet computed -/
  | compute
  /-- program computed, output writes in progress -/
  | emit
  deriving DecidableEq, Repr

/-- The downstream's side of the output port (R26, R27, R95): what it answers to the coming offers of a write, and what it
answers for ever after those. A downstream that never accepts again is `⟨[], false⟩` (R333, U9). -/
structure Downstream where
  /-- the answers to the next offers, next first; `true` accepts the write -/
  answers : List Bool
  /-- the answer to every offer after those -/
  afterwards : Bool
  deriving DecidableEq, Repr

/-- The whole state. STATUS.BUSY and STATUS.EMIT_IDX have no storage of their own: they are `phase` and `k` (R60). CMD has
no storage (R34). -/
structure State where
  /-- CLK_PERIOD, offset 0x008 (R37) -/
  clkPeriod : F64
  /-- REP_RATE, offset 0x010 (R39) -/
  repRate : F64
  /-- DEAD_TIME, offset 0x018 (R40) -/
  deadTime : F64
  /-- PULSE_LEN, offset 0x020 (R41) -/
  pulseLen : F64
  /-- AUX_TIME, offset 0x028 (R42) -/
  auxTime : F64
  /-- PARAM, offset 0x030 (R43) -/
  param : Word
  /-- DELAY_BEGIN[k], offset 0x040 + 8k (R44) -/
  delayBegin : Vector F64 10
  /-- DELAY_END[k], offset 0x090 + 8k (R44) -/
  delayEnd : Vector F64 10
  /-- OP_A, offset 0x0E0 (R46) -/
  opA : DWord
  /-- OP_B, offset 0x0E8 (R46) -/
  opB : DWord
  /-- OP_C, offset 0x0F0 (R46) -/
  opC : DWord
  /-- STATUS.DONE, bit 1 (R35) -/
  done : Bool
  /-- STATUS.WERR, bit 3 (R35, R36) -/
  werr : Bool
  /-- STATUS.LOCK, bit 4 (R35, R38) -/
  lock : Bool
  /-- the registers a command writes, as they are now -/
  regs : CmdRegs
  /-- `st.phase` (R60) -/
  phase : Phase
  /-- `st.op` (R60): the CMD word of the current command -/
  op : Word
  /-- `st.k` (R60): the number of output writes issued, 0..42; STATUS.EMIT_IDX -/
  k : Nat
  /-- the output trace (R65): (address, value) pairs issued since power-on, oldest first -/
  trace : List (Word × Word)
  /-- MODEL's own: the registers a command writes, as they were before the last accepted command (the old values of R91) -/
  old : CmdRegs
  /-- MODEL's own: the host has read STATUS with DONE = 1 and BUSY = 0 since the last accepted command (R91) -/
  settled : Bool
  /-- MODEL's own: the number of host reads served, which numbers the free choices of R91 -/
  reads : Nat
  /-- MODEL's own: the value the last served host access returned (0 for a write) -/
  busData : Word
  /-- MODEL's own: the coming moves of the external agents and turns of the engine, next first (R27, R90) -/
  inbox : List Event
  /-- MODEL's own: when the downstream accepts a write the block offers (R27, R95, R333) -/
  downstream : Downstream
  deriving DecidableEq, Repr

/-- The reasons a step stops. -/
inductive Fault where
  /-- Raised by a host access that is not 32 bits wide or not at a multiple of 4: the block answers with a bus error
  response, and 'A model treats such an access as a fault of the host program' (R81, U15). Safe: the block itself would go
  on unchanged, and the model allows less. -/
  | busError
  deriving DecidableEq, Repr

/-- The reasons a step has no meaning. -/
inductive Refusal where
  /-- Raised by an arm of exec whose command has no meaning yet. No arm does. Safe. -/
  | notModelled (mnemonic : String)
  deriving DecidableEq, Repr

/-- The program shadow after reset: every register 0 (R33, R321). -/
def Shadow.reset : Shadow where
  repCyc := 0
  deadCyc := 0
  ioInit := 0
  chgStart := 0
  chgStop := 0
  pulseStart := Vector.replicate 10 0
  pulseStop := Vector.replicate 10 0

/-- The registers a command writes, after reset: 0, but ERR_CHAN = 15 (R33, R35, R321). -/
def CmdRegs.reset : CmdRegs where
  result := 0
  errInfo := 0
  err := false
  errCode := 0
  errChan := 0xF
  cls := 0
  progValid := false
  latchValid := false
  latchRep := 0
  winStart := Vector.replicate 10 0
  winStop := Vector.replicate 10 0
  prog := Shadow.reset

/-- The block right after power-on reset (R33, R60, R65, R321): CLK_PERIOD 8e-9, PARAM 0x00A0000A, STATUS 0x0F000000, the
rest 0, the engine idle and the trace empty. -/
def State.reset : State where
  clkPeriod := 0x3E412E0BE826D695
  repRate := 0
  deadTime := 0
  pulseLen := 0
  auxTime := 0
  param := 0x00A0000A
  delayBegin := Vector.replicate 10 0
  delayEnd := Vector.replicate 10 0
  opA := 0
  opB := 0
  opC := 0
  done := false
  werr := false
  lock := false
  regs := CmdRegs.reset
  phase := .idle
  op := 0
  k := 0
  trace := []
  old := CmdRegs.reset
  settled := true
  reads := 0
  busData := 0
  inbox := []
  downstream := { answers := [], afterwards := true }

end Sys2Proof.Machine
end

