-- ==== Sys2Proof/Machine/Binary64.lean ====
section
/-!
DEFINITION. IEEE 754 binary64 arithmetic under roundTiesToEven on 64-bit patterns (R11, R15, R16, D6), computed exactly on
integers. Every finite binary64 value is a whole number of units of 2^-1074, so a sum, a product or a quotient is formed
exactly as a rational number of units and rounded once.
-/

namespace Sys2Proof.Machine

/-- The biased exponent, bits 62:52. -/
def expBits (x : F64) : Nat := (x.extractLsb' 52 11).toNat

/-- The fraction, bits 51:0. -/
def fracBits (x : F64) : Nat := (x.extractLsb' 0 52).toNat

/-- The sign, bit 63. -/
def isNegative (x : F64) : Bool := x.msb

/-- R15. -/
def isNaN (x : F64) : Bool := expBits x == 2047 && fracBits x != 0

/-- R15. -/
def isInf (x : F64) : Bool := expBits x == 2047 && fracBits x == 0

/-- The magnitude of a finite value in units of 2^-1074. An infinity gives 2^2098, more than every finite value, which is
what the comparisons need. -/
def magUnits (x : F64) : Nat :=
  if expBits x = 0 then fracBits x else (2 ^ 52 + fracBits x) * 2 ^ (expBits x - 1)

/-- The signed value in units of 2^-1074. -/
def units (x : F64) : Int := if isNegative x then -(magUnits x : Int) else (magUnits x : Int)

/-- The number of units of 2^-1074 in 1.0. -/
def unitsPerOne : Nat := 2 ^ 1074

/-- The integer nearest to `num / den`; the even one when the quotient is halfway between two. -/
def roundTiesEven (num den : Nat) : Nat :=
  let q := num / den
  let r := num % den
  if 2 * r < den then q else if den < 2 * r then q + 1 else q + q % 2

/-- The 63-bit pattern of +infinity. -/
def infMag : Nat := 2047 * 2 ^ 52

/-- The magnitude pattern (bits 62:0) of `num / den` units, rounded to 53 significant bits, ties to even; a result beyond
the largest finite value is infinity. With `k` the number of bits by which the quotient exceeds 53, the significand
counts steps of 2^k units, and adding `k` to the exponent field also carries a significand that rounds up to 2^53. -/
def roundUnits (num den : Nat) : Nat :=
  let k := Nat.log2 (num / den) - 52
  min infMag (roundTiesEven num (den * 2 ^ k) + k * 2 ^ 52)

/-- A pattern from its sign and its magnitude pattern. -/
def packF64 (neg : Bool) (mag : Nat) : F64 := BitVec.ofNat 64 ((if neg then 2 ^ 63 else 0) + mag)

/-- The NaN this model's operations return. No NaN ever reaches a register (D40), so its payload cannot be seen
(assumption log entry 6). -/
def nanF64 : F64 := 0x7FF8000000000000

/-- The sign bit flipped. -/
def fneg (x : F64) : F64 := x ^^^ 0x8000000000000000

/-- R15. -/
def fadd (x y : F64) : F64 :=
  if isNaN x || isNaN y then nanF64
  else if isInf x then (if isInf y && isNegative x != isNegative y then nanF64 else x)
  else if isInf y then y
  else
    let z := units x + units y
    if z = 0 then packF64 (isNegative x && isNegative y) 0
    else packF64 (decide (z < 0)) (roundUnits z.natAbs 1)

/-- R15: IEEE 754 subtraction is addition of the negated operand. -/
def fsub (x y : F64) : F64 := fadd x (fneg y)

/-- R15. -/
def fmul (x y : F64) : F64 :=
  let neg := isNegative x != isNegative y
  if isNaN x || isNaN y then nanF64
  else if isInf x || isInf y then
    (if magUnits x = 0 || magUnits y = 0 then nanF64 else packF64 neg infMag)
  else packF64 neg (roundUnits (magUnits x * magUnits y) unitsPerOne)

/-- R15. -/
def fdiv (x y : F64) : F64 :=
  let neg := isNegative x != isNegative y
  if isNaN x || isNaN y then nanF64
  else if isInf x then (if isInf y then nanF64 else packF64 neg infMag)
  else if isInf y then packF64 neg 0
  else if magUnits y = 0 then (if magUnits x = 0 then nanF64 else packF64 neg infMag)
  else packF64 neg (roundUnits (magUnits x * unitsPerOne) (magUnits y))

/-- R15: `<`, false when either operand is a NaN. -/
def flt (x y : F64) : Bool := !isNaN x && !isNaN y && decide (units x < units y)

/-- R15: `<=`, false when either operand is a NaN. -/
def fle (x y : F64) : Bool := !isNaN x && !isNaN y && decide (units x ≤ units y)

/-- R15: `>`, false when either operand is a NaN. -/
def fgt (x y : F64) : Bool := flt y x

/-- R15: the binary64 value of an integer, exact for |n| <= 2^53. -/
def i2f (n : Int) : F64 := packF64 (decide (n < 0)) (roundUnits (n.natAbs * unitsPerOne) 1)

/-- R16: the nearest integer to a finite value, ties to even. -/
def rne (q : F64) : Int :=
  let n := roundTiesEven (magUnits q) unitsPerOne
  if isNegative q then -(n : Int) else (n : Int)

/-- R122: the binary64 nearest to the decimal number `± digits × 10^exp10`. -/
def decimalF64 (neg : Bool) (digits : Nat) (exp10 : Int) : F64 :=
  packF64 neg (roundUnits (digits * 10 ^ exp10.toNat * unitsPerOne) (10 ^ (-exp10).toNat))

end Sys2Proof.Machine
end

