-- ==== Sys2Proof/Machine/Constants.lean ====
section
/-!
DEFINITION. The fixed parameters (R10) and the constants of the rules (R15, R118), and the error codes (R280).
-/

namespace Sys2Proof.Machine

/-- MAX_CYCLES = 2^32 - 1 (R10). -/
def maxCycles : Int := 4294967295

/-- NUM_CHANNELS (R10). -/
def numChannels : Nat := 10

/-- PG_REG_COUNT (R10, R153). -/
def pgRegCount : Nat := 42

/-- PG_IO_INIT_INDEX (R10, R150). -/
def ioInitIndex : Nat := 40

/-- PG_REP_RATE_INDEX (R10, R150). -/
def repRateIndex : Nat := 41

/-- ADDRESS_STRIDE (R10, R152). -/
def addressStride : Nat := 4

/-- SENTINEL_OFFSET, in cycles (R10, R241). -/
def sentinelOffset : Int := 2

/-- +0.0. -/
def kZero : F64 := 0x0000000000000000

/-- `K_2` = 2.0 (R15). -/
def kTwo : F64 := 0x4000000000000000

/-- `K_HALF` = 0.5 (R15). -/
def kHalf : F64 := 0x3FE0000000000000

/-- `K_DTMIN`, the binary64 nearest to 1e-7 (R15). -/
def kDeadMin : F64 := 0x3E7AD7F29ABCAF48

/-- `K_MAXC` = 4294967295.0 (R15). -/
def kMaxCycles : F64 := 0x41EFFFFFFFE00000

/-- The bits of PARAM that hold a value (R43). -/
def paramMask : Word := 0x00FFF7FF

/-- The initial io_init mask (R235): charge half 1, pulse half 0. -/
def ioInitStart : BitVec 20 := 0xFFC00

/-- ERR_CHAN for 'none' (R35). -/
def chanNone : BitVec 4 := 15

/-- ERR_CHAN for the charge window (R35). -/
def chanCharge : BitVec 4 := 10

/-- The slots 0..9 in index order (R20, R22). -/
def slots : List (Fin 10) := [0, 1, 2, 3, 4, 5, 6, 7, 8, 9]

/-- An array register given entry by entry. -/
def tenOf {α : Type} (f : Fin 10 → α) : Vector α 10 :=
  #v[f 0, f 1, f 2, f 3, f 4, f 5, f 6, f 7, f 8, f 9]

/-- The errors a command can raise (R280). -/
inductive ErrorKind where
  | negativeDuration
  | overflow
  | invalidRepRate
  | startExceedsPeriod
  | stopExceedsPeriod
  | stopBeforeStart
  | zeroWidthWindow
  | tooManyChannels
  | wrongChannelCount
  | deadTimeTooShort
  | widthBelowClockPeriod
  | lastValueExceedsRepRate
  | insufficientChargeTime
  | startAfterStop
  | internalInvariant
  | registerRange
  | channelRange
  | delayLength
  | delayPositive
  | invalidNumber
  | invalidClockConfig
  | illegalCommand
  deriving DecidableEq, Repr

/-- STATUS.ERR_CODE of an error (R280). -/
def errorCode : ErrorKind → BitVec 8
  | .negativeDuration => 0x01
  | .overflow => 0x02
  | .invalidRepRate => 0x03
  | .startExceedsPeriod => 0x04
  | .stopExceedsPeriod => 0x05
  | .stopBeforeStart => 0x06
  | .zeroWidthWindow => 0x07
  | .tooManyChannels => 0x08
  | .wrongChannelCount => 0x09
  | .deadTimeTooShort => 0x0A
  | .widthBelowClockPeriod => 0x0B
  | .lastValueExceedsRepRate => 0x0C
  | .insufficientChargeTime => 0x0D
  | .startAfterStop => 0x0E
  | .internalInvariant => 0x0F
  | .registerRange => 0x10
  | .channelRange => 0x11
  | .delayLength => 0x12
  | .delayPositive => 0x13
  | .invalidNumber => 0x14
  | .invalidClockConfig => 0x15
  | .illegalCommand => 0x16

/-- The classes of the source's taxonomy (R280, R282); documentation only, the block reports the code. -/
inductive ErrorClass where
  | configuration
  | scheduling
  | internal
  | range
  deriving DecidableEq, Repr

/-- The class column of R280. -/
def errorClass : ErrorKind → ErrorClass
  | .negativeDuration => .configuration
  | .overflow => .configuration
  | .invalidRepRate => .configuration
  | .startExceedsPeriod => .scheduling
  | .stopExceedsPeriod => .scheduling
  | .stopBeforeStart => .scheduling
  | .zeroWidthWindow => .scheduling
  | .tooManyChannels => .configuration
  | .wrongChannelCount => .configuration
  | .deadTimeTooShort => .configuration
  | .widthBelowClockPeriod => .scheduling
  | .lastValueExceedsRepRate => .scheduling
  | .insufficientChargeTime => .scheduling
  | .startAfterStop => .scheduling
  | .internalInvariant => .internal
  | .registerRange => .range
  | .channelRange => .range
  | .delayLength => .configuration
  | .delayPositive => .configuration
  | .invalidNumber => .configuration
  | .invalidClockConfig => .configuration
  | .illegalCommand => .range

/-- A raised error (R19): the error, ERR_CHAN and ERR_INFO. -/
structure CmdError where
  kind : ErrorKind
  chan : BitVec 4 := 15
  info : DWord := 0
  deriving DecidableEq, Repr

/-- `if c: raise E` (R19, R20): the first raise reached ends the command. -/
def raiseIf (c : Bool) (e : CmdError) : Except CmdError Unit := if c then .error e else .ok ()

end Sys2Proof.Machine
end

