-- ==== Sys2Proof/Machine/Ops.lean ====
section
/-!
DEFINITION. The named operations over the registers, shared by the commands: acceptance of a command (R290), its completion
with and without an error (R291, R281), the output write (R95), the register-window writes' effect on WERR (R54 to R56)
and reset (R321). A raised error is this block's exception: the command completes with a code and changes nothing else
(R9, R281), and nothing returns from it (R293): the next acceptance clears it.
-/

namespace Sys2Proof.Machine

/-- R281, R291: the command ends with error `e`; of everything else it would have done nothing is left. -/
def raiseError (e : CmdError) (s : State) : State :=
  { s with
    regs := { s.regs with
      err := true
      errCode := errorCode e.kind
      errChan := e.chan
      errInfo := e.info }
    done := true
    phase := .idle }

/-- R291: the end of a command that raised nothing and builds no program. -/
def completeCommand (s : State) : State := { s with done := true, phase := .idle }

/-- R291: the end of the COMPUTE step of QUANT, CYC2SEC, VALIDATE, REGIDX or REGADDR on state `s`; `r` is what the
command's rule made of it. -/
def finishPlain (s : State) (r : Except CmdError State) : Host.Outcome State Fault Refusal :=
  match r with
  | .ok t => .next (completeCommand t)
  | .error e => .next (raiseError e s)

/-- R291: the end of the COMPUTE step of a program-building command; a program that raised nothing stays in EMIT (R248). -/
def finishBuilding (s : State) (r : Except CmdError State) : Host.Outcome State Fault Refusal :=
  match r with
  | .ok t => .next t
  | .error e => .next (raiseError e s)

/-- R290: acceptance of the command word `w`. It clears the last command's error (R293). The model keeps the registers a
command writes as they were, for R91. -/
def acceptCommand (w : Word) (s : State) : State :=
  { s with
    op := w
    phase := .compute
    lock := true
    done := false
    k := 0
    regs := { s.regs with
      err := false
      errCode := 0
      errChan := chanNone
      cls := 0
      errInfo := 0 }
    old := s.regs
    settled := false }

/-- An ignored host write (R54, R55, R56, R85). -/
def ignoreWrite (s : State) : State := { s with werr := true }

/-- STATUS.BUSY (R35, R60). -/
def busy (s : State) : Bool := s.phase != .idle

/-- R95: one transaction on the output port, accepted downstream and so appended to the trace (R65). -/
def pgWrite (idx : Nat) (v : Word) (s : State) : State :=
  { s with trace := s.trace ++ [(BitVec.ofNat 32 (idx * addressStride), v)] }

/-- The downstream's answer to the write the block offers now: whether it accepts (R95). -/
def downstreamAccepts (d : Downstream) : Bool := d.answers.headD d.afterwards

/-- The downstream after it has answered one offer. -/
def afterOffer (d : Downstream) : Downstream := { answers := d.answers.tail, afterwards := d.afterwards }

/-- A downstream that accepts every write (R333). -/
def alwaysAccepting : Downstream := { answers := [], afterwards := true }

/-- A single value's RESULT (R47). -/
def setResult (v : DWord) (s : State) : State := { s with regs := { s.regs with result := v } }

/-- STATUS.CLASS (R176). -/
def setClass (c : BitVec 2) (s : State) : State := { s with regs := { s.regs with cls := c } }

/-- R321, R323, R324: reset, from any state. The output trace is kept (R65); so are the model's own fields that lie outside
the block: the schedule, the downstream, the last bus value, and the count of reads. -/
def applyReset (s : State) : State :=
  { State.reset with trace := s.trace, reads := s.reads, busData := s.busData, inbox := s.inbox
                     downstream := s.downstream }

/-- R80, R12: the window offset of a host address, none where the address is not in the block's window. -/
def hostOffset (addr : Nat) : Option Offset :=
  if Config.mtsBase ≤ addr ∧ addr < Config.mtsBase + 1024 then some (BitVec.ofNat 10 (addr - Config.mtsBase)) else none

/-- `MemRead(addr, bytes)` (R18) as the block sees it. -/
def memRead (addr bytes : Nat) : Option Event := (hostOffset addr).map (.read bytes ·)

/-- `MemWrite(addr, bytes, v)` (R18) as the block sees it. -/
def memWrite (addr bytes : Nat) (v : Word) : Option Event := (hostOffset addr).map (.write bytes · v)

/-- R12, D36: where the downstream interconnect takes an output address. -/
def pgAddress (a : Word) : Nat := Config.pgBase + a.toNat

end Sys2Proof.Machine
end

