-- ==== Sys2Proof/Machine/Operands.lean ====
section
/-!
DEFINITION. The operand forms of the commands (R115, R116, R117) and the fields of PARAM (R43). A time operand is the whole
64-bit register, read as it stands (R116), so it needs no function here.
-/

namespace Sys2Proof.Machine

/-- `s64`: the signed operands of VALIDATE (R117). -/
def signedOperand (x : DWord) : Int := x.toInt

/-- CYC2SEC: `OP_A[31:0]`, unsigned (R115, R132). -/
def cyclesOperand (x : DWord) : Nat := (x.extractLsb' 0 32).toNat

/-- REGADDR: `OP_A`, unsigned (R115, R155). -/
def indexOperand (x : DWord) : Nat := x.toNat

/-- REGIDX: `OP_A[7:0]` (R115, R154). -/
def channelOperand (x : DWord) : Nat := (x.extractLsb' 0 8).toNat

/-- REGIDX: `OP_A[8]`, true for sub-output b (R115, R154). -/
def subOperand (x : DWord) : Bool := x.getLsbD 8

/-- REGIDX: `OP_A[9]`, true for the stop field (R115, R154). -/
def fieldOperand (x : DWord) : Bool := x.getLsbD 9

/-- PARAM.NUM_CH, bits 3:0 (R43). -/
def numChField (p : Word) : Nat := (p.extractLsb' 0 4).toNat

/-- PARAM.CHANNEL, bits 7:4 (R43). -/
def channelField (p : Word) : Nat := (p.extractLsb' 4 4).toNat

/-- PARAM.AUX_PRESENT, bit 8 (R43). -/
def auxPresent (p : Word) : Bool := p.getLsbD 8

/-- PARAM.DB_PRESENT, bit 9 (R43). -/
def dbPresent (p : Word) : Bool := p.getLsbD 9

/-- PARAM.DE_PRESENT, bit 10 (R43). -/
def dePresent (p : Word) : Bool := p.getLsbD 10

/-- PARAM.DB_LEN, bits 15:12 (R43). -/
def dbLenField (p : Word) : Nat := (p.extractLsb' 12 4).toNat

/-- PARAM.DE_LEN, bits 19:16 (R43). -/
def deLenField (p : Word) : Nat := (p.extractLsb' 16 4).toNat

/-- PARAM.WIN_COUNT, bits 23:20 (R43). -/
def winCountField (p : Word) : Nat := (p.extractLsb' 20 4).toNat

end Sys2Proof.Machine
end

