-- ==== Sys2Proof/Machine/Quantizer.lean ====
section
/-!
DEFINITION. The cycle quantizer (R130 to R138): `CheckPeriod`, `Quantize`, and the commands QUANT and CYC2SEC.
-/

namespace Sys2Proof.Machine

/-- A clock period the block accepts: positive and finite (R133). -/
def periodValid (p : F64) : Bool := fgt p kZero && !isInf p

/-- `CheckPeriod()` (R133). -/
def checkPeriod (p : F64) : Except CmdError Unit := raiseIf (!periodValid p) { kind := .invalidClockConfig }

/-- The ERR_INFO of a quantizer overflow (R48): the maximum representable seconds. -/
def maxSeconds (p : F64) : DWord := fmul kMaxCycles p

/-- `Quantize(x)` (R130) at the period `p`; the caller supplies `chan`. -/
def quantize (p x : F64) (chan : BitVec 4) : Except CmdError Int := do
  raiseIf (flt x kZero) { kind := .negativeDuration, chan := chan }
  raiseIf (isNaN x) { kind := .invalidNumber, chan := chan }
  let q := fdiv x p
  raiseIf (isInf q) { kind := .overflow, chan := chan, info := maxSeconds p }
  let c := rne q
  raiseIf (decide (maxCycles < c)) { kind := .overflow, chan := chan, info := maxSeconds p }
  pure c

/-- `u32(n)` (R14). -/
def u32 (n : Int) : Word := BitVec.ofInt 32 n

/-- The rule of QUANT (R131): the value of RESULT. -/
def quantValue (p x : F64) : Except CmdError DWord := do
  checkPeriod p
  let c ← quantize p x chanNone
  pure ((u32 c).zeroExtend 64)

/-- The rule of CYC2SEC (R132): the value of RESULT. -/
def cyc2secValue (p : F64) (a : DWord) : Except CmdError DWord := do
  checkPeriod p
  pure (fmul (i2f (cyclesOperand a)) p)

/-- QUANT (R131). -/
def execQuant (s : State) : Host.Outcome State Fault Refusal :=
  finishPlain s ((quantValue s.clkPeriod s.opA).map (setResult · s))

/-- CYC2SEC (R132). -/
def execCyc2sec (s : State) : Host.Outcome State Fault Refusal :=
  finishPlain s ((cyc2secValue s.clkPeriod s.opA).map (setResult · s))

end Sys2Proof.Machine
end

