-- ==== Sys2Proof/Machine/RegisterMap.lean ====
section
/-!
DEFINITION. The pulse generator's register map (R150 to R156) and its commands REGIDX and REGADDR.
-/

namespace Sys2Proof.Machine

/-- `ChannelRegister(channel, sub, field)` (R151): `sub` is true for b, `field` is true for stop. -/
def channelRegister (channel : Nat) (sub field : Bool) : Nat :=
  4 * (channel - 1) + (if sub then 2 else 0) + (if field then 1 else 0)

/-- `RegisterAddress(index)` (R152). -/
def registerAddress (index : Nat) : Nat := index * addressStride

/-- The rule of REGIDX (R154): the value of RESULT. -/
def regIdxValue (a : DWord) : Except CmdError DWord := do
  let channel := channelOperand a
  raiseIf (decide (channel < 1) || decide (10 < channel)) { kind := .channelRange }
  let idx := channelRegister channel (subOperand a) (fieldOperand a)
  pure (BitVec.ofNat 32 (registerAddress idx) ++ BitVec.ofNat 32 idx)

/-- The rule of REGADDR (R155): the value of RESULT. -/
def regAddrValue (a : DWord) : Except CmdError DWord := do
  let index := indexOperand a
  raiseIf (decide (41 < index)) { kind := .registerRange }
  pure ((BitVec.ofNat 32 (registerAddress index)).zeroExtend 64)

/-- REGIDX (R154). -/
def execRegidx (s : State) : Host.Outcome State Fault Refusal :=
  finishPlain s ((regIdxValue s.opA).map (setResult · s))

/-- REGADDR (R155). -/
def execRegaddr (s : State) : Host.Outcome State Fault Refusal :=
  finishPlain s ((regAddrValue s.opA).map (setResult · s))

end Sys2Proof.Machine
end

