-- ==== Sys2Proof/Machine/Validator.lean ====
section
/-!
DEFINITION. The window validator (R170 to R177): `Validate`, shared with the builder, and the command VALIDATE.
-/

namespace Sys2Proof.Machine

/-- The classification `Validate` returns (R170). -/
inductive WindowClass where
  | disabled
  | enabled
  deriving DecidableEq, Repr

/-- STATUS.CLASS of a classification (R35, R176). -/
def classBits : WindowClass → BitVec 2
  | .disabled => 0b01
  | .enabled => 0b10

/-- The latched repetition rate where one exists (R53, R171). -/
def latchedRate (s : State) : Option Int :=
  if s.regs.latchValid then some (s.regs.latchRep.toNat : Int) else none

/-- Step 1 of `Validate` (R171): the repetition rate used. -/
def effectiveRate (latch : Option Int) (rep : Int) (chan : BitVec 4) : Except CmdError Int :=
  if rep ≤ 0 then
    match latch with
    | some r => .ok r
    | none => .error { kind := .invalidRepRate, chan := chan }
  else .ok rep

/-- The disabled sentinel (R172), on cycles. -/
def sentinelPair (start stop rep : Int) : Bool :=
  (decide (rep < stop) && decide (rep < start)) || (decide (stop < 0) && decide (start < 0))

/-- Step 3 of `Validate` (R173). -/
def checkEnabled (start stop rep : Int) (chan : BitVec 4) : Except CmdError Unit := do
  raiseIf (decide (rep < start)) { kind := .startExceedsPeriod, chan := chan }
  raiseIf (decide (rep < stop)) { kind := .stopExceedsPeriod, chan := chan }
  raiseIf (decide (stop < start)) { kind := .stopBeforeStart, chan := chan }
  raiseIf (decide (stop = start)) { kind := .zeroWidthWindow, chan := chan }

/-- `Validate(start, stop, rep)` (R170 to R174): the classification and the repetition rate used. -/
def validateWindow (latch : Option Int) (start stop rep : Int) (chan : BitVec 4) : Except CmdError (WindowClass × Int) := do
  let repEff ← effectiveRate latch rep chan
  if sentinelPair start stop repEff then pure (.disabled, repEff)
  else do
    checkEnabled start stop repEff chan
    pure (.enabled, repEff)

/-- The rule of VALIDATE (R176). -/
def validateCommand (s : State) : Except CmdError State := do
  let (cls, repEff) ←
    validateWindow (latchedRate s) (signedOperand s.opA) (signedOperand s.opB) (signedOperand s.opC) chanNone
  pure (setResult (BitVec.ofInt 64 repEff) (setClass (classBits cls) s))

/-- VALIDATE (R176). -/
def execValidate (s : State) : Host.Outcome State Fault Refusal := finishPlain s (validateCommand s)

end Sys2Proof.Machine
end

