-- ==== Sys2Proof/Machine/Builder.lean ====
section
/-!
DEFINITION. The program builder (R230 to R247), its commit (R248), the write sequence (R249), and the command BUILD (R253).
-/

namespace Sys2Proof.Machine

/-- A pulse window in seconds (R22). -/
structure Window where
  start : F64
  stop : F64
  deriving DecidableEq, Repr

/-- The program `Build` returns (R230), in cycles. -/
structure Program where
  repC : Int
  deadC : Int
  io : BitVec 20
  ps : Vector Int 10
  pt : Vector Int 10
  cs : Int
  ct : Int
  deriving DecidableEq, Repr

/-- What the slot loop of step 4 carries (R235): the earliest enabled start in seconds, the io_init mask, and the pairs. -/
structure SlotAcc where
  first : F64
  io : BitVec 20
  ps : Vector Int 10
  pt : Vector Int 10
  deriving DecidableEq, Repr

/-- What the slot loop of step 4 reads: the period, the repetition rate in seconds and in cycles, and the latch that
`Validate` is given (R170). -/
structure BuildCtx where
  p : F64
  rep : F64
  repC : Int
  latch : Option Int
  deriving DecidableEq, Repr

/-- R236: a slot disabled by the sentinel rule, on seconds. -/
def slotDisabled (rep : F64) (w : Window) : Bool :=
  (fgt w.start rep && fgt w.stop rep) || (flt w.start kZero && flt w.stop kZero)

/-- One bit of the io_init mask (R243). -/
def setIoBit (io : BitVec 20) (i : Fin 10) (b : Bool) : BitVec 20 :=
  if b then io ||| (1#20 <<< i.val) else io &&& ~~~(1#20 <<< i.val)

/-- R241, R242: a disabled slot. -/
def buildDisabled (ctx : BuildCtx) (i : Fin 10) (acc : SlotAcc) : Except CmdError SlotAcc := do
  let sent := ctx.repC + sentinelOffset
  raiseIf (decide (maxCycles < sent))
    { kind := .overflow, chan := BitVec.ofNat 4 i.val, info := (u32 ctx.repC).zeroExtend 64 }
  pure { acc with ps := acc.ps.set i sent, pt := acc.pt.set i sent, io := setIoBit acc.io i true }

/-- R237: the checks of a slot that is not disabled, in seconds; the value is the new earliest start. -/
def checkSlot (ctx : BuildCtx) (i : Fin 10) (w : Window) (first : F64) : Except CmdError F64 := do
  let chan := BitVec.ofNat 4 i.val
  raiseIf (flt (fsub w.stop w.start) ctx.p) { kind := .widthBelowClockPeriod, chan := chan }
  let first' := if flt w.start first then w.start else first
  raiseIf (fgt w.stop ctx.rep && fle w.start ctx.rep) { kind := .lastValueExceedsRepRate, chan := chan }
  raiseIf (flt w.start (fdiv ctx.rep kTwo)) { kind := .insufficientChargeTime, chan := chan }
  raiseIf (flt w.stop w.start) { kind := .startAfterStop, chan := chan }
  pure first'

/-- `Validate` as the builder calls it: a Disabled result is an internal error (R238, R245, D43). -/
def validateEnabled (latch : Option Int) (start stop rep : Int) (chan : BitVec 4) : Except CmdError Unit := do
  let (cls, _) ← validateWindow latch start stop rep chan
  raiseIf (cls == .disabled) { kind := .internalInvariant, chan := chan }

/-- R237, R238: a slot that is not disabled. -/
def buildEnabled (ctx : BuildCtx) (i : Fin 10) (w : Window) (acc : SlotAcc) : Except CmdError SlotAcc := do
  let chan := BitVec.ofNat 4 i.val
  let first ← checkSlot ctx i w acc.first
  let sc ← quantize ctx.p w.start chan
  let tc ← quantize ctx.p w.stop chan
  validateEnabled ctx.latch sc tc ctx.repC chan
  pure { first := first, ps := acc.ps.set i sc, pt := acc.pt.set i tc, io := setIoBit acc.io i false }

/-- R236: one slot of step 4. -/
def buildSlot (ctx : BuildCtx) (w : Vector Window 10) (acc : SlotAcc) (i : Fin 10) : Except CmdError SlotAcc :=
  if slotDisabled ctx.rep w[i] then buildDisabled ctx i acc else buildEnabled ctx i w[i] acc

/-- Step 4 over a list of slots, in order, each fully checked before the next (R236, R285). -/
def buildSlots (ctx : BuildCtx) (w : Vector Window 10) : List (Fin 10) → SlotAcc → Except CmdError SlotAcc
  | [], acc => .ok acc
  | i :: rest, acc =>
    match buildSlot ctx w acc i with
    | .ok acc' => buildSlots ctx w rest acc'
    | .error e => .error e

/-- R235. -/
def slotAccStart (rep : F64) : SlotAcc where
  first := rep
  io := ioInitStart
  ps := Vector.replicate 10 0
  pt := Vector.replicate 10 0

/-- Step 1 (R231). -/
def checkCount (count : Nat) : Except CmdError Unit := do
  raiseIf (decide (10 < count)) { kind := .tooManyChannels }
  raiseIf (decide (count < 10)) { kind := .wrongChannelCount }

/-- Step 2 (R232, R233). -/
def buildRepRate (p rep : F64) : Except CmdError Int := do
  let repC ← quantize p rep chanNone
  raiseIf (decide (repC = 0)) { kind := .invalidRepRate }
  pure repC

/-- Step 3 (R234). -/
def buildDeadTime (p dead : F64) : Except CmdError Int := do
  let deadC ← quantize p dead chanNone
  raiseIf (flt dead kDeadMin) { kind := .deadTimeTooShort }
  pure deadC

/-- Steps 5 and 6 (R244, R245, R247). -/
def buildCharge (ctx : BuildCtx) (deadC : Int) (acc : SlotAcc) : Except CmdError Program := do
  let firstC ← quantize ctx.p acc.first chanCharge
  let cs := deadC
  let ct := firstC - deadC
  validateEnabled ctx.latch cs ct ctx.repC chanCharge
  raiseIf (acc.io.extractLsb' 10 10 != 0x3FF) { kind := .internalInvariant }
  pure { repC := ctx.repC, deadC := deadC, io := acc.io, ps := acc.ps, pt := acc.pt, cs := cs, ct := ct }

/-- `Build(W, count, dead, rep)` (R230) at the period `p`, already checked. -/
def buildProgram (p : F64) (latch : Option Int) (w : Vector Window 10) (count : Nat) (dead rep : F64) :
    Except CmdError Program := do
  checkCount count
  let repC ← buildRepRate p rep
  let deadC ← buildDeadTime p dead
  let ctx : BuildCtx := { p := p, rep := rep, repC := repC, latch := latch }
  let acc ← buildSlots ctx w slots (slotAccStart rep)
  buildCharge ctx deadC acc

/-- The program shadow that holds a program (R248). -/
def shadowOf (g : Program) : Shadow where
  repCyc := u32 g.repC
  deadCyc := u32 g.deadC
  ioInit := g.io.zeroExtend 32
  chgStart := u32 g.cs
  chgStop := u32 g.ct
  pulseStart := tenOf fun k => u32 g.ps[k]
  pulseStop := tenOf fun k => u32 g.pt[k]

/-- `CommitProgram(prog)` (R248). -/
def commitProgram (g : Program) (s : State) : State :=
  { s with
    regs := { s.regs with prog := shadowOf g, progValid := true }
    k := 0
    phase := .emit }

/-- The window buffer as BUILD's input (R253). -/
def bufferWindows (s : State) : Vector Window 10 := tenOf fun k => ⟨s.regs.winStart[k], s.regs.winStop[k]⟩

/-- The rule of BUILD (R253). -/
def buildCommand (s : State) : Except CmdError State := do
  checkPeriod s.clkPeriod
  let g ← buildProgram s.clkPeriod (latchedRate s) (bufferWindows s) (winCountField s.param) s.deadTime s.repRate
  pure (commitProgram g s)

/-- BUILD (R253). -/
def execBuild (s : State) : Host.Outcome State Fault Refusal := finishBuilding s (buildCommand s)

/-- The slot that write number `m >= 2` of the sequence belongs to (R249). -/
def seqSlot (m : Nat) : Fin 10 := Fin.ofNat 10 ((m - 2) / 4)

/-- `Seq(m)` (R249): the index and the value of write number `m`, 0..41. -/
def seqWrite (g : Shadow) (m : Nat) : Nat × Word :=
  if m = 0 then (ioInitIndex, g.ioInit)
  else if m = 1 then (repRateIndex, g.repCyc)
  else
    let i := seqSlot m
    let channel := i.val + 1
    if (m - 2) % 4 = 0 then (channelRegister channel false false, g.pulseStart[i])
    else if (m - 2) % 4 = 1 then (channelRegister channel false true, g.pulseStop[i])
    else if (m - 2) % 4 = 2 then (channelRegister channel true false, g.chgStart)
    else (channelRegister channel true true, g.chgStop)

/-- R252: the end of an emission. -/
def endEmission (s : State) : State :=
  { s with
    regs := { s.regs with latchRep := s.regs.prog.repCyc, latchValid := true }
    phase := .idle
    done := true }

/-- The write the block holds on its output port in EMIT until the downstream accepts it (R95, R251). Outside `st.k < 42`
no rule enables a step; `k = 42` in EMIT is never reached. -/
def heldWrite (s : State) : Option (Nat × Word) := if s.k < pgRegCount then some (seqWrite s.regs.prog s.k) else none

/-- The write of register `idx` with value `v` accepted downstream: what the EMIT step does then (R251, R252). -/
def writeAccepted (idx : Nat) (v : Word) (s : State) : State :=
  let t := { pgWrite idx v s with k := s.k + 1 }
  if s.k = 41 then endEmission t else t

/-- The EMIT step (R251): the held write is offered to the downstream, which accepts it, or does not yet; then the block
goes on holding it (R95, R333). -/
def emitStep (s : State) : State :=
  match heldWrite s with
  | some (idx, v) =>
    let t := { s with downstream := afterOffer s.downstream }
    if downstreamAccepts s.downstream then writeAccepted idx v t else t
  | none => s

end Sys2Proof.Machine
end

