-- ==== Sys2Proof/Machine/Waveform.lean ====
section
/-!
DEFINITION. The waveform window scheduler (R190 to R222): the four mode procedures, the skeleton `ModeCommand`, and the
commands SYNC, DELTA, ONE and SEQ.
-/

namespace Sys2Proof.Machine

/-- `SENT` (R192): the seconds value of a disabled slot's sentinel window. -/
def sentinelSeconds (rep : F64) : F64 := fadd rep kTwo

/-- The sentinel window of a disabled slot (R192). -/
def sentinelWindow (rep : F64) : Window := ⟨sentinelSeconds rep, sentinelSeconds rep⟩

/-- The entries of a delay array below `n` must be at most 0 (R193); `info` names the array (R48). -/
def checkDelayEntries (n : Nat) (info : DWord) (d : Vector F64 10) : List (Fin 10) → Except CmdError Unit
  | [] => .ok ()
  | k :: rest =>
    if k.val < n && !fle d[k] kZero then
      .error { kind := .delayPositive, chan := BitVec.ofNat 4 k.val, info := info }
    else checkDelayEntries n info d rest

/-- One delay array, checked if present (R193). -/
def checkDelays (present : Bool) (len n : Nat) (info : DWord) (d : Vector F64 10) : Except CmdError Unit :=
  if present then do
    raiseIf (decide (len ≠ n)) { kind := .delayLength, info := info }
    checkDelayEntries n info d slots
  else pure ()

/-- `CheckCommon()` (R193): the number of channels. -/
def checkCommon (s : State) : Except CmdError Nat := do
  let n := numChField s.param
  raiseIf (decide (10 < n)) { kind := .tooManyChannels }
  checkDelays (dbPresent s.param) (dbLenField s.param) n 0 s.delayBegin
  checkDelays (dePresent s.param) (deLenField s.param) n 1 s.delayEnd
  pure n

/-- `db[k]` of SYNC (R194). -/
def syncDelayBegin (s : State) (k : Fin 10) : F64 := if dbPresent s.param then s.delayBegin[k] else kZero

/-- `de[k]` of SYNC (R194): an omitted `delay_end` is `delay_begin`. -/
def syncDelayEnd (s : State) (k : Fin 10) : F64 :=
  if dePresent s.param then s.delayEnd[k] else syncDelayBegin s k

/-- The window of an active SYNC slot (R195). -/
def syncWindow (s : State) (rep : F64) (k : Fin 10) : Window :=
  ⟨fadd (fsub rep s.pulseLen) (syncDelayBegin s k), fadd rep (syncDelayEnd s k)⟩

/-- `SyncSynth(rep)` (R195). -/
def syncSynth (s : State) (rep : F64) : Except CmdError (Vector Window 10) := do
  let n ← checkCommon s
  pure (tenOf fun k => if k.val < n then syncWindow s rep k else sentinelWindow rep)

/-- `change` of DELTA (R200). -/
def deltaChange (s : State) : F64 := if auxPresent s.param then s.auxTime else fmul s.pulseLen kHalf

/-- The window of an active DELTA slot (R201), evaluated left to right (R190, D7). -/
def deltaWindow (s : State) (rep : F64) (n : Nat) (i : Fin 10) : Window :=
  let j : Int := (n : Int) - (i.val : Int)
  let change := deltaChange s
  let stop := fsub rep (fmul change (i2f (j - 1)))
  let start := fsub (fsub (fsub rep (fmul change (i2f (j - 1)))) s.pulseLen) (fmul (i2f (2 * (i.val : Int))) change)
  ⟨start, stop⟩

/-- `DeltaSynth(rep)` (R201). -/
def deltaSynth (s : State) (rep : F64) : Except CmdError (Vector Window 10) := do
  let n ← checkCommon s
  pure (tenOf fun i => if i.val < n then deltaWindow s rep n i else sentinelWindow rep)

/-- `OneSynth(rep)` (R205, R206): channels 1..9 only. -/
def oneSynth (s : State) (rep : F64) : Except CmdError (Vector Window 10) := do
  let ch := channelField s.param
  raiseIf (!(decide (0 < ch) && decide (ch < 10))) { kind := .channelRange }
  pure (tenOf fun k => if k.val = ch - 1 then ⟨fsub rep s.pulseLen, rep⟩ else sentinelWindow rep)

/-- `time_between` of SEQ (R215). -/
def seqTimeBetween (s : State) : F64 := if auxPresent s.param then s.auxTime else s.pulseLen

/-- The window of an active SEQ slot (R216), evaluated left to right (R190, D7). -/
def seqWindow (s : State) (rep : F64) (n : Nat) (i : Fin 10) : Window :=
  let j : Int := (n : Int) - (i.val : Int)
  let tb := seqTimeBetween s
  let base := fsub rep (fmul tb (i2f (j - 1)))
  ⟨fsub base (fmul s.pulseLen (i2f j)), fsub base (fmul s.pulseLen (i2f (j - 1)))⟩

/-- `SeqSynth(rep)` (R216). -/
def seqSynth (s : State) (rep : F64) : Except CmdError (Vector Window 10) := do
  let n ← checkCommon s
  pure (tenOf fun i => if i.val < n then seqWindow s rep n i else sentinelWindow rep)

/-- The window buffer overwritten by a mode command (R45, R191). -/
def writeWindows (w : Vector Window 10) (s : State) : State :=
  { s with regs := { s.regs with winStart := tenOf fun k => w[k].start, winStop := tenOf fun k => w[k].stop } }

/-- `ModeCommand(Synth)` (R191). -/
def modeCommand (synth : State → F64 → Except CmdError (Vector Window 10)) (s : State) : Except CmdError State := do
  checkPeriod s.clkPeriod
  let w ← synth s s.repRate
  let g ← buildProgram s.clkPeriod (latchedRate s) w numChannels s.deadTime s.repRate
  pure (commitProgram g (writeWindows w s))

/-- SYNC (R196). -/
def execSync (s : State) : Host.Outcome State Fault Refusal := finishBuilding s (modeCommand syncSynth s)

/-- DELTA (R202). -/
def execDelta (s : State) : Host.Outcome State Fault Refusal := finishBuilding s (modeCommand deltaSynth s)

/-- ONE (R207). -/
def execOne (s : State) : Host.Outcome State Fault Refusal := finishBuilding s (modeCommand oneSynth s)

/-- SEQ (R217). -/
def execSeq (s : State) : Host.Outcome State Fault Refusal := finishBuilding s (modeCommand seqSynth s)

end Sys2Proof.Machine
end

