-- ==== Sys2Proof/Machine/Dispatch.lean ====
section
/-!
DEFINITION. The COMPUTE step of each command (R291): one arm per command of the opcode map (R111).
-/

namespace Sys2Proof.Machine

def exec (i : Instr) (s : State) : Host.Outcome State Fault Refusal :=
  match i with
  | .quant => Sys2Proof.Machine.execQuant s
  | .cyc2sec => Sys2Proof.Machine.execCyc2sec s
  | .validate => Sys2Proof.Machine.execValidate s
  | .regidx => Sys2Proof.Machine.execRegidx s
  | .regaddr => Sys2Proof.Machine.execRegaddr s
  | .sync => Sys2Proof.Machine.execSync s
  | .delta => Sys2Proof.Machine.execDelta s
  | .one => Sys2Proof.Machine.execOne s
  | .seq => Sys2Proof.Machine.execSeq s
  | .build => Sys2Proof.Machine.execBuild s

end Sys2Proof.Machine
end

