-- ==== Sys2Proof/Machine/Engine.lean ====
section
/-!
DEFINITION. The engine (R27, R61): what one engine step does in each phase, and the registers its command ends with.
-/

namespace Sys2Proof.Machine

/-- An illegal command word (R112): the command completes at once with IllegalCommandError. -/
def illegalCommand (s : State) : State := raiseError { kind := .illegalCommand } s

/-- The COMPUTE step (R61, R291): `st.op` is decoded, and its command's rule runs to the end. -/
def computeStep (s : State) : Host.Outcome State Fault Refusal :=
  match decodeWord s.op with
  | .ok i => exec i s
  | .error _ => .next (illegalCommand s)

/-- One engine step (R61). In IDLE the block waits for a CMD write and does nothing (R299, R322). -/
def engineStep (s : State) : Host.Outcome State Fault Refusal :=
  match s.phase with
  | .idle => .next s
  | .compute => computeStep s
  | .emit => .next (emitStep s)

/-- The state after at most `fuel` engine steps; a command takes at most 43 where the downstream accepts each write it is
offered (R61, R62). -/
def runEngine : Nat → State → State
  | 0, s => s
  | fuel + 1, s =>
    match s.phase with
    | .idle => s
    | .compute | .emit =>
      match engineStep s with
      | .next t => runEngine fuel t
      | .fault _ => s
      | .refused _ => s

/-- The registers the running command writes, as they will be if it completes: the new values of R91. -/
def newRegs (s : State) : CmdRegs := (runEngine 43 { s with downstream := alwaysAccepting }).regs

end Sys2Proof.Machine
end

