-- ==== Sys2Proof/Machine/Flags.lean ====
section
/-!
DEFINITION. The STATUS word (R35). The block has no arithmetic flag and no condition code (R66): the STATUS fields are all
its flags.
-/

namespace Sys2Proof.Machine

/-- One flag as a bit. -/
def bit1 (b : Bool) : BitVec 1 := BitVec.ofBool b

/-- The STATUS word from its fields (R35), most significant first; bits 31:28 and bit 7 read 0. -/
def packStatus (errChan : BitVec 4) (errCode : BitVec 8) (emitIdx : BitVec 6) (cls : BitVec 2)
    (progValid latchValid lock werr err done busyBit : Bool) : Word :=
  (0#4 ++ errChan ++ errCode ++ emitIdx ++ cls ++ 0#1 ++ bit1 progValid ++ bit1 latchValid ++ bit1 lock ++ bit1 werr ++
    bit1 err ++ bit1 done ++ bit1 busyBit : BitVec 32)

/-- STATUS with the fields a command writes taken from `v field`, the rest from the state. BUSY and EMIT_IDX are the
sequencer's phase and index (R60). -/
def statusFrom (v : Nat → CmdRegs) (s : State) : Word :=
  packStatus (v 0).errChan (v 1).errCode (BitVec.ofNat 6 s.k) (v 2).cls (v 3).progValid (v 4).latchValid s.lock s.werr
    (v 5).err s.done (busy s)

/-- STATUS as the block holds it. -/
def statusWord (s : State) : Word := statusFrom (fun _ => s.regs) s

/-- The bit of STATUS that clears WERR when written 1 (R36). -/
def werrBit (v : Word) : Bool := v.getLsbD 3

end Sys2Proof.Machine
end

