-- ==== Sys2Proof/Machine/Window.lean ====
section
/-!
DEFINITION. The register window (R33): where each register stands, what a word of it reads as, and what writing a word of it
does to the register. Byte order of a 64-bit register: low word first (R82).
-/

namespace Sys2Proof.Machine

/-- Offset of a 64-bit register's low word (R33). -/
def reg64Offset : Reg64 → Nat
  | .clkPeriod => 0x008
  | .repRate => 0x010
  | .deadTime => 0x018
  | .pulseLen => 0x020
  | .auxTime => 0x028
  | .errInfo => 0x038
  | .delayBegin k => 0x040 + 8 * k.val
  | .delayEnd k => 0x090 + 8 * k.val
  | .opA => 0x0E0
  | .opB => 0x0E8
  | .opC => 0x0F0
  | .result => 0x0F8
  | .winStart k => 0x100 + 16 * k.val
  | .winStop k => 0x108 + 16 * k.val

/-- Offset of a 32-bit register (R33). -/
def reg32Offset : Reg32 → Nat
  | .cmd => 0x000
  | .status => 0x004
  | .param => 0x030
  | .latchRep => 0x034
  | .progRepCyc => 0x1A0
  | .progDeadCyc => 0x1A4
  | .progIoInit => 0x1A8
  | .progChgStart => 0x1AC
  | .progChgStop => 0x1B0
  | .progPulseStart k => 0x1C0 + 8 * k.val
  | .progPulseStop k => 0x1C4 + 8 * k.val

/-- Offset of a word of the window (R33, R82). -/
def wordOffset : WindowWord → Nat
  | .word r => reg32Offset r
  | .low r => reg64Offset r
  | .high r => reg64Offset r + 4

/-- The word of a 64-bit register that an offset selects: every 64-bit register starts at a multiple of 8. -/
def halfAt (off : Nat) (r : Reg64) : WindowWord := if off % 8 = 0 then .low r else .high r

/-- The slot an offset selects in an array that starts at `base`. -/
def slotAt (off base stride : Nat) : Fin 10 := Fin.ofNat 10 ((off - base) / stride)

/-- The word at a 4-aligned offset of the window, none where the offset is unmapped (R33, R85). -/
def wordAt (off : Nat) : Option WindowWord :=
  if off = 0x000 then some (.word .cmd)
  else if off = 0x004 then some (.word .status)
  else if off < 0x010 then some (halfAt off .clkPeriod)
  else if off < 0x018 then some (halfAt off .repRate)
  else if off < 0x020 then some (halfAt off .deadTime)
  else if off < 0x028 then some (halfAt off .pulseLen)
  else if off < 0x030 then some (halfAt off .auxTime)
  else if off = 0x030 then some (.word .param)
  else if off = 0x034 then some (.word .latchRep)
  else if off < 0x040 then some (halfAt off .errInfo)
  else if off < 0x090 then some (halfAt off (.delayBegin (slotAt off 0x040 8)))
  else if off < 0x0E0 then some (halfAt off (.delayEnd (slotAt off 0x090 8)))
  else if off < 0x0E8 then some (halfAt off .opA)
  else if off < 0x0F0 then some (halfAt off .opB)
  else if off < 0x0F8 then some (halfAt off .opC)
  else if off < 0x100 then some (halfAt off .result)
  else if off < 0x1A0 then
    (if (off - 0x100) % 16 < 8 then some (halfAt off (.winStart (slotAt off 0x100 16)))
      else some (halfAt off (.winStop (slotAt off 0x100 16))))
  else if off = 0x1A0 then some (.word .progRepCyc)
  else if off = 0x1A4 then some (.word .progDeadCyc)
  else if off = 0x1A8 then some (.word .progIoInit)
  else if off = 0x1AC then some (.word .progChgStart)
  else if off = 0x1B0 then some (.word .progChgStop)
  else if off < 0x1C0 then none
  else if off < 0x210 then
    (if off % 8 = 0 then some (.word (.progPulseStart (slotAt off 0x1C0 8)))
      else some (.word (.progPulseStop (slotAt off 0x1C0 8))))
  else none

/-- Bits 63:32. -/
def highWord (x : DWord) : Word := x.extractLsb' 32 32

/-- Bits 31:0. -/
def lowWord (x : DWord) : Word := x.extractLsb' 0 32

/-- `{high word, low word}` (R57). -/
def joinWords (hi lo : Word) : DWord := hi ++ lo

/-- A 64-bit register after a host write of its low word: the other word keeps its value (R57). -/
def setLow (v : Word) (x : DWord) : DWord := joinWords (highWord x) v

/-- A 64-bit register after a host write of its high word (R57). -/
def setHigh (v : Word) (x : DWord) : DWord := joinWords v (lowWord x)

/-- The value of a 64-bit register; the registers that a command writes are taken from `v`. -/
def reg64Value (v : CmdRegs) (s : State) : Reg64 → DWord
  | .clkPeriod => s.clkPeriod
  | .repRate => s.repRate
  | .deadTime => s.deadTime
  | .pulseLen => s.pulseLen
  | .auxTime => s.auxTime
  | .errInfo => v.errInfo
  | .delayBegin k => s.delayBegin[k]
  | .delayEnd k => s.delayEnd[k]
  | .opA => s.opA
  | .opB => s.opB
  | .opC => s.opC
  | .result => v.result
  | .winStart k => v.winStart[k]
  | .winStop k => v.winStop[k]

/-- The value of a 32-bit register; the registers that a command writes are taken from `v`, whose argument numbers the
fields of STATUS. CMD reads 0 (R34). -/
def reg32Value (v : Nat → CmdRegs) (s : State) : Reg32 → Word
  | .cmd => 0
  | .status => statusFrom v s
  | .param => s.param
  | .latchRep => (v 0).latchRep
  | .progRepCyc => (v 0).prog.repCyc
  | .progDeadCyc => (v 0).prog.deadCyc
  | .progIoInit => (v 0).prog.ioInit
  | .progChgStart => (v 0).prog.chgStart
  | .progChgStop => (v 0).prog.chgStop
  | .progPulseStart k => (v 0).prog.pulseStart[k]
  | .progPulseStop k => (v 0).prog.pulseStop[k]

/-- The value of a word of the window (R58). -/
def wordValue (v : Nat → CmdRegs) (s : State) : WindowWord → Word
  | .word r => reg32Value v s r
  | .low r => lowWord (reg64Value (v 0) s r)
  | .high r => highWord (reg64Value (v 0) s r)

/-- The word of the window as the block holds it. -/
def windowValue (s : State) (w : WindowWord) : Word := wordValue (fun _ => s.regs) s w

/-- How a host write of a word is treated (the access column of R33). -/
inductive WriteClass where
  /-- CMD (R34) -/
  | command
  /-- STATUS (R36) -/
  | status
  /-- CLK_PERIOD (R38) -/
  | lockable
  /-- the other RW registers -/
  | readWrite
  /-- RO (R55) -/
  | readOnly
  deriving DecidableEq, Repr

/-- The access column of R33, 64-bit registers. -/
def reg64Class : Reg64 → WriteClass
  | .clkPeriod => .lockable
  | .repRate => .readWrite
  | .deadTime => .readWrite
  | .pulseLen => .readWrite
  | .auxTime => .readWrite
  | .errInfo => .readOnly
  | .delayBegin _ => .readWrite
  | .delayEnd _ => .readWrite
  | .opA => .readWrite
  | .opB => .readWrite
  | .opC => .readWrite
  | .result => .readOnly
  | .winStart _ => .readWrite
  | .winStop _ => .readWrite

/-- The access column of R33, 32-bit registers. -/
def reg32Class : Reg32 → WriteClass
  | .cmd => .command
  | .status => .status
  | .param => .readWrite
  | .latchRep => .readOnly
  | .progRepCyc => .readOnly
  | .progDeadCyc => .readOnly
  | .progIoInit => .readOnly
  | .progChgStart => .readOnly
  | .progChgStop => .readOnly
  | .progPulseStart _ => .readOnly
  | .progPulseStop _ => .readOnly

/-- The access column of R33. -/
def wordClass : WindowWord → WriteClass
  | .word r => reg32Class r
  | .low r => reg64Class r
  | .high r => reg64Class r

/-- The window buffer's registers after an accepted host write of one of their words. -/
def modifyWindows (r : Reg64) (f : DWord → DWord) (c : CmdRegs) : CmdRegs :=
  match r with
  | .winStart k => { c with winStart := c.winStart.set k (f c.winStart[k]) }
  | .winStop k => { c with winStop := c.winStop.set k (f c.winStop[k]) }
  | .clkPeriod => c
  | .repRate => c
  | .deadTime => c
  | .pulseLen => c
  | .auxTime => c
  | .errInfo => c
  | .delayBegin _ => c
  | .delayEnd _ => c
  | .opA => c
  | .opB => c
  | .opC => c
  | .result => c

/-- A writable 64-bit register changed by `f`. A window buffer entry is also the value the host will read back, so the old
value of R91 changes with it. ERR_INFO and RESULT are RO and keep their values (R55). -/
def modify64 (r : Reg64) (f : DWord → DWord) (s : State) : State :=
  match r with
  | .clkPeriod => { s with clkPeriod := f s.clkPeriod }
  | .repRate => { s with repRate := f s.repRate }
  | .deadTime => { s with deadTime := f s.deadTime }
  | .pulseLen => { s with pulseLen := f s.pulseLen }
  | .auxTime => { s with auxTime := f s.auxTime }
  | .errInfo => s
  | .delayBegin k => { s with delayBegin := s.delayBegin.set k (f s.delayBegin[k]) }
  | .delayEnd k => { s with delayEnd := s.delayEnd.set k (f s.delayEnd[k]) }
  | .opA => { s with opA := f s.opA }
  | .opB => { s with opB := f s.opB }
  | .opC => { s with opC := f s.opC }
  | .result => s
  | .winStart k => { s with regs := modifyWindows (.winStart k) f s.regs, old := modifyWindows (.winStart k) f s.old }
  | .winStop k => { s with regs := modifyWindows (.winStop k) f s.regs, old := modifyWindows (.winStop k) f s.old }

/-- The effect of an accepted host write on the registers: a 64-bit register's word alone (R57), PARAM under its mask
(R43). The other 32-bit registers have no such write (R34, R36, R55). -/
def storeWord (w : WindowWord) (v : Word) (s : State) : State :=
  match w with
  | .low r => modify64 r (setLow v) s
  | .high r => modify64 r (setHigh v) s
  | .word .param => { s with param := v &&& paramMask }
  | .word .cmd => s
  | .word .status => s
  | .word .latchRep => s
  | .word .progRepCyc => s
  | .word .progDeadCyc => s
  | .word .progIoInit => s
  | .word .progChgStart => s
  | .word .progChgStop => s
  | .word (.progPulseStart _) => s
  | .word (.progPulseStop _) => s

/-- A 32-bit aligned host write at an offset (R34, R36, R37, R54, R55, R56, R85). -/
def hostStore (off : Nat) (v : Word) (s : State) : State :=
  match wordAt off with
  | none => ignoreWrite s
  | some w =>
    match wordClass w with
    | .status => if werrBit v then { s with werr := false } else s
    | .readOnly => ignoreWrite s
    | .command => if busy s then ignoreWrite s else acceptCommand v s
    | .lockable => if busy s || s.lock then ignoreWrite s else storeWord w v s
    | .readWrite => if busy s then ignoreWrite s else storeWord w v s

end Sys2Proof.Machine
end

