-- ==== Sys2Proof/Machine/Bus.lean ====
section
/-!
DEFINITION. The host bus (R80 to R91): what a host access reads and changes, and one scheduled move of an agent.
-/

namespace Sys2Proof.Machine

/-- The view that host read number `n` shows of its field `lane`, before the host has seen the command complete (R91). -/
def chosenRegs (s : State) (lane : Nat) : CmdRegs :=
  match Config.readChoice s.reads lane with
  | .old => s.old
  | .current => s.regs
  | .new => newRegs s

/-- What a host read shows of the registers a command writes (R58, R91, R328): their values once the host has seen the
command complete; before that the old or the new value. -/
def readRegs (s : State) (lane : Nat) : CmdRegs := if s.settled then s.regs else chosenRegs s lane

/-- What a host read of STATUS shows. BUSY, DONE, WERR, LOCK and EMIT_IDX are always as they are (R60); a read that finds
the engine idle shows every other field as it is too, since it is the read that ends R91's interval. -/
def statusRegs (s : State) (lane : Nat) : CmdRegs := if busy s then readRegs s lane else s.regs

/-- The value a host read of a mapped word returns (R58, R91). -/
def hostWordValue (s : State) (w : WindowWord) : Word :=
  if w = .word .status then wordValue (statusRegs s) s w else wordValue (readRegs s) s w

/-- A 32-bit aligned host read of an offset (R58, R85). -/
def hostLoad (off : Nat) (s : State) : Word :=
  match wordAt off with
  | some w => hostWordValue s w
  | none => 0

/-- The bookkeeping of a host read: the free choices move on, and a read of STATUS that shows DONE = 1 and BUSY = 0 ends
R91's interval. No register changes (R58, R84). -/
def noteRead (off : Nat) (s : State) : State :=
  { s with
    reads := s.reads + 1
    settled := s.settled || (wordAt off == some (.word .status) && s.done && !busy s) }

/-- The response to a host access. -/
inductive BusReply where
  | okay (data : Word)
  /-- the bus error response of R81 -/
  | error
  deriving DecidableEq, Repr

/-- The data a host access returns: a refused access reads 0 (R81). -/
def replyData : BusReply → Word
  | .okay d => d
  | .error => 0

/-- A host read (R80, R81). -/
def hostRead (bytes : Nat) (off : Offset) (s : State) : BusReply × State :=
  if accessAligned bytes off then (.okay (hostLoad off.toNat s), noteRead off.toNat s) else (.error, s)

/-- A host write (R80, R81). -/
def hostWrite (bytes : Nat) (off : Offset) (v : Word) (s : State) : BusReply × State :=
  if accessAligned bytes off then (.okay 0, hostStore off.toNat v s) else (.error, s)

/-- A served access ends with its data on the bus; a refused one is a fault of the host program (R81). -/
def answerHost (r : BusReply × State) : Host.Outcome State Fault Refusal :=
  match r.1 with
  | .okay d => .next { r.2 with busData := d }
  | .error => .fault .busError

/-- One round of the host's `wait` loop (R121): a read of STATUS; while its bit 0, which is BUSY (R35), is 1, the engine
takes a step (R334) and the loop goes on, for ever where the downstream never accepts (R333). -/
def pollStatus (s : State) : State :=
  let t := { noteRead 0x004 s with busData := hostLoad 0x004 s }
  if busy s then { t with inbox := .engine :: .poll :: t.inbox } else t

/-- One scheduled move (R26, R27, R90); `s` is the state with the move taken off the schedule. -/
def serveEvent (e : Event) (s : State) : Host.Outcome State Fault Refusal :=
  match e with
  | .read bytes off => answerHost (hostRead bytes off s)
  | .write bytes off v => answerHost (hostWrite bytes off v s)
  | .poll => .next (pollStatus s)
  | .reset => .next (applyReset s)
  | .engine => engineStep s
  | .wait => .next s

/-- The next move: the head of the schedule; with no move scheduled, the engine's own (R334). -/
def nextMove (s : State) : Host.Outcome State Fault Refusal :=
  match s.inbox with
  | [] => engineStep s
  | e :: rest => serveEvent e { s with inbox := rest }

/-- The state in which the host's write of the command word `w` to CMD has just been accepted, nothing else is scheduled,
and the next step is the COMPUTE step of `w` (R290, R291). -/
def loadCommand (w : Word) (s : State) : State := { acceptCommand w s with inbox := [] }

end Sys2Proof.Machine
end

