-- ==== Sys2Proof/Machine/HostProgram.lean ====
section
/-!
DEFINITION. Host assembly (R120, R121, R122): the host accesses each line stands for.
-/

namespace Sys2Proof.Machine

/-- `wr`: one 32-bit write (R120). -/
def wrEvent (w : WindowWord) (v : Word) : Event := .write 4 (BitVec.ofNat 10 (wordOffset w)) v

/-- `rd`: one 32-bit read (R120). -/
def rdEvent (w : WindowWord) : Event := .read 4 (BitVec.ofNat 10 (wordOffset w))

/-- The 64-bit pattern of a literal (R121, R122). -/
def literalBits : TimeLit → F64
  | .decimal neg digits exp10 => decimalF64 neg digits exp10
  | .pattern bits => bits

/-- A 64-bit register written low word first (R121). -/
def wr64Events (r : Reg64) (x : DWord) : List Event := [wrEvent (.low r) (lowWord x), wrEvent (.high r) (highWord x)]

/-- The host accesses of a line (R120) or of a pseudo-instruction's expansion (R121). -/
def expandLine : HostLine → List Event
  | .wr w v => [wrEvent w v]
  | .rd w => [rdEvent w]
  | .cmd i => [wrEvent (.word .cmd) (encode i)]
  | .wr64 r x => wr64Events r (literalBits x)
  | .wri64 r n => wr64Events r (BitVec.ofInt 64 n)
  | .wait => [.poll]
  | .run i => [wrEvent (.word .cmd) (encode i), .poll]

/-- A host program as a schedule, in the order its lines stand (R90). -/
def assemble (p : List HostLine) : List Event := p.flatMap expandLine

/-- The state with a host program still to run. -/
def withProgram (p : List HostLine) (s : State) : State := { s with inbox := assemble p }

end Sys2Proof.Machine
end

