-- ==== Sys2Proof/Machine/Step.lean ====
section
/-!
DEFINITION. The step, and where the host of this project places a command to run it next.
-/

namespace Sys2Proof.Machine

/-- One step of the model: the next scheduled move, or an engine step when none is scheduled. -/
def step (s : State) : Host.Outcome State Fault Refusal := nextMove s

/-- The command word of `nbits` bits placed where the engine takes its next command: in `st.op`, just accepted. How a
command comes there from reset is in assumption log entry 2. -/
def State.withFetchWord (s : State) (nbits w : Nat) : State := loadCommand (tableWord nbits w) s

end Sys2Proof.Machine
end

