-- ==== Sys2Proof/Safety.lean ====
section
/-!
DEFINITION. What the statements speak of: when a time can be quantized, when a set of windows is a program the builder takes
and which program that is, written without the builder's order of checks (R230 to R247); and what holds of every state a run
reaches.
-/

namespace Sys2Proof.Machine

/-- `2^1024 - 2^970` in units of 2^-1074: the least magnitude that rounds to infinity (R15). -/
def overflowUnits : Nat := (2 ^ 54 - 1) * 2 ^ 2044

/-- A binary64 value that is neither a NaN nor an infinity. -/
abbrev IsFinite (x : F64) : Prop := isNaN x = false ∧ isInf x = false

/-- `r` is `num / den` units of 2^-1074 under roundTiesToEven (R15): an infinity exactly when the quotient's magnitude is
2^1024 - 2^970 or more, and otherwise at least as near to it as every finite `z`, with last significand bit 0 where a `z` of
another value is as near. -/
abbrev RoundsTo (r : F64) (num den : Int) : Prop :=
  isNaN r = false ∧ (isInf r = true ↔ overflowUnits * den.natAbs ≤ num.natAbs) ∧
  (isInf r = false → ∀ z : F64, IsFinite z →
    (units r * den - num).natAbs ≤ (units z * den - num).natAbs ∧
    ((units r * den - num).natAbs = (units z * den - num).natAbs → units z = units r ∨ r.getLsbD 0 = false))

/-- A clock period that `CheckPeriod` passes (R133). -/
abbrev PeriodOk (p : F64) : Prop := flt 0 p = true ∧ isInf p = false

/-- A time that `Quantize` takes at the period `p` (R130). -/
abbrev Quantizable (p x : F64) : Prop :=
  flt x 0 = false ∧ isNaN x = false ∧ isInf (fdiv x p) = false ∧ rne (fdiv x p) ≤ 4294967295

/-- The cycle count of a quantizable time (R130). -/
def cycles (p x : F64) : Int := rne (fdiv x p)

/-- A slot disabled by the sentinel rule, on seconds (R236). -/
abbrev SlotOff (rep : F64) (w : Window) : Prop :=
  (flt rep w.start = true ∧ flt rep w.stop = true) ∨ (flt w.start 0 = true ∧ flt w.stop 0 = true)

/-- An enabled slot that passes: R237 on seconds, R238 and R173 on cycles. The checks that R239 calls unreachable are not
in it. -/
abbrev SlotAccepted (p rep : F64) (w : Window) : Prop :=
  flt (fsub w.stop w.start) p = false ∧
  ¬ (flt rep w.stop = true ∧ fle w.start rep = true) ∧
  flt w.start (fdiv rep 0x4000000000000000) = false ∧
  Quantizable p w.start ∧ Quantizable p w.stop ∧
  cycles p w.start < cycles p w.stop ∧ cycles p w.stop ≤ cycles p rep

/-- The earliest start among the enabled slots, or the repetition rate (R24, R235, R237). -/
def earliestStart (rep : F64) (w : Vector Window 10) : F64 :=
  slots.foldl (fun first i => if SlotOff rep w[i] then first else if flt w[i].start first then w[i].start else first) rep

/-- The windows the builder accepts at the period `p` (R231 to R245), ten of them supplied. -/
abbrev ProgramAccepted (p rep dead : F64) (w : Vector Window 10) : Prop :=
  Quantizable p rep ∧ cycles p rep ≠ 0 ∧
  Quantizable p dead ∧ flt dead 0x3E7AD7F29ABCAF48 = false ∧
  (∀ i : Fin 10, (SlotOff rep w[i] → cycles p rep + 2 ≤ 4294967295) ∧ (¬ SlotOff rep w[i] → SlotAccepted p rep w[i])) ∧
  cycles p dead < cycles p (earliestStart rep w) - cycles p dead

/-- The io_init mask of a program (R243): bit i is 1 when slot i is disabled, bits 19:10 are 1. -/
def ioMask (off : Fin 10 → Bool) : BitVec 20 :=
  slots.foldl (fun io i => if off i then io ||| (1#20 <<< i.val) else io) 0xFFC00

/-- The program of a set of accepted windows (R238, R241, R243, R244). -/
def programOf (p rep dead : F64) (w : Vector Window 10) : Program where
  repC := cycles p rep
  deadC := cycles p dead
  io := ioMask fun i => decide (SlotOff rep w[i])
  ps := tenOf fun i => if SlotOff rep w[i] then cycles p rep + 2 else cycles p w[i].start
  pt := tenOf fun i => if SlotOff rep w[i] then cycles p rep + 2 else cycles p w[i].stop
  cs := cycles p dead
  ct := cycles p (earliestStart rep w) - cycles p dead

/-- A delay array that CheckCommon passes, if it is supplied (R193). -/
abbrev DelaysOk (present : Bool) (len n : Nat) (d : Vector F64 10) : Prop :=
  present = true → len = n ∧ ∀ k : Fin 10, k.val < n → fle d[k] 0 = true

/-- The operands that CheckCommon passes (R193), read from the bits of PARAM (R43). -/
abbrev CommonOk (s : State) : Prop :=
  (s.param.extractLsb' 0 4).toNat ≤ 10 ∧
  DelaysOk (s.param.getLsbD 9) (s.param.extractLsb' 12 4).toNat (s.param.extractLsb' 0 4).toNat s.delayBegin ∧
  DelaysOk (s.param.getLsbD 10) (s.param.extractLsb' 16 4).toNat (s.param.extractLsb' 0 4).toNat s.delayEnd

/-- The checks of a program-building command before its windows reach the builder's step 2: CheckCommon (R193), ONE's channel
(R205), BUILD's window count (R231). -/
abbrev OperandsPass (i : Instr) (s : State) : Prop :=
  (i ∈ [Instr.sync, .delta, .seq] → CommonOk s) ∧
  (i = .one → 0 < (s.param.extractLsb' 4 4).toNat ∧ (s.param.extractLsb' 4 4).toNat < 10) ∧
  (i = .build → (s.param.extractLsb' 20 4).toNat = 10)

/-- The window of slot `k` that a program-building command gives the builder: what SYNC (R194, R195), DELTA (R200, R201), ONE
(R206) and SEQ (R215, R216) synthesize, and BUILD's entry of the window buffer (R253). -/
def givenWindow (i : Instr) (s : State) (k : Fin 10) : Window :=
  let n := (s.param.extractLsb' 0 4).toNat
  let sentinel : Window := ⟨fadd s.repRate 0x4000000000000000, fadd s.repRate 0x4000000000000000⟩
  let before : Int := (n : Int) - k.val - 1
  match i with
  | .sync =>
    let db := if s.param.getLsbD 9 then s.delayBegin[k] else 0
    let de := if s.param.getLsbD 10 then s.delayEnd[k] else db
    if k.val < n then ⟨fadd (fsub s.repRate s.pulseLen) db, fadd s.repRate de⟩ else sentinel
  | .delta =>
    let change := if s.param.getLsbD 8 then s.auxTime else fmul s.pulseLen 0x3FE0000000000000
    let stop := fsub s.repRate (fmul change (i2f before))
    if k.val < n then ⟨fsub (fsub stop s.pulseLen) (fmul (i2f (2 * (k.val : Int))) change), stop⟩ else sentinel
  | .one =>
    if k.val + 1 = (s.param.extractLsb' 4 4).toNat then ⟨fsub s.repRate s.pulseLen, s.repRate⟩ else sentinel
  | .seq =>
    let tb := if s.param.getLsbD 8 then s.auxTime else s.pulseLen
    let base := fsub s.repRate (fmul tb (i2f before))
    if k.val < n then ⟨fsub base (fmul s.pulseLen (i2f (before + 1))), fsub base (fmul s.pulseLen (i2f before))⟩
    else sentinel
  | .build | .quant | .cyc2sec | .validate | .regidx | .regaddr => ⟨s.regs.winStart[k], s.regs.winStop[k]⟩

/-- The repetition rate and the dead time pass the builder's steps 2 and 3 (R232 to R234). -/
abbrev TimesPass (p rep dead : F64) : Prop :=
  Quantizable p rep ∧ cycles p rep ≠ 0 ∧ Quantizable p dead ∧ flt dead 0x3E7AD7F29ABCAF48 = false

/-- A slot passes the builder's step 4 (R236 to R242). -/
abbrev SlotOk (p rep : F64) (w : Window) : Prop :=
  (SlotOff rep w → cycles p rep + 2 ≤ 4294967295) ∧ (¬ SlotOff rep w → SlotAccepted p rep w)

/-- What the program shadow holds once a program was committed (R50, R233, R238, R241, R243, R246). -/
abbrev ShadowOk (g : Shadow) : Prop :=
  0 < g.repCyc.toNat ∧
  g.chgStart = g.deadCyc ∧ g.chgStart.toNat < g.chgStop.toNat ∧ g.chgStop.toNat ≤ g.repCyc.toNat ∧
  (g.ioInit >>> 10) = 0x3FF#32 ∧
  ∀ i : Fin 10,
    if g.ioInit.getLsbD i.val then
      g.pulseStart[i].toNat = g.repCyc.toNat + 2 ∧ g.pulseStop[i].toNat = g.repCyc.toNat + 2
    else g.pulseStart[i].toNat < g.pulseStop[i].toNat ∧ g.pulseStop[i].toNat ≤ g.repCyc.toNat

/-- The first `k` writes of a program's sequence (R249) as they stand in the output trace (R65, R95). -/
def sequencePrefix (g : Shadow) (k : Nat) : List (Word × Word) :=
  (List.range k).map fun m => (BitVec.ofNat 32 ((seqWrite g m).1 * 4), (seqWrite g m).2)

/-- How many of the next `m` offers of a write the downstream accepts (R95). -/
def acceptedOffers (d : Downstream) (m : Nat) : Nat :=
  (d.answers.take m).count true + if d.afterwards then m - d.answers.length else 0

/-- The downstream goes on to accept `n` writes: the premise that R333 asks of a claim that a program completes. -/
abbrev AcceptsWrites (d : Downstream) (n : Nat) : Prop := ∃ m, n ≤ acceptedOffers d m

/-- The next move is the engine's, and it finds the state `u`: the schedule says so, or it lists nothing (R334, assumption log
entry 1). -/
abbrev EngineTurn (s u : State) : Prop :=
  (s.inbox = [] ∧ u = s) ∨ ∃ rest, s.inbox = .engine :: rest ∧ u = { s with inbox := rest }

/-- What holds of every state that a run from reset reaches: the sequencer and STATUS agree (R35, R60, R61, R290), PARAM's
reserved bits are 0 (R43), the latch and the shadow hold programs that passed (R50, R51, R53, R171). -/
abbrev StateOk (s : State) : Prop :=
  s.k ≤ 42 ∧
  (s.phase = .emit → s.k < 42 ∧ s.regs.progValid = true) ∧
  (s.phase = .compute → s.k = 0) ∧
  (s.phase ≠ .idle → s.lock = true ∧ s.done = false ∧ s.regs.err = false) ∧
  (s.param &&& 0xFF000800) = 0 ∧
  s.regs.cls ≠ 0b11 ∧
  (s.regs.err = false → s.regs.errCode = 0 ∧ s.regs.errChan = 15) ∧
  s.regs.errCode.toNat ≤ 0x16 ∧
  (s.regs.progValid = true → ShadowOk s.regs.prog) ∧
  (s.regs.latchValid = true → 0 < s.regs.latchRep.toNat)

/-- While a program is being emitted, the trace ends with the first `st.k` writes of its sequence (R96, R249, R250). -/
abbrev EmissionOk (s : State) : Prop :=
  s.phase = .emit → ∃ before, s.trace = before ++ sequencePrefix s.regs.prog s.k

/-- A command ended with an error (R281): the code, channel and info reported, the engine idle, all else as it was. -/
def endedWithError (code : BitVec 8) (chan : BitVec 4) (info : DWord) (s : State) : State :=
  { s with
    regs := { s.regs with err := true, errCode := code, errChan := chan, errInfo := info }
    done := true
    phase := .idle }

/-- A command that builds no program ended without an error (R291). -/
def endedWith (regs : CmdRegs) (s : State) : State := { s with regs := regs, done := true, phase := .idle }

/-- The compute phase of a program-building command ended without an error (R191, R248): the windows kept, the program in
the shadow, the emission about to start. -/
def startedEmission (w : Vector Window 10) (g : Program) (s : State) : State :=
  { s with
    regs := { s.regs with
      winStart := tenOf fun k => w[k].start
      winStop := tenOf fun k => w[k].stop
      progValid := true
      prog := {
        repCyc := BitVec.ofInt 32 g.repC
        deadCyc := BitVec.ofInt 32 g.deadC
        ioInit := g.io.zeroExtend 32
        chgStart := BitVec.ofInt 32 g.cs
        chgStop := BitVec.ofInt 32 g.ct
        pulseStart := tenOf fun k => BitVec.ofInt 32 g.ps[k]
        pulseStop := tenOf fun k => BitVec.ofInt 32 g.pt[k] } }
    k := 0
    phase := .emit }

/-- The commands that build no program (R291). -/
def plainCommands : List Instr := [.quant, .cyc2sec, .validate, .regidx, .regaddr]

/-- The program-building commands (R191, R253, R291). -/
def buildingCommands : List Instr := [.sync, .delta, .one, .seq, .build]

/-- The window words of RO registers (the access column of R33). -/
def readOnlyWords : List WindowWord :=
  [.word .latchRep, .low .errInfo, .high .errInfo, .low .result, .high .result, .word .progRepCyc, .word .progDeadCyc,
    .word .progIoInit, .word .progChgStart, .word .progChgStop] ++
  slots.map (fun k => .word (.progPulseStart k)) ++ slots.map (fun k => .word (.progPulseStop k))

/-- The 64-bit RW registers (the access column of R33), CLK_PERIOD apart. -/
def writableRegs : List Reg64 :=
  [.repRate, .deadTime, .pulseLen, .auxTime, .opA, .opB, .opC] ++ slots.map .delayBegin ++ slots.map .delayEnd ++
    slots.map .winStart ++ slots.map .winStop

end Sys2Proof.Machine
end

