-- ==== Sys2Proof/Certificates/Slice0/Obligations.lean ====
section
/-!
DEFINITION. The statements. Each names the rules of spec/ it formalises. Commands are stated on the state of their COMPUTE
step; a host access on a state whose schedule has that access next.
-/

open Sys2Proof Sys2Proof.Machine

/-! ## Encoding -/

/-- R82, R110, R111: on every byte string, the decoder reads a command exactly where the encoder wrote its four bytes. -/
def Obligations.DecodeInvertsEncode : Prop :=
  (∀ (i : Instr) (rest : List Byte), i.wellFormed = true → decode (encodeBytes i ++ rest) = .ok (i, rest)) ∧
  (∀ (bytes rest : List Byte) (i : Instr), decode bytes = .ok (i, rest) → bytes = encodeBytes i ++ rest)

/-- R110, R111, R112: which of the 2^32 words are commands, and by which name the others are refused. -/
def Obligations.LegalWordsExactly : Prop :=
  ∀ w : Word,
    ((∃ i, decodeWord w = .ok i) ↔ w ∈ [0x1#32, 0x2, 0x3, 0x4, 0x5, 0x8, 0x9, 0xA, 0xB, 0xC]) ∧
    (decodeWord w = .error .reservedBits ↔ w.extractLsb' 4 28 ≠ 0) ∧
    (decodeWord w = .error .reservedOpcode ↔
      w.extractLsb' 4 28 = 0 ∧ w.extractLsb' 0 4 ∈ [0x0#4, 0x6, 0x7, 0xD, 0xE, 0xF])

/-- R111: the words of the opcode map, as the opcode table numbers them. -/
def Obligations.OpcodeMapWords : Prop :=
  decodeTableWord 32 0x00000001 = some .quant ∧ decodeTableWord 32 0x00000002 = some .cyc2sec ∧
  decodeTableWord 32 0x00000003 = some .validate ∧ decodeTableWord 32 0x00000004 = some .regidx ∧
  decodeTableWord 32 0x00000005 = some .regaddr ∧ decodeTableWord 32 0x00000008 = some .sync ∧
  decodeTableWord 32 0x00000009 = some .delta ∧ decodeTableWord 32 0x0000000A = some .one ∧
  decodeTableWord 32 0x0000000B = some .seq ∧ decodeTableWord 32 0x0000000C = some .build ∧
  decodeTableWord 32 0x00000000 = none ∧ decodeTableWord 32 0x00000011 = none

/-! ## The step, acceptance and illegal words -/

/-- R61, R290, R291: a COMPUTE step decodes `st.op` and runs the command it names; a command word just accepted is what the
next step runs; in IDLE the block waits (R299). That with nothing scheduled the step is the engine's is the model's choice
(assumption log entry 1), and so is where `withFetchWord` puts a word (assumption log entry 2). -/
def Obligations.StepRunsDecodedCommand : Prop :=
  (∀ (s : State) (i : Instr), s.phase = .compute → decodeWord s.op = .ok i →
    (s.inbox = [] → step s = exec i s) ∧
    (∀ rest, s.inbox = .engine :: rest → step s = exec i { s with inbox := rest })) ∧
  (∀ (s : State) (i : Instr),
    step (s.withFetchWord 32 (encode i).toNat) = exec i (s.withFetchWord 32 (encode i).toNat)) ∧
  (∀ s : State, s.phase = .idle → s.inbox = [] → step s = .next s)

/-- R290, R54: a CMD write is accepted in IDLE, with exactly the effects of the rule, and ignored with WERR otherwise. The
fields `old` and `settled` are the model's own (assumption log entry 3). -/
def Obligations.CommandAcceptance : Prop :=
  ∀ (s : State) (w : Word) (rest : List Event), s.inbox = .write 4 0x000 w :: rest →
    (s.phase = .idle → step s = .next { s with
      inbox := rest, busData := 0, op := w, phase := .compute, lock := true, done := false, k := 0
      regs := { s.regs with err := false, errCode := 0, errChan := 15, cls := 0b00, errInfo := 0 }
      old := s.regs, settled := false }) ∧
    (s.phase ≠ .idle → step s = .next { s with inbox := rest, busData := 0, werr := true })

/-- R112: an illegal word is accepted and completes at once with IllegalCommandError; nothing else changes. -/
def Obligations.IllegalWordCompletes : Prop :=
  ∀ (s : State) (w : Word) (rest : List Event), s.phase = .idle → s.inbox = .write 4 0x000 w :: .engine :: rest →
    (w.extractLsb' 4 28 ≠ 0 ∨ w.extractLsb' 0 4 ∈ [0x0#4, 0x6, 0x7, 0xD, 0xE, 0xF]) →
    Host.Core.run Sys2Proof.core 2 s = .next { s with
      inbox := rest, busData := 0, op := w, phase := .idle, lock := true, done := true, k := 0
      regs := { s.regs with err := true, errCode := 0x16, errChan := 15, cls := 0b00, errInfo := 0 }
      old := s.regs, settled := false }

/-! ## The register window -/

/-- R33, R82: the register map: a word stands at an offset exactly when the table puts it there, and no two words share
one. -/
def Obligations.WindowMapExact : Prop :=
  ∀ (off : Nat) (w : WindowWord), off % 4 = 0 →
    (wordAt off = some w ↔ wordOffset w = off) ∧ wordOffset w < 1024 ∧ wordOffset w % 4 = 0

/-- R81: an access of another width or alignment is refused with a bus error, reads 0, changes nothing, and is a fault of
the host program. -/
def Obligations.MisalignedAccessRefused : Prop :=
  ∀ (s : State) (bytes : Nat) (off : Offset) (v : Word) (rest : List Event), (bytes ≠ 4 ∨ off.toNat % 4 ≠ 0) →
    hostRead bytes off s = (.error, s) ∧ hostWrite bytes off v s = (.error, s) ∧ replyData .error = 0 ∧
    (s.inbox = .read bytes off :: rest → step s = .fault .busError) ∧
    (s.inbox = .write bytes off v :: rest → step s = .fault .busError)

/-- R85: an unmapped offset reads 0; a write there is ignored and sets WERR. -/
def Obligations.UnmappedOffsets : Prop :=
  ∀ (s : State) (off : Offset) (v : Word) (rest : List Event), off.toNat % 4 = 0 →
    (∀ w, wordOffset w ≠ off.toNat) →
    (s.inbox = .read 4 off :: rest →
      step s = .next { s with inbox := rest, busData := 0, reads := s.reads + 1 }) ∧
    (s.inbox = .write 4 off v :: rest → step s = .next { s with inbox := rest, busData := 0, werr := true })

/-- R54, R55, R56: the ignored writes change nothing but WERR: while BUSY, a write to CMD, to an RW register or to
CLK_PERIOD; busy or not, a write to a word of an RO register; once LOCK = 1, a write to a word of CLK_PERIOD. -/
def Obligations.IgnoredWritesSetOnlyWerr : Prop :=
  ∀ (s : State) (w : WindowWord) (v : Word) (rest : List Event),
    (s.phase ≠ .idle ∧ w ≠ .word .status) ∨ w ∈ readOnlyWords ∨
      (s.lock = true ∧ (w = .low .clkPeriod ∨ w = .high .clkPeriod)) →
    s.inbox = .write 4 (BitVec.ofNat 10 (wordOffset w)) v :: rest →
    step s = .next { s with inbox := rest, busData := 0, werr := true }

/-- R36: a write to STATUS clears WERR when bit 3 is 1 and has no other effect, busy or not. -/
def Obligations.StatusWriteClearsWerr : Prop :=
  ∀ (s : State) (v : Word) (rest : List Event), s.inbox = .write 4 0x004 v :: rest →
    step s = .next { s with inbox := rest, busData := 0, werr := if v.getLsbD 3 then false else s.werr }

/-- R57, R43: an accepted write to a word of a 64-bit register changes those 32 bits only: that word reads as written, every
other word of the window, the sequencer and the trace are as before. A write to PARAM stores `v & 0x00FFF7FF` and changes
nothing else. -/
def Obligations.AcceptedWriteChangesOneWord : Prop :=
  (∀ (s : State) (w : WindowWord) (r : Reg64) (v : Word) (rest : List Event), s.phase = .idle →
    (r ∈ writableRegs ∨ (r = .clkPeriod ∧ s.lock = false)) → (w = .low r ∨ w = .high r) →
    s.inbox = .write 4 (BitVec.ofNat 10 (wordOffset w)) v :: rest →
    ∃ t, step s = .next t ∧ windowValue t w = v ∧ (∀ w', w' ≠ w → windowValue t w' = windowValue s w') ∧
      t.phase = .idle ∧ t.op = s.op ∧ t.k = s.k ∧ t.trace = s.trace ∧ t.inbox = rest) ∧
  (∀ (s : State) (v : Word) (rest : List Event), s.phase = .idle → s.inbox = .write 4 0x030 v :: rest →
    step s = .next { s with inbox := rest, busData := 0, param := v &&& 0x00FFF7FF })

/-- R35, R60: the STATUS word, field by field. -/
def Obligations.StatusWordLayout : Prop :=
  ∀ s : State, s.k ≤ 42 →
    (statusWord s).getLsbD 0 = decide (s.phase ≠ .idle) ∧ (statusWord s).getLsbD 1 = s.done ∧
    (statusWord s).getLsbD 2 = s.regs.err ∧ (statusWord s).getLsbD 3 = s.werr ∧ (statusWord s).getLsbD 4 = s.lock ∧
    (statusWord s).getLsbD 5 = s.regs.latchValid ∧ (statusWord s).getLsbD 6 = s.regs.progValid ∧
    (statusWord s).getLsbD 7 = false ∧ (statusWord s).extractLsb' 8 2 = s.regs.cls ∧
    ((statusWord s).extractLsb' 10 6).toNat = s.k ∧ (statusWord s).extractLsb' 16 8 = s.regs.errCode ∧
    (statusWord s).extractLsb' 24 4 = s.regs.errChan ∧ (statusWord s).extractLsb' 28 4 = 0

/-- R33, R34, R57, R82: what each word of the window shows: of a 64-bit register its halves, the low word at the lower
offset; a 32-bit register whole; CMD 0. -/
def Obligations.WindowWordsShowRegisters : Prop :=
  ∀ (s : State) (k : Fin 10),
    let joined := fun r : Reg64 => windowValue s (.high r) ++ windowValue s (.low r)
    let shown := fun r : Reg32 => windowValue s (.word r)
    joined .clkPeriod = s.clkPeriod ∧ joined .repRate = s.repRate ∧ joined .deadTime = s.deadTime ∧
    joined .pulseLen = s.pulseLen ∧ joined .auxTime = s.auxTime ∧ joined .errInfo = s.regs.errInfo ∧
    joined (.delayBegin k) = s.delayBegin[k] ∧ joined (.delayEnd k) = s.delayEnd[k] ∧
    joined .opA = s.opA ∧ joined .opB = s.opB ∧ joined .opC = s.opC ∧ joined .result = s.regs.result ∧
    joined (.winStart k) = s.regs.winStart[k] ∧ joined (.winStop k) = s.regs.winStop[k] ∧
    shown .cmd = 0 ∧ shown .param = s.param ∧ shown .latchRep = s.regs.latchRep ∧
    shown .progRepCyc = s.regs.prog.repCyc ∧ shown .progDeadCyc = s.regs.prog.deadCyc ∧
    shown .progIoInit = s.regs.prog.ioInit ∧ shown .progChgStart = s.regs.prog.chgStart ∧
    shown .progChgStop = s.regs.prog.chgStop ∧ shown (.progPulseStart k) = s.regs.prog.pulseStart[k] ∧
    shown (.progPulseStop k) = s.regs.prog.pulseStop[k] ∧
    ∀ r, wordOffset (.high r) = wordOffset (.low r) + 4

/-- R58, R84, R91: once the host has seen the command complete, a read returns the register's value and has no effect. (The
fields `busData`, `reads`, `settled` are the model's own.) -/
def Obligations.SettledReadsAreExact : Prop :=
  ∀ (s : State) (w : WindowWord) (rest : List Event), s.settled = true →
    s.inbox = .read 4 (BitVec.ofNat 10 (wordOffset w)) :: rest →
    step s = .next { s with inbox := rest, busData := windowValue s w, reads := s.reads + 1 }

/-- R91, U8: before that, a read of a word other than STATUS returns its old, its present or its new value, whichever the
free choice, and changes no register. -/
def Obligations.UnsettledReadsOldOrNew : Prop :=
  ∀ (s : State) (w : WindowWord) (rest : List Event), w ≠ .word .status →
    s.inbox = .read 4 (BitVec.ofNat 10 (wordOffset w)) :: rest →
    ∃ v, step s = .next { s with inbox := rest, busData := v, reads := s.reads + 1 } ∧
      (v = windowValue { s with regs := s.old } w ∨ v = windowValue s w ∨
        v = windowValue { s with regs := newRegs { s with inbox := rest } } w)

/-- R35, R58, R60, R91: whatever a host read of STATUS shows of the rest, BUSY, DONE, WERR, LOCK and EMIT_IDX are as they
are; a read that finds the engine idle and DONE = 1 returns STATUS as it is, and ends the interval of R91. R91 and R328 speak
of the reads after that one: that those five fields are always exact, and that the completing read itself is exact in every
field, is the model's reading (DEDUCED, assumption log entry 3). -/
def Obligations.StatusReads : Prop :=
  ∀ (s : State) (rest : List Event), s.inbox = .read 4 0x004 :: rest →
    (∃ t, step s = .next t ∧ t.busData.getLsbD 0 = decide (s.phase ≠ .idle) ∧ t.busData.getLsbD 1 = s.done ∧
      t.busData.getLsbD 3 = s.werr ∧ t.busData.getLsbD 4 = s.lock ∧ t.busData.extractLsb' 10 6 = BitVec.ofNat 6 s.k ∧
      t.busData.getLsbD 7 = false ∧ t.busData.extractLsb' 28 4 = 0) ∧
    (s.phase = .idle → s.done = true → step s = .next
      { s with inbox := rest, busData := statusWord s, reads := s.reads + 1, settled := true })

/-! ## Reset -/

/-- R33, R321, R322: every word of the window in the state after power-on. -/
def Obligations.ResetWindowValues : Prop :=
  ∀ w : WindowWord, windowValue State.reset w =
    if w = .word .status then 0x0F000000
    else if w = .word .param then 0x00A0000A
    else if w = .low .clkPeriod then 0xE826D695
    else if w = .high .clkPeriod then 0x3E412E0B
    else 0

/-- R321: reset, from any state, gives every register its reset value and puts the sequencer in IDLE; the output trace is
kept (R65, R324). That the schedule is kept too is the model's choice (assumption log entry 8). -/
def Obligations.ResetFromAnyState : Prop :=
  ∀ (s : State) (rest : List Event), s.inbox = .reset :: rest →
    ∃ t, step s = .next t ∧
      (∀ w, windowValue t w =
        if w = .word .status then 0x0F000000
        else if w = .word .param then 0x00A0000A
        else if w = .low .clkPeriod then 0xE826D695
        else if w = .high .clkPeriod then 0x3E412E0B
        else 0) ∧
      t.phase = .idle ∧ t.op = 0 ∧ t.k = 0 ∧ t.trace = s.trace ∧ t.inbox = rest

/-! ## Binary64 -/

/-- R15: the operations on every operand. Finite operands: the exact sum, difference, product or quotient rounded to nearest,
ties to even, and its sign; an exact sum of 0 is +0 unless both operands are negative. A zero divisor, infinite operands and
NaNs as IEEE 754 has them. `units` counts units of 2^-1074; bit 63 apart, a pattern's last bit is that of its significand. -/
def Obligations.OperationsRoundToNearestEven : Prop :=
  (∀ x y : F64, IsFinite x → IsFinite y →
    RoundsTo (fadd x y) (units x + units y) 1 ∧
    (units x + units y ≠ 0 → isNegative (fadd x y) = decide (units x + units y < 0)) ∧
    (units x + units y = 0 → fadd x y = if isNegative x && isNegative y then 0x8000000000000000 else 0) ∧
    RoundsTo (fmul x y) (units x * units y) (2 ^ 1074) ∧ isNegative (fmul x y) = (isNegative x != isNegative y) ∧
    (units y ≠ 0 → RoundsTo (fdiv x y) (units x * 2 ^ 1074) (units y) ∧
      isNegative (fdiv x y) = (isNegative x != isNegative y)) ∧
    (units y = 0 → units x ≠ 0 → isInf (fdiv x y) = true ∧
      isNegative (fdiv x y) = (isNegative x != isNegative y)) ∧
    (units y = 0 → units x = 0 → isNaN (fdiv x y) = true)) ∧
  (∀ x y : F64, isInf x = true →
    (IsFinite y → fadd x y = x ∧ fadd y x = x ∧
      (units y ≠ 0 → isInf (fmul x y) = true ∧ isNegative (fmul x y) = (isNegative x != isNegative y) ∧
        fmul y x = fmul x y) ∧
      (units y = 0 → isNaN (fmul x y) = true ∧ isNaN (fmul y x) = true) ∧
      isInf (fdiv x y) = true ∧ isNegative (fdiv x y) = (isNegative x != isNegative y) ∧
      units (fdiv y x) = 0 ∧ isNegative (fdiv y x) = (isNegative x != isNegative y)) ∧
    (isInf y = true → (isNegative x = isNegative y → fadd x y = x) ∧
      (isNegative x ≠ isNegative y → isNaN (fadd x y) = true) ∧
      isInf (fmul x y) = true ∧ isNegative (fmul x y) = (isNegative x != isNegative y) ∧ isNaN (fdiv x y) = true)) ∧
  (∀ x y : F64, isNaN x = true ∨ isNaN y = true →
    isNaN (fadd x y) = true ∧ isNaN (fmul x y) = true ∧ isNaN (fdiv x y) = true) ∧
  (∀ x y : F64, fsub x y = fadd x (y ^^^ 0x8000000000000000))

/-- R15, R16: `i2f` is exact for |n| <= 2^53; `rne` gives a nearest integer, and at an exact half the even one. -/
def Obligations.IntegerConversions : Prop :=
  (∀ n : Int, n.natAbs ≤ 2 ^ 53 → units (i2f n) = n * 2 ^ 1074 ∧ isNaN (i2f n) = false ∧ isInf (i2f n) = false) ∧
  (∀ (q : F64) (n : Int), isNaN q = false → isInf q = false →
    (rne q * 2 ^ 1074 - units q).natAbs ≤ (n * 2 ^ 1074 - units q).natAbs ∧
    ((rne q * 2 ^ 1074 - units q).natAbs = (n * 2 ^ 1074 - units q).natAbs → n = rne q ∨ rne q % 2 = 0))

/-! ## The cycle quantizer -/

/-- R133: a command that reads CLK_PERIOD checks it before anything else; at a valid period no command ends with
InvalidClockConfigError. -/
def Obligations.PeriodCheckedFirst : Prop :=
  (∀ (s : State) (i : Instr), i ∈ ([.quant, .cyc2sec] ++ buildingCommands) → ¬ PeriodOk s.clkPeriod →
    exec i s = .next (endedWithError 0x15 15 0 s)) ∧
  (∀ (s t : State) (i : Instr), PeriodOk s.clkPeriod → s.regs.errCode = 0 → exec i s = .next t → t.regs.errCode ≠ 0x15)

/-- R131: QUANT of a time it accepts: RESULT is the cycle count, and nothing else changes but the completion. -/
def Obligations.QuantResult : Prop :=
  ∀ s : State, PeriodOk s.clkPeriod → Quantizable s.clkPeriod s.opA →
    ∃ r : DWord, (r.toNat : Int) = rne (fdiv s.opA s.clkPeriod) ∧
      exec .quant s = .next (endedWith { s.regs with result := r } s)

/-- R130, R131, R48: the errors of QUANT, in the order of the rule. -/
def Obligations.QuantErrors : Prop :=
  ∀ s : State, PeriodOk s.clkPeriod → ¬ Quantizable s.clkPeriod s.opA →
    exec .quant s = .next (
      if flt s.opA 0 then endedWithError 0x01 15 0 s
      else if isNaN s.opA then endedWithError 0x14 15 0 s
      else endedWithError 0x02 15 (fmul 0x41EFFFFFFFE00000 s.clkPeriod) s)

/-- R132: CYC2SEC at a valid period. -/
def Obligations.Cyc2secResult : Prop :=
  ∀ s : State, PeriodOk s.clkPeriod →
    exec .cyc2sec s =
      .next (endedWith { s.regs with result := fmul (i2f ((s.opA.extractLsb' 0 32).toNat : Int)) s.clkPeriod } s)

/-- Quantization is monotone: the spec's own inference from R130 (its sentence is in R137). -/
def Obligations.QuantizeMonotone : Prop :=
  ∀ (p x y : F64) (cx cy : Int), PeriodOk p → fle 0 x = true → fle x y = true →
    quantize p x 15 = .ok cx → quantize p y 15 = .ok cy → cx ≤ cy

/-- Both zeros quantize to 0: the spec's own inference from R130 (its sentence is in R138). -/
def Obligations.QuantizeZero : Prop :=
  ∀ (p : F64) (chan : BitVec 4), PeriodOk p →
    quantize p 0x0000000000000000 chan = .ok 0 ∧ quantize p 0x8000000000000000 chan = .ok 0

/-- Converting a quantized time back gives the time again, within one clock period: the spec's own inference from R130 and
R132 (its sentence is in R136). The product is taken to be finite: at a period near the largest binary64 value it may not be
(R132, assumption log entry 12). -/
def Obligations.QuantizeRoundTrip : Prop :=
  ∀ (p x : F64) (c : Int), PeriodOk p → quantize p x 15 = .ok c → isInf (fmul (i2f c) p) = false →
    (units (fmul (i2f c) p) - units x).natAbs ≤ magUnits p

/-! ## The register map -/

/-- R154, R151, R153: REGIDX of a channel 1..10: RESULT is the register's address and index; of any other channel number:
the range error. -/
def Obligations.RegidxResult : Prop :=
  ∀ (s : State) (c : Nat), c = (s.opA.extractLsb' 0 8).toNat →
    (1 ≤ c → c ≤ 10 → ∃ r : DWord,
      (r.extractLsb' 0 32).toNat = 4 * (c - 1) + 2 * (s.opA.getLsbD 8).toNat + (s.opA.getLsbD 9).toNat ∧
      (r.extractLsb' 32 32).toNat = 4 * (r.extractLsb' 0 32).toNat ∧
      exec .regidx s = .next (endedWith { s.regs with result := r } s)) ∧
    (c = 0 ∨ 10 < c → exec .regidx s = .next (endedWithError 0x11 15 0 s))

/-- R155: REGADDR: the address of an index 0..41, and the range error of every other index. -/
def Obligations.RegaddrResult : Prop :=
  ∀ s : State,
    (s.opA.toNat ≤ 41 → ∃ r : DWord, r.toNat = 4 * s.opA.toNat ∧
      exec .regaddr s = .next (endedWith { s.regs with result := r } s)) ∧
    (41 < s.opA.toNat → exec .regaddr s = .next (endedWithError 0x10 15 0 s))

/-! ## The window validator -/

/-- R171 to R176: VALIDATE, with the repetition rate `r` it uses: Disabled, Enabled, or the first ordering error; without
one, InvalidRepRateError. -/
def Obligations.ValidateResult : Prop :=
  (∀ (s : State) (start stop r : Int), start = s.opA.toInt → stop = s.opB.toInt →
    ((0 < s.opC.toInt ∧ r = s.opC.toInt) ∨
      (s.opC.toInt ≤ 0 ∧ s.regs.latchValid = true ∧ r = (s.regs.latchRep.toNat : Int))) →
    exec .validate s = .next (
      if (r < stop ∧ r < start) ∨ (stop < 0 ∧ start < 0) then
        endedWith { s.regs with cls := 0b01, result := BitVec.ofInt 64 r } s
      else if r < start then endedWithError 0x04 15 0 s
      else if r < stop then endedWithError 0x05 15 0 s
      else if stop < start then endedWithError 0x06 15 0 s
      else if stop = start then endedWithError 0x07 15 0 s
      else endedWith { s.regs with cls := 0b10, result := BitVec.ofInt 64 r } s)) ∧
  (∀ s : State, s.opC.toInt ≤ 0 → s.regs.latchValid = false →
    exec .validate s = .next (endedWithError 0x03 15 0 s))

/-! ## The waveform modes and BUILD -/

/-- R191, R194 to R196: SYNC of operands whose windows the builder accepts. -/
def Obligations.SyncStartsEmission : Prop :=
  ∀ (s : State) (w : Vector Window 10), PeriodOk s.clkPeriod → CommonOk s →
    (∀ k : Fin 10,
      let db := if s.param.getLsbD 9 then s.delayBegin[k] else 0
      let de := if s.param.getLsbD 10 then s.delayEnd[k] else db
      w[k] = if k.val < (s.param.extractLsb' 0 4).toNat then
          ⟨fadd (fsub s.repRate s.pulseLen) db, fadd s.repRate de⟩
        else ⟨fadd s.repRate 0x4000000000000000, fadd s.repRate 0x4000000000000000⟩) →
    ProgramAccepted s.clkPeriod s.repRate s.deadTime w →
    exec .sync s = .next (startedEmission w (programOf s.clkPeriod s.repRate s.deadTime w) s)

/-- R191, R200 to R202: DELTA of operands whose windows the builder accepts. -/
def Obligations.DeltaStartsEmission : Prop :=
  ∀ (s : State) (w : Vector Window 10) (n : Nat) (change : F64), PeriodOk s.clkPeriod → CommonOk s →
    n = (s.param.extractLsb' 0 4).toNat →
    change = (if s.param.getLsbD 8 then s.auxTime else fmul s.pulseLen 0x3FE0000000000000) →
    (∀ i : Fin 10,
      let stop := fsub s.repRate (fmul change (i2f ((n : Int) - i.val - 1)))
      w[i] = if i.val < n then ⟨fsub (fsub stop s.pulseLen) (fmul (i2f (2 * (i.val : Int))) change), stop⟩
        else ⟨fadd s.repRate 0x4000000000000000, fadd s.repRate 0x4000000000000000⟩) →
    ProgramAccepted s.clkPeriod s.repRate s.deadTime w →
    exec .delta s = .next (startedEmission w (programOf s.clkPeriod s.repRate s.deadTime w) s)

/-- R191, R205 to R207: ONE of a channel 1..9 whose windows the builder accepts. -/
def Obligations.OneStartsEmission : Prop :=
  ∀ (s : State) (w : Vector Window 10) (ch : Nat), PeriodOk s.clkPeriod →
    ch = (s.param.extractLsb' 4 4).toNat → 0 < ch → ch < 10 →
    (∀ k : Fin 10, w[k] = if k.val + 1 = ch then ⟨fsub s.repRate s.pulseLen, s.repRate⟩
      else ⟨fadd s.repRate 0x4000000000000000, fadd s.repRate 0x4000000000000000⟩) →
    ProgramAccepted s.clkPeriod s.repRate s.deadTime w →
    exec .one s = .next (startedEmission w (programOf s.clkPeriod s.repRate s.deadTime w) s)

/-- R191, R215 to R217: SEQ of operands whose windows the builder accepts. -/
def Obligations.SeqStartsEmission : Prop :=
  ∀ (s : State) (w : Vector Window 10) (n : Nat) (tb : F64), PeriodOk s.clkPeriod → CommonOk s →
    n = (s.param.extractLsb' 0 4).toNat →
    tb = (if s.param.getLsbD 8 then s.auxTime else s.pulseLen) →
    (∀ i : Fin 10,
      let j : Int := (n : Int) - i.val
      let base := fsub s.repRate (fmul tb (i2f (j - 1)))
      w[i] = if i.val < n then
          ⟨fsub base (fmul s.pulseLen (i2f j)), fsub base (fmul s.pulseLen (i2f (j - 1)))⟩
        else ⟨fadd s.repRate 0x4000000000000000, fadd s.repRate 0x4000000000000000⟩) →
    ProgramAccepted s.clkPeriod s.repRate s.deadTime w →
    exec .seq s = .next (startedEmission w (programOf s.clkPeriod s.repRate s.deadTime w) s)

/-- R253, R248: BUILD of ten windows that the builder accepts; the window buffer keeps its values. -/
def Obligations.BuildStartsEmission : Prop :=
  ∀ (s : State) (w : Vector Window 10), PeriodOk s.clkPeriod → (s.param.extractLsb' 20 4).toNat = 10 →
    (∀ k : Fin 10, w[k] = ⟨s.regs.winStart[k], s.regs.winStop[k]⟩) →
    ProgramAccepted s.clkPeriod s.repRate s.deadTime w →
    exec .build s = .next (startedEmission w (programOf s.clkPeriod s.repRate s.deadTime w) s) ∧
    (startedEmission w (programOf s.clkPeriod s.repRate s.deadTime w) s).regs.winStart = s.regs.winStart ∧
    (startedEmission w (programOf s.clkPeriod s.repRate s.deadTime w) s).regs.winStop = s.regs.winStop

/-- R193, R285: the errors of CheckCommon in SYNC, DELTA and SEQ, `delay_begin` first; `k` is the first entry above 0. -/
def Obligations.CommonCheckErrors : Prop :=
  ∀ (s : State) (i : Instr) (n : Nat), i ∈ [Instr.sync, .delta, .seq] → PeriodOk s.clkPeriod →
    n = (s.param.extractLsb' 0 4).toNat →
    (10 < n → exec i s = .next (endedWithError 0x08 15 0 s)) ∧
    (n ≤ 10 → s.param.getLsbD 9 = true → (s.param.extractLsb' 12 4).toNat ≠ n →
      exec i s = .next (endedWithError 0x12 15 0 s)) ∧
    (n ≤ 10 → s.param.getLsbD 9 = true → (s.param.extractLsb' 12 4).toNat = n → ∀ k : Fin 10, k.val < n →
      (∀ j : Fin 10, j < k → fle s.delayBegin[j] 0 = true) → fle s.delayBegin[k] 0 = false →
      exec i s = .next (endedWithError 0x13 (BitVec.ofNat 4 k.val) 0 s)) ∧
    (n ≤ 10 → DelaysOk (s.param.getLsbD 9) (s.param.extractLsb' 12 4).toNat n s.delayBegin →
      s.param.getLsbD 10 = true → (s.param.extractLsb' 16 4).toNat ≠ n →
      exec i s = .next (endedWithError 0x12 15 1 s)) ∧
    (n ≤ 10 → DelaysOk (s.param.getLsbD 9) (s.param.extractLsb' 12 4).toNat n s.delayBegin →
      s.param.getLsbD 10 = true → (s.param.extractLsb' 16 4).toNat = n → ∀ k : Fin 10, k.val < n →
      (∀ j : Fin 10, j < k → fle s.delayEnd[j] 0 = true) → fle s.delayEnd[k] 0 = false →
      exec i s = .next (endedWithError 0x13 (BitVec.ofNat 4 k.val) 1 s))

/-- R205: ONE refuses channel 0 and the channels from 10 on. -/
def Obligations.OneChannelRange : Prop :=
  ∀ s : State, PeriodOk s.clkPeriod →
    ((s.param.extractLsb' 4 4).toNat = 0 ∨ 10 ≤ (s.param.extractLsb' 4 4).toNat) →
    exec .one s = .next (endedWithError 0x11 15 0 s)

/-- R231 to R234, R285, and R191, R196, R202, R207, R217 for the modes: the errors of the builder's steps 1 to 3, in order, as
each program-building command reports them once its own checks pass. Only BUILD can give the builder another count than
ten. -/
def Obligations.BuildEarlyErrors : Prop :=
  (∀ s : State, PeriodOk s.clkPeriod →
    (10 < (s.param.extractLsb' 20 4).toNat → exec .build s = .next (endedWithError 0x08 15 0 s)) ∧
    ((s.param.extractLsb' 20 4).toNat < 10 → exec .build s = .next (endedWithError 0x09 15 0 s))) ∧
  (∀ (s : State) (c : Instr), c ∈ buildingCommands → PeriodOk s.clkPeriod → OperandsPass c s →
    ¬ TimesPass s.clkPeriod s.repRate s.deadTime →
    exec c s = .next (
      if flt s.repRate 0 then endedWithError 0x01 15 0 s
      else if isNaN s.repRate then endedWithError 0x14 15 0 s
      else if ¬ Quantizable s.clkPeriod s.repRate then
        endedWithError 0x02 15 (fmul 0x41EFFFFFFFE00000 s.clkPeriod) s
      else if cycles s.clkPeriod s.repRate = 0 then endedWithError 0x03 15 0 s
      else if flt s.deadTime 0 then endedWithError 0x01 15 0 s
      else if isNaN s.deadTime then endedWithError 0x14 15 0 s
      else if ¬ Quantizable s.clkPeriod s.deadTime then
        endedWithError 0x02 15 (fmul 0x41EFFFFFFFE00000 s.clkPeriod) s
      else endedWithError 0x0A 15 0 s))

/-- R237, R238, R241, R242, R244, R245, R285, and R191, R196, R202, R207, R217 for the modes: past steps 1 to 3, every
program-building command reports the first slot that fails, with the first of its checks that fails; and when all ten pass,
the error of the charge window, on channel 10. An overflow of `Quantize` comes only where the stop is a NaN, a case that
R239's inference leaves out (assumption log entry 12). -/
def Obligations.BuildReportsFirstBadSlot : Prop :=
  ∀ (s : State) (c : Instr) (w : Vector Window 10), c ∈ buildingCommands → PeriodOk s.clkPeriod → OperandsPass c s →
    (∀ k : Fin 10, w[k] = givenWindow c s k) → TimesPass s.clkPeriod s.repRate s.deadTime →
    (∀ i : Fin 10, (∀ j : Fin 10, j < i → SlotOk s.clkPeriod s.repRate w[j]) →
      let chan := BitVec.ofNat 4 i.val
      (SlotOff s.repRate w[i] → 4294967295 < cycles s.clkPeriod s.repRate + 2 →
        ∃ info : DWord, (info.toNat : Int) = cycles s.clkPeriod s.repRate ∧
          exec c s = .next (endedWithError 0x02 chan info s)) ∧
      (¬ SlotOff s.repRate w[i] → ¬ SlotAccepted s.clkPeriod s.repRate w[i] →
        exec c s = .next (
          if flt (fsub w[i].stop w[i].start) s.clkPeriod then endedWithError 0x0B chan 0 s
          else if flt s.repRate w[i].stop ∧ fle w[i].start s.repRate then endedWithError 0x0C chan 0 s
          else if flt w[i].start (fdiv s.repRate 0x4000000000000000) then endedWithError 0x0D chan 0 s
          else if isNaN w[i].start then endedWithError 0x14 chan 0 s
          else if ¬ Quantizable s.clkPeriod w[i].start then
            endedWithError 0x02 chan (fmul 0x41EFFFFFFFE00000 s.clkPeriod) s
          else if isNaN w[i].stop then endedWithError 0x14 chan 0 s
          else endedWithError 0x07 chan 0 s))) ∧
    ((∀ i : Fin 10, SlotOk s.clkPeriod s.repRate w[i]) →
      let repC := cycles s.clkPeriod s.repRate
      let deadC := cycles s.clkPeriod s.deadTime
      let firstC := cycles s.clkPeriod (earliestStart s.repRate w)
      (repC < deadC → exec c s = .next (endedWithError 0x04 10 0 s)) ∧
      (deadC ≤ repC → firstC < 2 * deadC → exec c s = .next (endedWithError 0x06 10 0 s)) ∧
      (deadC ≤ repC → firstC = 2 * deadC → exec c s = .next (endedWithError 0x07 10 0 s)))

/-- R230 to R245, R254: the builder returns a program exactly for the windows that the rules accept, that program, and
whatever the latched repetition rate is. -/
def Obligations.BuildAcceptsExactly : Prop :=
  ∀ (p rep dead : F64) (latch : Option Int) (w : Vector Window 10) (g : Program), PeriodOk p →
    (buildProgram p latch w 10 dead rep = .ok g ↔ ProgramAccepted p rep dead w ∧ g = programOf p rep dead w)

/-- The charge window of a program that passes, and the earliest start it is measured from: the spec's own inference from
R237, R238 and R244 (its sentence is in R246). -/
def Obligations.ChargeWindowValues : Prop :=
  ∀ (p rep dead : F64) (latch : Option Int) (w : Vector Window 10) (g : Program), PeriodOk p →
    buildProgram p latch w 10 dead rep = .ok g →
    0 ≤ g.cs ∧ g.cs < g.ct ∧ g.ct ≤ g.repC ∧
    ∃ firstC : Int, quantize p (earliestStart rep w) 10 = .ok firstC ∧ g.cs = g.deadC ∧ g.ct = firstC - g.deadC ∧
      ((∀ i : Fin 10, SlotOff rep w[i]) → firstC = g.repC) ∧
      ((∃ i : Fin 10, ¬ SlotOff rep w[i]) →
        (∃ i : Fin 10, ¬ SlotOff rep w[i] ∧ g.ps[i] = firstC) ∧
        ∀ i : Fin 10, ¬ SlotOff rep w[i] → firstC ≤ g.ps[i])

/-- StartAfterStopError and InternalInvariantError are never reported: the spec's own inference (its sentences are in R239 and
R247, U4 and U5). -/
def Obligations.UnreachableErrors : Prop :=
  ∀ (s t : State) (i : Instr), s.regs.errCode = 0 → exec i s = .next t →
    t.regs.errCode ≠ 0x0E ∧ t.regs.errCode ≠ 0x0F

/-- Two program-building runs with the same operand registers end alike, with the same program or the same error: the spec's
own inference from R230 to R249 (its sentence is in R254). -/
def Obligations.SameOperandsSameProgram : Prop :=
  ∀ (s s' t t' : State) (i : Instr), i ∈ buildingCommands →
    s'.clkPeriod = s.clkPeriod → s'.repRate = s.repRate → s'.deadTime = s.deadTime → s'.pulseLen = s.pulseLen →
    s'.auxTime = s.auxTime → s'.param = s.param → s'.delayBegin = s.delayBegin → s'.delayEnd = s.delayEnd →
    s'.regs.winStart = s.regs.winStart → s'.regs.winStop = s.regs.winStop →
    exec i s = .next t → exec i s' = .next t' →
    t'.phase = t.phase ∧
    (t.phase = .emit → t'.regs.prog = t.regs.prog ∧ t'.regs.winStart = t.regs.winStart ∧
      t'.regs.winStop = t.regs.winStop) ∧
    (t.phase = .idle → t'.regs.errCode = t.regs.errCode ∧ t'.regs.errChan = t.regs.errChan ∧
      t'.regs.errInfo = t.regs.errInfo)

/-! ## Frames -/

/-- R47, R131, R132, R154, R155, R176, R281: what QUANT, CYC2SEC, VALIDATE, REGIDX and REGADDR may change: RESULT, CLASS
and the error report; every other register, the shadow, the latch, the window buffer and the output trace stay. -/
def Obligations.PlainCommandsFrame : Prop :=
  ∀ (s t : State) (i : Instr), i ∈ plainCommands → exec i s = .next t →
    t = { s with
      done := true, phase := .idle
      regs := { s.regs with
        result := t.regs.result, errInfo := t.regs.errInfo, err := t.regs.err, errCode := t.regs.errCode
        errChan := t.regs.errChan, cls := t.regs.cls } } ∧
    (i ≠ .validate → t.regs.cls = s.regs.cls)

/-- R47, R51, R52, R97, R191, R253: what SYNC, DELTA, ONE, SEQ and BUILD may change in their COMPUTE step: the window buffer
(BUILD not even that), the program shadow, the error report and the sequencer; RESULT, the latch, the operand registers
and the output trace stay. -/
def Obligations.BuildingCommandsFrame : Prop :=
  ∀ (s t : State) (i : Instr), i ∈ buildingCommands → exec i s = .next t →
    t = { s with
      done := t.done, phase := t.phase, k := t.k
      regs := { s.regs with
        errInfo := t.regs.errInfo, err := t.regs.err, errCode := t.regs.errCode, errChan := t.regs.errChan
        winStart := t.regs.winStart, winStop := t.regs.winStop, prog := t.regs.prog, progValid := t.regs.progValid } } ∧
    (i = .build → t.regs.winStart = s.regs.winStart ∧ t.regs.winStop = s.regs.winStop)

/-- R281, R292: a command that ends with an error has changed only DONE, ERR, ERR_CODE, ERR_CHAN and ERR_INFO, the engine is
idle, and the code is one of R280. -/
def Obligations.ErrorsChangeOnlyTheReport : Prop :=
  ∀ (s t : State) (i : Instr), exec i s = .next t → s.regs.err = false → t.regs.err = true →
    t = endedWithError t.regs.errCode t.regs.errChan t.regs.errInfo s ∧
    1 ≤ t.regs.errCode.toNat ∧ t.regs.errCode.toNat ≤ 0x16

/-! ## Emission -/

/-- R249: the write sequence. -/
def Obligations.WriteSequenceTable : Prop :=
  ∀ (g : Shadow) (i : Fin 10),
    seqWrite g 0 = (40, g.ioInit) ∧ seqWrite g 1 = (41, g.repCyc) ∧
    seqWrite g (2 + 4 * i.val) = (4 * i.val, g.pulseStart[i]) ∧
    seqWrite g (3 + 4 * i.val) = (4 * i.val + 1, g.pulseStop[i]) ∧
    seqWrite g (4 + 4 * i.val) = (4 * i.val + 2, g.chgStart) ∧
    seqWrite g (5 + 4 * i.val) = (4 * i.val + 3, g.chgStop)

/-- R95, R251, R252: an EMIT step offers write `st.k`. Not accepted, it is held, and nothing else changes; accepted, it is in
the trace, and the one that completes write 41 also latches the repetition rate and ends the command. Whose turn it is and
what the downstream answers are the model's own fields, `inbox` and `downstream` (assumption log entries 1 and 10). -/
def Obligations.EmitStepIssuesOneWrite : Prop :=
  ∀ s u : State, EngineTurn s u → s.phase = .emit → s.k < 42 →
    let accepts := s.downstream.answers.headD s.downstream.afterwards
    let next : Downstream := ⟨s.downstream.answers.tail, s.downstream.afterwards⟩
    (accepts = false → step s = .next { u with downstream := next }) ∧
    (accepts = true → s.k < 41 → step s = .next { u with
      trace := s.trace ++ [(BitVec.ofNat 32 ((seqWrite s.regs.prog s.k).1 * 4), (seqWrite s.regs.prog s.k).2)]
      k := s.k + 1, downstream := next }) ∧
    (accepts = true → s.k = 41 → step s = .next { u with
      trace := s.trace ++ [(BitVec.ofNat 32 ((seqWrite s.regs.prog 41).1 * 4), (seqWrite s.regs.prog 41).2)]
      k := 42, phase := .idle, done := true, downstream := next
      regs := { s.regs with latchRep := s.regs.prog.repCyc, latchValid := true } })

/-- R61, R62, R95, R96, R251, R252, R333, R334: what `m` engine steps of an emission come to, whatever the downstream answers:
the next writes of the sequence, in order, as many as it accepted; once it has accepted all 42, the command has ended. That
with nothing scheduled every step is the engine's is the model's choice (assumption log entry 1); the downstream's answers
are a field of the state (assumption log entry 10). -/
def Obligations.EmissionIsTheSequence : Prop :=
  ∀ (s : State) (m : Nat), s.phase = .emit → s.k < 42 → s.inbox = [] →
    let accepted := acceptedOffers s.downstream m
    let remaining := (sequencePrefix s.regs.prog 42).drop s.k
    (accepted < 42 - s.k → Host.Core.run Sys2Proof.core m s = .next { s with
      trace := s.trace ++ remaining.take accepted
      k := s.k + accepted
      downstream := ⟨s.downstream.answers.drop m, s.downstream.afterwards⟩ }) ∧
    (42 - s.k ≤ accepted → ∃ d, Host.Core.run Sys2Proof.core m s = .next { s with
      trace := s.trace ++ remaining
      k := 42, phase := .idle, done := true, downstream := d
      regs := { s.regs with latchRep := s.regs.prog.repCyc, latchValid := true } })

/-- R95, R333, U9: a downstream that never accepts again keeps the block in EMIT, BUSY, with the same write held, through
every step but a reset, whatever the host does; the run that nobody disturbs has no end. -/
def Obligations.StalledDownstreamHoldsEmit : Prop :=
  ∀ s : State, s.phase = .emit → s.downstream = ⟨[], false⟩ →
    (∀ t, s.inbox.head? ≠ some .reset → step s = .next t →
      t.phase = .emit ∧ t.downstream = ⟨[], false⟩ ∧ heldWrite t = heldWrite s ∧ t.k = s.k ∧ t.regs = s.regs ∧
      t.trace = s.trace) ∧
    (s.inbox = [] → ∀ m, Host.Core.run Sys2Proof.core m s = .next s)

/-- R323: a reset after `m` engine steps, of whose writes the downstream accepted at most 41, leaves the accepted ones in the
trace and no later one, and no latched rate. (Assumption log entries 1 and 10 say what `inbox` and `downstream` are.) -/
def Obligations.ResetCutsEmissionShort : Prop :=
  ∀ (s : State) (m : Nat), s.phase = .emit → s.k = 0 → acceptedOffers s.downstream m ≤ 41 →
    s.inbox = List.replicate m .engine ++ [.reset] →
    ∃ t, Host.Core.run Sys2Proof.core (m + 1) s = .next t ∧
      t.trace = s.trace ++ sequencePrefix s.regs.prog (acceptedOffers s.downstream m) ∧
      t.regs.latchValid = false ∧ t.phase = .idle ∧ t.k = 0

/-- R61, R91, R121, R291, R333, R334: a host that writes a command word to CMD, legal or not, and waits, as its `run` does: the
command completes its COMPUTE step; and it ends with the command complete and every effect of it visible, given, for a command
that builds a program, that the downstream goes on to accept 42 writes. That the engine takes one step between two reads of
the loop is the model's choice (assumption log entry 11). -/
def Obligations.HostRunCompletes : Prop :=
  ∀ (s : State) (w : Word), s.phase = .idle →
    (s.inbox = assemble [.wr (.word .cmd) w, .wait] ∨ ∃ i, w = encode i ∧ s.inbox = assemble [.run i]) →
    (∃ t, Host.Core.run Sys2Proof.core 3 s = .next t ∧ t.op = w ∧ t.phase ≠ .compute) ∧
    (((∃ i ∈ buildingCommands, w = encode i) → AcceptsWrites s.downstream 42) →
      ∃ n t, Host.Core.run Sys2Proof.core n s = .next t ∧ t.phase = .idle ∧ t.done = true ∧ t.settled = true ∧
        t.op = w ∧ t.inbox = [])

/-! ## Invariants and whole-machine rules -/

/-- R33, R321: the state after reset is a legal one. -/
def Obligations.ResetStateOk : Prop := StateOk State.reset ∧ EmissionOk State.reset

/-- R35, R43, R50, R51, R53, R60, R61: every step keeps the legal states. -/
def Obligations.StepKeepsStateOk : Prop :=
  ∀ s t : State, StateOk s → step s = .next t → StateOk t

/-- R96, R97, R249, R250: every step keeps the trace of an emission equal to the sequence of the program in the shadow. -/
def Obligations.StepKeepsEmissionOk : Prop :=
  ∀ s t : State, EmissionOk s → step s = .next t → EmissionOk t

/-- R65, R96, R152: the trace is only ever extended, by at most one write a step, only in EMIT, and only by a write to one of
the pulse generator's 42 registers (the spec's own inference, in R98). -/
def Obligations.TraceGrowsOnlyInEmit : Prop :=
  ∀ s t : State, step s = .next t →
    t.trace = s.trace ∨
    (s.phase = .emit ∧ ∃ (idx : Fin 42) (v : Word), t.trace = s.trace ++ [(BitVec.ofNat 32 (idx.val * 4), v)])

/-- R52, R53, R252: the latch changes only in the step that completes write 41, or by reset. -/
def Obligations.LatchChangesOnlyAtEnd : Prop :=
  ∀ s t : State, step s = .next t → s.inbox.head? ≠ some .reset →
    (t.regs.latchRep = s.regs.latchRep ∧ t.regs.latchValid = s.regs.latchValid) ∨
    (s.phase = .emit ∧ s.k = 41 ∧ t.regs.latchRep = s.regs.prog.repCyc ∧ t.regs.latchValid = true)

/-- R38, R54, R94: while BUSY, no step but reset changes an operand register; once LOCK = 1, none changes CLK_PERIOD or
LOCK. -/
def Obligations.RegistersHeldUntilReset : Prop :=
  ∀ s t : State, step s = .next t → s.inbox.head? ≠ some .reset →
    (s.phase ≠ .idle →
      t.clkPeriod = s.clkPeriod ∧ t.repRate = s.repRate ∧ t.deadTime = s.deadTime ∧ t.pulseLen = s.pulseLen ∧
      t.auxTime = s.auxTime ∧ t.param = s.param ∧ t.delayBegin = s.delayBegin ∧ t.delayEnd = s.delayEnd ∧
      t.opA = s.opA ∧ t.opB = s.opB ∧ t.opC = s.opC) ∧
    (s.lock = true → t.lock = true ∧ t.clkPeriod = s.clkPeriod)

/-- R81 and the model's choice of what stops a run (assumption log entry 4): a step faults exactly on a host access of
another width or alignment, and no step is refused. -/
def Obligations.OnlyIllFormedAccessesStop : Prop :=
  ∀ s : State,
    ((∃ f, step s = .fault f) ↔ ∃ e, s.inbox.head? = some e ∧ e.wellFormed = false) ∧
    (∀ r, step s ≠ .refused r)
end

