-- ==== Sys2Proof/Laws/Binary64.lean ====
section
/-!
SUPPORT. The facts about binary64 arithmetic that the laws of the commands rest on: what a pattern's magnitude is, that
rounding to nearest is monotone and picks a nearest value, and how the sign and class of a packed pattern read back.
-/

namespace Sys2Proof.Machine

/-- The magnitude, in units of 2^-1074, that a 63-bit magnitude pattern stands for. -/
def magOfPattern (n : Nat) : Nat :=
  if n / 2 ^ 52 = 0 then n % 2 ^ 52 else (2 ^ 52 + n % 2 ^ 52) * 2 ^ (n / 2 ^ 52 - 1)

theorem expBits_eq (x : F64) : expBits x = x.toNat % 2 ^ 63 / 2 ^ 52 := by
  simp only [expBits, BitVec.extractLsb'_toNat, Nat.shiftRight_eq_div_pow]
  omega

theorem fracBits_eq (x : F64) : fracBits x = x.toNat % 2 ^ 63 % 2 ^ 52 := by
  simp only [fracBits, BitVec.extractLsb'_toNat, Nat.shiftRight_zero]
  omega

theorem magUnits_eq (x : F64) : magUnits x = magOfPattern (x.toNat % 2 ^ 63) := by
  simp only [magUnits, magOfPattern, expBits_eq, fracBits_eq]

/-- A significand `m` in steps of `2^k` units has the pattern `m + k * 2^52`, a significand of 2^53 included. -/
theorem magOfPattern_add (m k : Nat) (hm : m ≤ 2 ^ 53) (hk : k = 0 ∨ 2 ^ 52 ≤ m) :
    magOfPattern (m + k * 2 ^ 52) = m * 2 ^ k := by
  rcases Nat.lt_or_ge m (2 ^ 52) with h | h
  · have hk0 : k = 0 := by rcases hk with h' | h' <;> omega
    subst hk0
    have h1 : (m + 0 * 2 ^ 52) / 2 ^ 52 = 0 := by omega
    have h2 : (m + 0 * 2 ^ 52) % 2 ^ 52 = m := by omega
    simp only [magOfPattern, h1, h2, if_true, pow_zero, mul_one]
  · rcases Nat.lt_or_ge m (2 ^ 53) with h' | h'
    · have h1 : (m + k * 2 ^ 52) / 2 ^ 52 = k + 1 := by omega
      have h2 : (m + k * 2 ^ 52) % 2 ^ 52 = m - 2 ^ 52 := by omega
      have h3 : 2 ^ 52 + (m - 2 ^ 52) = m := by omega
      simp only [magOfPattern, h1, h2, h3, Nat.add_sub_cancel, Nat.add_one_ne_zero, if_false]
    · have hm' : m = 2 ^ 53 := by omega
      subst hm'
      have h1 : (2 ^ 53 + k * 2 ^ 52) / 2 ^ 52 = k + 2 := by omega
      have h2 : (2 ^ 53 + k * 2 ^ 52) % 2 ^ 52 = 0 := by omega
      have h3 : k + 2 - 1 = k + 1 := by omega
      have h4 : k + 2 ≠ 0 := by omega
      simp only [magOfPattern, h1, h2, h3, h4, if_false, Nat.add_zero]
      rw [pow_succ 2 k]
      omega

/-- Every pattern is a significand and a step. -/
theorem pattern_split (n : Nat) :
    ∃ m k, n = m + k * 2 ^ 52 ∧ m < 2 ^ 53 ∧ (k = 0 ∨ 2 ^ 52 ≤ m) ∧ magOfPattern n = m * 2 ^ k := by
  rcases Nat.eq_zero_or_pos (n / 2 ^ 52) with h | h
  · refine ⟨n, 0, by omega, by omega, .inl rfl, ?_⟩
    simpa using magOfPattern_add n 0 (by omega) (.inl rfl)
  · refine ⟨2 ^ 52 + n % 2 ^ 52, n / 2 ^ 52 - 1, by omega, by omega, .inr (by omega), ?_⟩
    rw [← magOfPattern_add _ _ (by omega) (.inr (by omega))]
    congr 1
    omega

theorem magOfPattern_lt_succ (n : Nat) : magOfPattern n < magOfPattern (n + 1) := by
  obtain ⟨m, k, rfl, hm, hk, hv⟩ := pattern_split n
  have h2 : magOfPattern (m + k * 2 ^ 52 + 1) = (m + 1) * 2 ^ k := by
    rw [← magOfPattern_add (m + 1) k (by omega) (by omega)]
    congr 1
    omega
  rw [hv, h2]
  exact Nat.mul_lt_mul_of_pos_right (by omega) (by positivity)

theorem magOfPattern_strictMono : StrictMono magOfPattern := strictMono_nat_of_lt_succ magOfPattern_lt_succ

theorem magOfPattern_zero : magOfPattern 0 = 0 := by simp [magOfPattern]

/-- Rounding is within half a step. -/
theorem roundTiesEven_near (num den : Nat) (hd : 0 < den) :
    2 * num ≤ 2 * (roundTiesEven num den * den) + den ∧ 2 * (roundTiesEven num den * den) ≤ 2 * num + den := by
  have h := Nat.div_add_mod num den
  have hr := Nat.mod_lt num hd
  simp only [roundTiesEven]
  rw [mul_comm] at h
  split
  · omega
  · split
    · rw [Nat.add_mul]; omega
    · rcases Nat.mod_two_eq_zero_or_one (num / den) with h2 | h2 <;> rw [h2]
      · simp only [Nat.add_zero]; omega
      · rw [Nat.add_mul]; omega

/-- At an exact half the even neighbour is taken. -/
theorem roundTiesEven_tie (num den : Nat) (h : 2 * (num % den) = den) : roundTiesEven num den % 2 = 0 := by
  simp only [roundTiesEven, h, lt_irrefl, if_false]
  omega

theorem roundTiesEven_floor (num den : Nat) : num / den ≤ roundTiesEven num den ∧ roundTiesEven num den ≤ num / den + 1 := by
  simp only [roundTiesEven]
  split
  · omega
  · split <;> omega

/-- A whole quotient is its own rounding. -/
theorem roundTiesEven_exact (n den : Nat) (hd : 0 < den) : roundTiesEven (n * den) den = n := by
  simp [roundTiesEven, Nat.mul_div_cancel _ hd, hd]

theorem roundTiesEven_mono {a b c d : Nat} (hb : 0 < b) (hd : 0 < d) (h : a * d ≤ c * b) :
    roundTiesEven a b ≤ roundTiesEven c d := by
  have hq : a / b ≤ c / d := by
    rw [Nat.le_div_iff_mul_le hd]
    have h1 : a / b * b ≤ a := Nat.div_mul_le_self a b
    have h2 : a / b * b * d ≤ c * b := le_trans (Nat.mul_le_mul_right d h1) h
    have h3 : a / b * d * b ≤ c * b := by rw [mul_right_comm]; exact h2
    exact Nat.le_of_mul_le_mul_right h3 hb
  rcases Nat.lt_or_ge (a / b) (c / d) with hlt | hge
  · have := roundTiesEven_floor a b
    have := roundTiesEven_floor c d
    omega
  · have heq : a / b = c / d := by omega
    have ha := Nat.div_add_mod a b
    have hc := Nat.div_add_mod c d
    have hrem : a % b * d ≤ c % d * b := by
      have h1 : a * d = b * (a / b) * d + a % b * d := by rw [← Nat.add_mul, ha]
      have h2 : c * b = d * (a / b) * b + c % d * b := by rw [← Nat.add_mul, heq, hc]
      have h3 : b * (a / b) * d = d * (a / b) * b := by ring
      omega
    have hdouble : 2 * (a % b) * d ≤ 2 * (c % d) * b := by
      rw [mul_assoc, mul_assoc]; omega
    simp only [roundTiesEven, ← heq]
    by_cases h1 : 2 * (a % b) < b
    · rw [if_pos h1]
      split
      · exact le_refl _
      · split <;> omega
    · have h2 : ¬ 2 * (c % d) < d := by
        intro hlt
        have : 2 * (c % d) * b < d * b := Nat.mul_lt_mul_of_pos_right hlt hb
        have : b * d ≤ 2 * (a % b) * d := Nat.mul_le_mul_right d (by omega)
        have : b * d = d * b := Nat.mul_comm b d
        omega
      rw [if_neg h1, if_neg h2]
      by_cases h3 : b < 2 * (a % b)
      · have h4 : d < 2 * (c % d) := by
          by_contra hle
          have : 2 * (c % d) * b ≤ d * b := Nat.mul_le_mul_right b (by omega)
          have : b * d < 2 * (a % b) * d := Nat.mul_lt_mul_of_pos_right h3 hd
          have : b * d = d * b := Nat.mul_comm b d
          omega
        rw [if_pos h3, if_pos h4]
      · rw [if_neg h3]
        split <;> omega

/-- The step of the binade that a quotient falls in. -/
def roundStep (num den : Nat) : Nat := Nat.log2 (num / den) - 52

/-- The significand that rounding gives. -/
def roundSig (num den : Nat) : Nat := roundTiesEven num (den * 2 ^ roundStep num den)

theorem roundUnits_eq (num den : Nat) :
    roundUnits num den = min infMag (roundSig num den + roundStep num den * 2 ^ 52) := rfl

theorem roundUnits_le (num den : Nat) : roundUnits num den ≤ infMag := Nat.min_le_left _ _

/-- The quotient lies in the binade of its step. -/
theorem roundStep_bounds (num den : Nat) :
    num / den < 2 ^ (roundStep num den + 53) ∧ (roundStep num den = 0 ∨ 2 ^ (roundStep num den + 52) ≤ num / den) := by
  rcases Nat.lt_or_ge (Nat.log2 (num / den)) 53 with h | h
  · have h0 : roundStep num den = 0 := by simp only [roundStep]; omega
    rw [h0]
    refine ⟨?_, .inl rfl⟩
    exact Nat.lt_of_lt_of_le Nat.lt_log2_self (Nat.pow_le_pow_right (by omega) (by omega))
  · have hk : roundStep num den + 52 = Nat.log2 (num / den) := by simp only [roundStep]; omega
    have hk' : roundStep num den + 53 = Nat.log2 (num / den) + 1 := by omega
    rw [hk, hk']
    refine ⟨Nat.lt_log2_self, .inr (Nat.log2_self_le ?_)⟩
    intro h0
    rw [h0] at h
    simp at h

theorem roundSig_bounds (num den : Nat) :
    roundSig num den ≤ 2 ^ 53 ∧ (roundStep num den = 0 ∨ 2 ^ 52 ≤ roundSig num den) := by
  obtain ⟨h1, h2⟩ := roundStep_bounds num den
  have hf := roundTiesEven_floor num (den * 2 ^ roundStep num den)
  rw [← Nat.div_div_eq_div_mul] at hf
  have hp : 0 < 2 ^ roundStep num den := by positivity
  constructor
  · have : num / den / 2 ^ roundStep num den < 2 ^ 53 := by
      rw [Nat.div_lt_iff_lt_mul hp, ← pow_add, Nat.add_comm]
      exact h1
    simp only [roundSig]
    omega
  · rcases h2 with h2 | h2
    · exact .inl h2
    · right
      have : 2 ^ 52 ≤ num / den / 2 ^ roundStep num den := by
        rw [Nat.le_div_iff_mul_le hp, ← pow_add, Nat.add_comm]
        exact h2
      simp only [roundSig]
      omega

/-- The magnitude of a rounded quotient that is not infinite. -/
theorem magOfPattern_roundUnits (num den : Nat) (h : roundUnits num den < infMag) :
    magOfPattern (roundUnits num den) = roundSig num den * 2 ^ roundStep num den := by
  have hb := roundSig_bounds num den
  rw [roundUnits_eq] at h ⊢
  rw [Nat.min_eq_right (by omega)]
  exact magOfPattern_add _ _ hb.1 hb.2

theorem roundStep_mono {a b c d : Nat} (h : a / b ≤ c / d) : roundStep a b ≤ roundStep c d := by
  have : Nat.log2 (a / b) ≤ Nat.log2 (c / d) := by
    rw [Nat.log2_eq_log_two, Nat.log2_eq_log_two]
    exact Nat.log_mono_right h
  simp only [roundStep]
  omega

theorem roundUnits_mono {a b c d : Nat} (hb : 0 < b) (hd : 0 < d) (h : a * d ≤ c * b) :
    roundUnits a b ≤ roundUnits c d := by
  have hq : a / b ≤ c / d := by
    rw [Nat.le_div_iff_mul_le hd]
    have h2 : a / b * b * d ≤ c * b := le_trans (Nat.mul_le_mul_right d (Nat.div_mul_le_self a b)) h
    have h3 : a / b * d * b ≤ c * b := by rw [mul_right_comm]; exact h2
    exact Nat.le_of_mul_le_mul_right h3 hb
  have hk := roundStep_mono hq
  have h1 := roundSig_bounds a b
  have h2 := roundSig_bounds c d
  rw [roundUnits_eq, roundUnits_eq]
  refine min_le_min_left _ ?_
  rcases Nat.lt_or_ge (roundStep a b) (roundStep c d) with hlt | hge
  · have : 2 ^ 52 ≤ roundSig c d := by omega
    have : (roundStep a b + 1) * 2 ^ 52 ≤ roundStep c d * 2 ^ 52 := Nat.mul_le_mul_right _ hlt
    omega
  · have heq : roundStep a b = roundStep c d := by omega
    have : roundSig a b ≤ roundSig c d := by
      simp only [roundSig, heq]
      apply roundTiesEven_mono (by positivity) (by positivity)
      calc a * (d * 2 ^ roundStep c d) = a * d * 2 ^ roundStep c d := by ring
        _ ≤ c * b * 2 ^ roundStep c d := Nat.mul_le_mul_right _ h
        _ = c * (b * 2 ^ roundStep c d) := by ring
    omega

/-- No integer is nearer to a quotient than its rounding; of two that are as near, the even one is taken. -/
theorem roundTiesEven_nearest (num den j : Nat) (hd : 0 < den) :
    ((roundTiesEven num den * den : Nat) - (num : Nat) : Int).natAbs ≤ ((j * den : Nat) - (num : Nat) : Int).natAbs ∧
      (((roundTiesEven num den * den : Nat) - (num : Nat) : Int).natAbs = ((j * den : Nat) - (num : Nat) : Int).natAbs →
        j = roundTiesEven num den ∨ roundTiesEven num den % 2 = 0) := by
  have hn := roundTiesEven_near num den hd
  generalize hr : roundTiesEven num den = r at hn ⊢
  rcases Nat.lt_trichotomy j r with hlt | rfl | hgt
  · have h1 : (j + 1) * den ≤ r * den := Nat.mul_le_mul_right den hlt
    rw [Nat.add_mul] at h1
    refine ⟨by omega, fun he => .inr ?_⟩
    have h2 : 2 * (r * den) = 2 * num + den := by omega
    rw [← hr]
    apply roundTiesEven_tie
    have h3 := Nat.div_add_mod num den
    have h4 := Nat.mod_lt num hd
    have h5 : (2 * num + den) % (2 * den) = 0 := by
      rw [← h2]; rw [show 2 * (r * den) = r * (2 * den) by ring]; exact Nat.mul_mod_left _ _
    have h6 : 2 * num + den = 2 * den * (num / den) + (2 * (num % den) + den) := by
      have : 2 * num = 2 * (den * (num / den)) + 2 * (num % den) := by omega
      rw [mul_assoc]; omega
    rw [h6, Nat.mul_add_mod] at h5
    obtain ⟨c, hc⟩ := Nat.dvd_of_mod_eq_zero h5
    have hc1 : c = 1 := by
      rcases Nat.lt_trichotomy c 1 with h | h | h
      · have : c = 0 := by omega
        subst this; omega
      · exact h
      · have : 2 * den * 2 ≤ 2 * den * c := Nat.mul_le_mul_left _ h
        omega
    subst hc1; omega
  · exact ⟨le_refl _, fun _ => .inl rfl⟩
  · have h1 : (r + 1) * den ≤ j * den := Nat.mul_le_mul_right den hgt
    rw [Nat.add_mul] at h1
    refine ⟨by omega, fun he => .inr ?_⟩
    have h2 : 2 * (r * den) + den = 2 * num := by omega
    rw [← hr]
    apply roundTiesEven_tie
    have h3 := Nat.div_add_mod num den
    have h4 := Nat.mod_lt num hd
    have h5 : (2 * num) % (2 * den) = den := by
      rw [← h2, show 2 * (r * den) = 2 * den * r by ring, Nat.mul_add_mod, Nat.mod_eq_of_lt (by omega)]
    rw [Nat.mul_mod_mul_left] at h5
    omega

/-- No binary64 magnitude is nearer to a quotient of units than its rounding, and of two that are as near the one with the
even significand is taken (R15, roundTiesEven). -/
theorem roundUnits_nearest (num den n : Nat) (hd : 0 < den) (hf : roundUnits num den < infMag) :
    ((magOfPattern (roundUnits num den) * den : Nat) - (num : Nat) : Int).natAbs ≤
        ((magOfPattern n * den : Nat) - (num : Nat) : Int).natAbs ∧
      (((magOfPattern (roundUnits num den) * den : Nat) - (num : Nat) : Int).natAbs =
          ((magOfPattern n * den : Nat) - (num : Nat) : Int).natAbs →
        n = roundUnits num den ∨ roundUnits num den % 2 = 0) := by
  have hval := magOfPattern_roundUnits num den hf
  have hsb := roundStep_bounds num den
  have hbd := roundSig_bounds num den
  have hpat : roundUnits num den = roundSig num den + roundStep num den * 2 ^ 52 := by
    rw [roundUnits_eq] at hf ⊢; omega
  have hinj : ∀ a, magOfPattern n = magOfPattern a → n = a := fun a h => magOfPattern_strictMono.injective h
  rw [hval]
  generalize hk : roundStep num den = k at *
  have hu : 0 < 2 ^ k := by positivity
  have key := fun j => roundTiesEven_nearest num (den * 2 ^ k) j (by positivity)
  have hm : roundTiesEven num (den * 2 ^ k) = roundSig num den := by simp only [roundSig, hk]
  rw [hm] at key
  generalize hms : roundSig num den = m at *
  have hmul : ∀ j, j * (den * 2 ^ k) = j * 2 ^ k * den := fun j => by ring
  obtain ⟨m', k', hn, hm', hk', hv⟩ := pattern_split n
  rcases Nat.lt_or_ge k' k with hlt | hge
  · have h52 : 2 ^ 52 * (den * 2 ^ k) ≤ num := by
      have h1 : 2 ^ (k + 52) ≤ num / den := by omega
      have h2 := (Nat.le_div_iff_mul_le hd).1 h1
      calc 2 ^ 52 * (den * 2 ^ k) = 2 ^ (k + 52) * den := by rw [pow_add]; ring
        _ ≤ num := h2
    have hsmall : magOfPattern n * den + 1 ≤ 2 ^ 52 * (den * 2 ^ k) := by
      have h1 : magOfPattern n < 2 ^ 52 * 2 ^ k := by
        rw [hv]
        calc m' * 2 ^ k' < 2 ^ 53 * 2 ^ k' := Nat.mul_lt_mul_of_pos_right hm' (by positivity)
          _ = 2 ^ 52 * 2 ^ (k' + 1) := by rw [pow_succ 2 k']; ring
          _ ≤ 2 ^ 52 * 2 ^ k := Nat.mul_le_mul_left _ (Nat.pow_le_pow_right (by omega) hlt)
      have h2 : magOfPattern n * den < 2 ^ 52 * 2 ^ k * den := Nat.mul_lt_mul_of_pos_right h1 hd
      have h3 := hmul (2 ^ 52)
      omega
    have hb := (key (2 ^ 52)).1
    rw [hmul m] at hb
    constructor
    · omega
    · intro he; omega
  · have hj : magOfPattern n = m' * 2 ^ (k' - k) * 2 ^ k := by
      rw [hv, mul_assoc, ← pow_add, Nat.sub_add_cancel hge]
    have hb := key (m' * 2 ^ (k' - k))
    rw [hmul m, hmul (m' * 2 ^ (k' - k)), ← hj] at hb
    refine ⟨hb.1, fun he => ?_⟩
    rcases hb.2 he with h | h
    · left
      apply hinj
      rw [hval, hj, h]
    · right
      rw [hpat]
      omega

theorem packF64_toNat (neg : Bool) (n : Nat) (h : n < 2 ^ 63) :
    (packF64 neg n).toNat = (if neg then 2 ^ 63 else 0) + n := by
  rw [packF64, BitVec.toNat_ofNat, Nat.mod_eq_of_lt]
  split <;> omega

theorem packF64_mod (neg : Bool) (n : Nat) (h : n < 2 ^ 63) : (packF64 neg n).toNat % 2 ^ 63 = n := by
  rw [packF64_toNat neg n h]
  split <;> omega

theorem magUnits_packF64 (neg : Bool) (n : Nat) (h : n < 2 ^ 63) : magUnits (packF64 neg n) = magOfPattern n := by
  rw [magUnits_eq, packF64_mod neg n h]

theorem isNegative_packF64 (neg : Bool) (n : Nat) (h : n < 2 ^ 63) : isNegative (packF64 neg n) = neg := by
  rw [isNegative, BitVec.msb_eq_decide, packF64_toNat neg n h]
  cases neg <;> simp only [Bool.false_eq_true, if_false, if_true, decide_eq_true_eq, decide_eq_false_iff_not] <;> omega

theorem infMag_lt : infMag < 2 ^ 63 := by decide

theorem isInf_packF64 (neg : Bool) (n : Nat) (h : n ≤ infMag) : isInf (packF64 neg n) = decide (n = infMag) := by
  have hlt : n < 2 ^ 63 := Nat.lt_of_le_of_lt h infMag_lt
  have hi : infMag = 2047 * 2 ^ 52 := rfl
  rw [isInf, expBits_eq, fracBits_eq, packF64_mod neg n hlt, Bool.eq_iff_iff]
  simp only [Bool.and_eq_true, beq_iff_eq, decide_eq_true_eq]
  omega

theorem isNaN_packF64 (neg : Bool) (n : Nat) (h : n ≤ infMag) : isNaN (packF64 neg n) = false := by
  have hlt : n < 2 ^ 63 := Nat.lt_of_le_of_lt h infMag_lt
  have hi : infMag = 2047 * 2 ^ 52 := rfl
  rw [isNaN, expBits_eq, fracBits_eq, packF64_mod neg n hlt]
  simp only [Bool.and_eq_false_iff, beq_eq_false_iff_ne, bne_eq_false_iff_eq]
  omega

theorem isNaN_isInf (x : F64) (h : isNaN x = true) : isInf x = false := by
  simp only [isNaN, isInf, Bool.and_eq_true, beq_iff_eq, bne_iff_ne, Bool.and_eq_false_iff, beq_eq_false_iff_ne] at h ⊢
  exact .inr h.2

theorem isNegative_fneg (x : F64) : isNegative (fneg x) = !isNegative x := by
  have h : (0x8000000000000000 : F64).msb = true := by decide
  simp only [isNegative, fneg, BitVec.msb_xor, h, Bool.xor_true]

theorem fneg_mod (x : F64) : (fneg x).toNat % 2 ^ 63 = x.toNat % 2 ^ 63 := by
  apply Nat.eq_of_testBit_eq
  intro i
  simp only [Nat.testBit_mod_two_pow, fneg, BitVec.toNat_xor, Nat.testBit_xor]
  by_cases hi : i < 63
  · have h : (0x8000000000000000 : F64).toNat.testBit i = false := by
      show Nat.testBit (2 ^ 63) i = false
      rw [Nat.testBit_two_pow, decide_eq_false_iff_not]; omega
    rw [h, Bool.xor_false]
  · simp [hi]

theorem magUnits_fneg (x : F64) : magUnits (fneg x) = magUnits x := by
  rw [magUnits_eq, magUnits_eq, fneg_mod]

theorem units_fneg (x : F64) : units (fneg x) = -units x := by
  simp only [units, isNegative_fneg, magUnits_fneg]
  cases isNegative x <;> simp

theorem isNaN_fneg (x : F64) : isNaN (fneg x) = isNaN x := by
  simp only [isNaN, expBits_eq, fracBits_eq, fneg_mod]

theorem isInf_fneg (x : F64) : isInf (fneg x) = isInf x := by
  simp only [isInf, expBits_eq, fracBits_eq, fneg_mod]

theorem units_packF64 (neg : Bool) (n : Nat) (h : n < 2 ^ 63) :
    units (packF64 neg n) = if neg then -(magOfPattern n : Int) else (magOfPattern n : Int) := by
  rw [units, isNegative_packF64 neg n h, magUnits_packF64 neg n h]

/-- A sum of finite values: one rounding of the exact sum of units (R15). -/
theorem fadd_finite {x y : F64} (hx : isNaN x = false) (hy : isNaN y = false) (hx' : isInf x = false)
    (hy' : isInf y = false) :
    fadd x y = if units x + units y = 0 then packF64 (isNegative x && isNegative y) 0
      else packF64 (decide (units x + units y < 0)) (roundUnits (units x + units y).natAbs 1) := by
  simp only [fadd, hx, hy, hx', hy', Bool.or_self, Bool.false_eq_true, if_false]

theorem fadd_class {x y : F64} (hx : isNaN x = false) (hy : isNaN y = false) (hx' : isInf x = false)
    (hy' : isInf y = false) : isNaN (fadd x y) = false ∧ (0 < units (fadd x y) → 0 < units x + units y) := by
  rw [fadd_finite hx hy hx' hy']
  have hz : (0 : Nat) < 2 ^ 63 := by decide
  have hr : roundUnits (units x + units y).natAbs 1 < 2 ^ 63 :=
    Nat.lt_of_le_of_lt (roundUnits_le _ _) infMag_lt
  split
  · refine ⟨isNaN_packF64 _ _ (Nat.zero_le _), ?_⟩
    rw [units_packF64 _ _ hz, magOfPattern_zero]
    split <;> simp
  · refine ⟨isNaN_packF64 _ _ (roundUnits_le _ _), ?_⟩
    rw [units_packF64 _ _ hr]
    by_cases h : units x + units y < 0
    · simp only [h, decide_true, if_true]; omega
    · intro; omega

end Sys2Proof.Machine
end

