-- ==== Sys2Proof/Laws/Ops.lean ====
section
/-!
SUPPORT. What each shared operation does, said once: the raise, the two ends of a COMPUTE step, `Quantize`, `Validate`, the
builder's steps. Later proofs cite these and do not unfold the operations.
-/

namespace Sys2Proof.Machine

theorem raiseIf_bind {α : Type} (c : Bool) (e : CmdError) (f : Unit → Except CmdError α) :
    (raiseIf c e >>= f) = if c then .error e else f () := by
  cases c <;> rfl

theorem raiseIf_bind_ok {α : Type} {c : Bool} {e : CmdError} {f : Unit → Except CmdError α} {a : α} :
    (raiseIf c e >>= f) = .ok a ↔ c = false ∧ f () = .ok a := by
  cases c <;> simp [raiseIf, bind, Except.bind]

theorem raiseIf_eq_ok {c : Bool} {e : CmdError} : raiseIf c e = .ok () ↔ c = false := by
  cases c <;> simp [raiseIf]

theorem bind_ok_iff {α β : Type} {r : Except CmdError α} {f : α → Except CmdError β} {b : β} :
    (r >>= f) = .ok b ↔ ∃ a, r = .ok a ∧ f a = .ok b := by
  cases r <;> simp [bind, Except.bind]

/-- A COMPUTE step always ends in a next state. -/
theorem finishPlain_next (s : State) (r : Except CmdError State) : ∃ t, finishPlain s r = .next t := by
  cases r <;> exact ⟨_, rfl⟩

theorem finishBuilding_next (s : State) (r : Except CmdError State) : ∃ t, finishBuilding s r = .next t := by
  cases r <;> exact ⟨_, rfl⟩

theorem finishPlain_cases {s t : State} {r : Except CmdError State} (h : finishPlain s r = .next t) :
    (∃ u, r = .ok u ∧ t = completeCommand u) ∨ (∃ e, r = .error e ∧ t = raiseError e s) := by
  cases r with
  | ok u => exact .inl ⟨u, rfl, by cases h; rfl⟩
  | error e => exact .inr ⟨e, rfl, by cases h; rfl⟩

theorem finishBuilding_cases {s t : State} {r : Except CmdError State} (h : finishBuilding s r = .next t) :
    r = .ok t ∨ (∃ e, r = .error e ∧ t = raiseError e s) := by
  cases r with
  | ok u => exact .inl (by cases h; rfl)
  | error e => exact .inr ⟨e, rfl, by cases h; rfl⟩

theorem periodValid_iff (p : F64) : periodValid p = true ↔ PeriodOk p := by
  simp [periodValid, PeriodOk, fgt, kZero]

theorem checkPeriod_ok (p : F64) : checkPeriod p = .ok () ↔ PeriodOk p := by
  rw [checkPeriod, raiseIf_eq_ok, ← periodValid_iff]
  simp

/-- `Quantize` succeeds exactly on the quantizable times, with their cycle count (R130). -/
theorem quantize_ok {p x : F64} {chan : BitVec 4} {c : Int} :
    quantize p x chan = .ok c ↔ Quantizable p x ∧ c = cycles p x := by
  have hm : ∀ c : Int, decide (maxCycles < c) = false ↔ c ≤ 4294967295 := fun c => by
    rw [decide_eq_false_iff_not, not_lt]; rfl
  simp only [quantize, raiseIf_bind_ok, Quantizable, cycles, kZero, hm, pure, Except.pure, Except.ok.injEq, and_assoc,
    @eq_comm Int c]

/-- What `Validate` answers with a positive repetition rate (R172 to R174). -/
theorem validateWindow_pos {latch : Option Int} {start stop rep : Int} {chan : BitVec 4} (h : 0 < rep) :
    validateWindow latch start stop rep chan =
      if sentinelPair start stop rep then .ok (.disabled, rep)
      else (checkEnabled start stop rep chan >>= fun _ => .ok (.enabled, rep)) := by
  have h' : ¬ rep ≤ 0 := by omega
  simp only [validateWindow, effectiveRate, h', if_false, bind, Except.bind, pure, Except.pure]

theorem checkEnabled_ok {start stop rep : Int} {chan : BitVec 4} :
    checkEnabled start stop rep chan = .ok () ↔ start ≤ rep ∧ stop ≤ rep ∧ start < stop := by
  simp only [checkEnabled, raiseIf_bind_ok, raiseIf_eq_ok, decide_eq_false_iff_not]
  omega

/-- The builder's call of `Validate` passes exactly the enabled windows (R173, R238, R245). -/
theorem validateEnabled_ok {latch : Option Int} {start stop rep : Int} {chan : BitVec 4} (h : 0 < rep) :
    validateEnabled latch start stop rep chan = .ok () ↔
      (0 ≤ start ∨ 0 ≤ stop) ∧ start < stop ∧ stop ≤ rep := by
  rw [validateEnabled, validateWindow_pos h]
  by_cases hs : sentinelPair start stop rep = true
  · simp only [hs, if_true, bind, Except.bind, raiseIf]
    simp only [sentinelPair, Bool.or_eq_true, Bool.and_eq_true, decide_eq_true_eq] at hs
    simp
    omega
  · rw [if_neg hs]
    simp only [sentinelPair, Bool.or_eq_true, Bool.and_eq_true, decide_eq_true_eq, not_or, not_and] at hs
    cases hc : checkEnabled start stop rep chan with
    | ok u =>
      have := checkEnabled_ok.1 (show checkEnabled start stop rep chan = .ok () from hc)
      simp [bind, Except.bind, raiseIf]
      omega
    | error e =>
      have h1 : ¬ (start ≤ rep ∧ stop ≤ rep ∧ start < stop) := by
        rw [← checkEnabled_ok (chan := chan), hc]; simp
      simp [bind, Except.bind]
      omega

theorem slotDisabled_iff (rep : F64) (w : Window) : slotDisabled rep w = true ↔ SlotOff rep w := by
  simp [slotDisabled, SlotOff, fgt, kZero]

@[simp] theorem tenOf_getElem {α : Type} (f : Fin 10 → α) (k : Nat) (h : k < 10) : (tenOf f)[k] = f ⟨k, h⟩ := by
  rcases k with _ | _ | _ | _ | _ | _ | _ | _ | _ | _ | k
  all_goals first
    | rfl
    | omega

@[simp] theorem tenOf_getElem_fin {α : Type} (f : Fin 10 → α) (k : Fin 10) : (tenOf f)[k] = f k :=
  tenOf_getElem f k.val k.isLt

theorem eq_tenOf {α : Type} (v : Vector α 10) (f : Fin 10 → α) (h : ∀ k : Fin 10, v[k] = f k) : v = tenOf f := by
  apply Vector.ext
  intro i hi
  rw [tenOf_getElem f i hi]
  exact h ⟨i, hi⟩

/-- The error of `Quantize` on every other time (R130). -/
theorem quantize_error {p x : F64} (chan : BitVec 4) (h : ¬ Quantizable p x) :
    quantize p x chan = .error (if flt x 0 then { kind := .negativeDuration, chan := chan }
      else if isNaN x then { kind := .invalidNumber, chan := chan }
      else { kind := .overflow, chan := chan, info := maxSeconds p }) := by
  simp only [Quantizable, not_and, not_le] at h
  simp only [quantize, raiseIf_bind, kZero]
  cases h1 : flt x 0 with
  | true => simp
  | false =>
    cases h2 : isNaN x with
    | true => simp
    | false =>
      cases h3 : isInf (fdiv x p) with
      | true => simp
      | false =>
        have := h h1 h2 h3
        have h4 : decide (maxCycles < rne (fdiv x p)) = true := decide_eq_true this
        simp [h4]

/-- The builder's `Validate` of a window that ends within the period and is empty or reversed (R173, R239, R245). -/
theorem validateEnabled_error {latch : Option Int} {start stop rep : Int} {chan : BitVec 4} (h : 0 < rep) (h0 : 0 ≤ start) (h1 : stop ≤ rep) (h2 : ¬ start < stop) :
    validateEnabled latch start stop rep chan = .error (if rep < start then { kind := .startExceedsPeriod, chan := chan }
      else if stop < start then { kind := .stopBeforeStart, chan := chan } else { kind := .zeroWidthWindow, chan := chan }) := by
  have hs : sentinelPair start stop rep = false := by simp [sentinelPair]; omega
  rw [validateEnabled, validateWindow_pos h, hs]
  simp only [checkEnabled, raiseIf_bind]
  by_cases a : rep < start
  · simp [a, bind, Except.bind]
  · by_cases b : stop < start
    · simp [a, b, not_lt.2 h1, bind, Except.bind]
    · have : stop = start := by omega
      simp [a, this, raiseIf, bind, Except.bind]

end Sys2Proof.Machine
end

