-- ==== Sys2Proof/Laws/Quantizer.lean ====
section
/-!
SUPPORT. The quantizer in exact terms: at a valid period the cycle count of a quantizable time is one rounding of one rounded
quotient of magnitudes, so it is never negative and it is monotone.
-/

namespace Sys2Proof.Machine

theorem units_zero : units 0 = 0 := by decide

theorem isNaN_zero : isNaN 0 = false := by decide

theorem magUnits_zero : magUnits 0 = 0 := by decide

theorem flt_iff (x y : F64) : flt x y = true ↔ isNaN x = false ∧ isNaN y = false ∧ units x < units y := by
  simp [flt, and_assoc]

theorem PeriodOk.facts {p : F64} (h : PeriodOk p) : isNaN p = false ∧ isNegative p = false ∧ 0 < magUnits p := by
  obtain ⟨h1, -⟩ := h
  rw [flt_iff, units_zero] at h1
  obtain ⟨-, h2, h3⟩ := h1
  refine ⟨h2, ?_, ?_⟩
  · cases hn : isNegative p with
    | false => rfl
    | true => simp only [units, hn, if_true] at h3; omega
  · simp only [units] at h3
    split at h3 <;> omega

/-- A time that is not negative and not a NaN has a sign only when it is zero. -/
theorem nonneg_facts {x : F64} (h1 : flt x 0 = false) (h2 : isNaN x = false) : isNegative x = false ∨ magUnits x = 0 := by
  by_contra hc
  push Not at hc
  obtain ⟨hn, hm⟩ := hc
  have hn' : isNegative x = true := by cases h : isNegative x <;> simp_all
  have : flt x 0 = true := by
    rw [flt_iff, units_zero]
    refine ⟨h2, isNaN_zero, ?_⟩
    simp only [units, hn', if_true]
    omega
  rw [this] at h1
  cases h1

/-- The magnitude of the quotient of a finite time and a valid period. -/
def quotMag (p x : F64) : Nat := roundUnits (magUnits x * unitsPerOne) (magUnits p)

theorem quotMag_le (p x : F64) : quotMag p x ≤ infMag := roundUnits_le _ _

theorem fdiv_finite {p x : F64} (hp : PeriodOk p) (hx : isNaN x = false) (hi : isInf x = false) :
    fdiv x p = packF64 (isNegative x) (quotMag p x) := by
  obtain ⟨h1, h2, h3⟩ := hp.facts
  have h4 : magUnits p ≠ 0 := by omega
  have h5 : isInf p = false := hp.2
  simp only [fdiv, hx, hi, h1, h2, h5, h4, Bool.or_self, Bool.false_eq_true, if_false, Bool.bne_false, quotMag]

theorem fdiv_inf {p x : F64} (hp : PeriodOk p) (hx : isInf x = true) : isInf (fdiv x p) = true := by
  obtain ⟨h1, h2, h3⟩ := hp.facts
  have h0 : isNaN x = false := by
    cases h : isNaN x with
    | false => rfl
    | true => rw [isNaN_isInf x h] at hx; cases hx
  simp only [fdiv, h0, hx, h1, hp.2, Bool.or_self, Bool.false_eq_true, if_false, if_true]
  rw [isInf_packF64 _ _ (le_refl _)]
  simp

theorem Quantizable.finite {p x : F64} (hp : PeriodOk p) (h : Quantizable p x) : isInf x = false := by
  cases hi : isInf x with
  | false => rfl
  | true => have := fdiv_inf hp hi; rw [h.2.2.1] at this; cases this

theorem roundTiesEven_zero (den : Nat) : roundTiesEven 0 den = 0 := by
  rcases Nat.eq_zero_or_pos den with h | h
  · subst h; rfl
  · simpa using roundTiesEven_exact 0 den h

theorem roundUnits_zero (den : Nat) : roundUnits 0 den = 0 := by
  have h : roundStep 0 den = 0 := by simp [roundStep]
  rw [roundUnits_eq, h]
  simp [roundSig, roundTiesEven_zero]

/-- The cycle count of a quantizable time, from the magnitudes alone (R16, R130). -/
theorem cycles_eq {p x : F64} (hp : PeriodOk p) (h : Quantizable p x) :
    cycles p x = (roundTiesEven (magOfPattern (quotMag p x)) unitsPerOne : Nat) := by
  have hq := fdiv_finite hp h.2.1 (h.finite hp)
  have hlt : quotMag p x < 2 ^ 63 := Nat.lt_of_le_of_lt (quotMag_le p x) infMag_lt
  rw [cycles, hq, rne, isNegative_packF64 _ _ hlt, magUnits_packF64 _ _ hlt]
  rcases nonneg_facts h.1 h.2.1 with hn | hm
  · rw [hn]; rfl
  · have h0 : quotMag p x = 0 := by rw [quotMag, hm, Nat.zero_mul, roundUnits_zero]
    rw [h0, magOfPattern_zero, roundTiesEven_zero]
    cases isNegative x <;> rfl

theorem cycles_nonneg {p x : F64} (hp : PeriodOk p) (h : Quantizable p x) : 0 ≤ cycles p x := by
  rw [cycles_eq hp h]
  exact Int.natCast_nonneg _

theorem magUnits_le_of_units_le {x y : F64} (hx1 : flt x 0 = false) (hx2 : isNaN x = false) (hy1 : flt y 0 = false)
    (hy2 : isNaN y = false) (h : units x ≤ units y) : magUnits x ≤ magUnits y := by
  rcases nonneg_facts hx1 hx2 with hx | hx <;> rcases nonneg_facts hy1 hy2 with hy | hy <;>
    simp only [units, hx, hy] at h <;> (try split at h) <;> (try split at h) <;> simp_all

theorem quotMag_mono {p x y : F64} (hp : PeriodOk p) (h : magUnits x ≤ magUnits y) : quotMag p x ≤ quotMag p y := by
  obtain ⟨-, -, h3⟩ := hp.facts
  exact roundUnits_mono h3 h3 (Nat.mul_le_mul_right _ (Nat.mul_le_mul_right _ h))

/-- The order of two times that are not NaN. -/
theorem flt_false_iff {x y : F64} (hx : isNaN x = false) (hy : isNaN y = false) :
    flt x y = false ↔ units y ≤ units x := by
  simp [flt, hx, hy]

theorem fle_iff (x y : F64) : fle x y = true ↔ isNaN x = false ∧ isNaN y = false ∧ units x ≤ units y := by
  simp [fle, and_assoc]

/-- Two quantizable times a period or more apart are in order. -/
theorem width_lt {p s t : F64} (hp : PeriodOk p) (hs : Quantizable p s) (ht : Quantizable p t)
    (h : flt (fsub t s) p = false) : units s < units t := by
  obtain ⟨h1, h2, h3⟩ := hp.facts
  have hc := fadd_class (x := t) (y := fneg s) ht.2.1 (by rw [isNaN_fneg]; exact hs.2.1) (ht.finite hp)
    (by rw [isInf_fneg]; exact hs.finite hp)
  rw [fsub, flt_false_iff hc.1 h1] at h
  have hp' : units p = magUnits p := by simp [units, h2]
  have := hc.2 (by omega)
  rw [units_fneg] at this
  omega

theorem not_stop_lt_start {s t : F64} (h : units s < units t) : flt t s = false := by
  cases hf : flt t s with
  | false => rfl
  | true => rw [flt_iff] at hf; omega

end Sys2Proof.Machine
end

