-- ==== Sys2Proof/Laws/Builder.lean ====
section
/-!
SUPPORT. The builder step by step (R231 to R247): what each of its operations does when it answers, and the slot loop as a
fold. At the end, `CheckCommon` (R193).
-/

namespace Sys2Proof.Machine

theorem checkCount_ok {n : Nat} : checkCount n = .ok () ↔ n = 10 := by
  simp only [checkCount, raiseIf_bind_ok, raiseIf_eq_ok, decide_eq_false_iff_not]
  omega

theorem buildRepRate_ok {p rep : F64} {c : Int} :
    buildRepRate p rep = .ok c ↔ Quantizable p rep ∧ cycles p rep ≠ 0 ∧ c = cycles p rep := by
  rw [buildRepRate, bind_ok_iff]
  constructor
  · rintro ⟨a, h1, h2⟩
    obtain ⟨h3, rfl⟩ := quantize_ok.1 h1
    obtain ⟨h4, h5⟩ := raiseIf_bind_ok.1 h2
    cases h5
    exact ⟨h3, by simpa using h4, rfl⟩
  · rintro ⟨h1, h2, rfl⟩
    exact ⟨_, quantize_ok.2 ⟨h1, rfl⟩, raiseIf_bind_ok.2 ⟨by simpa using h2, rfl⟩⟩

theorem buildDeadTime_ok {p dead : F64} {c : Int} :
    buildDeadTime p dead = .ok c ↔ Quantizable p dead ∧ flt dead kDeadMin = false ∧ c = cycles p dead := by
  rw [buildDeadTime, bind_ok_iff]
  constructor
  · rintro ⟨a, h1, h2⟩
    obtain ⟨h3, rfl⟩ := quantize_ok.1 h1
    obtain ⟨h4, h5⟩ := raiseIf_bind_ok.1 h2
    cases h5
    exact ⟨h3, h4, rfl⟩
  · rintro ⟨h1, h2, rfl⟩
    exact ⟨_, quantize_ok.2 ⟨h1, rfl⟩, raiseIf_bind_ok.2 ⟨h2, rfl⟩⟩

/-- The checks of a slot, in seconds (R237). -/
theorem checkSlot_ok {ctx : BuildCtx} {i : Fin 10} {w : Window} {first first' : F64} :
    checkSlot ctx i w first = .ok first' ↔
      flt (fsub w.stop w.start) ctx.p = false ∧ (fgt w.stop ctx.rep && fle w.start ctx.rep) = false ∧
      flt w.start (fdiv ctx.rep kTwo) = false ∧ flt w.stop w.start = false ∧
      first' = (if flt w.start first then w.start else first) := by
  simp only [checkSlot, raiseIf_bind_ok, pure, Except.pure, Except.ok.injEq, @eq_comm _ first']

theorem buildEnabled_ok {ctx : BuildCtx} {i : Fin 10} {w : Window} {acc acc' : SlotAcc} (h : 0 < ctx.repC) :
    buildEnabled ctx i w acc = .ok acc' ↔
      (flt (fsub w.stop w.start) ctx.p = false ∧ (fgt w.stop ctx.rep && fle w.start ctx.rep) = false ∧
        flt w.start (fdiv ctx.rep kTwo) = false ∧ flt w.stop w.start = false) ∧
      Quantizable ctx.p w.start ∧ Quantizable ctx.p w.stop ∧
      ((0 ≤ cycles ctx.p w.start ∨ 0 ≤ cycles ctx.p w.stop) ∧ cycles ctx.p w.start < cycles ctx.p w.stop ∧
        cycles ctx.p w.stop ≤ ctx.repC) ∧
      acc' = { first := if flt w.start acc.first then w.start else acc.first
               ps := acc.ps.set i (cycles ctx.p w.start), pt := acc.pt.set i (cycles ctx.p w.stop)
               io := setIoBit acc.io i false } := by
  simp only [buildEnabled, bind_ok_iff, checkSlot_ok, quantize_ok, validateEnabled_ok h, pure, Except.pure, Except.ok.injEq]
  constructor
  · rintro ⟨_, ⟨h1, h2, h3, h4, rfl⟩, _, ⟨h5, rfl⟩, _, ⟨h6, rfl⟩, _, h7, rfl⟩
    exact ⟨⟨h1, h2, h3, h4⟩, h5, h6, h7, rfl⟩
  · rintro ⟨⟨h1, h2, h3, h4⟩, h5, h6, h7, rfl⟩
    exact ⟨_, ⟨h1, h2, h3, h4, rfl⟩, _, ⟨h5, rfl⟩, _, ⟨h6, rfl⟩, (), h7, rfl⟩

theorem buildDisabled_ok {ctx : BuildCtx} {i : Fin 10} {acc acc' : SlotAcc} :
    buildDisabled ctx i acc = .ok acc' ↔ ctx.repC + 2 ≤ 4294967295 ∧
      acc' = { acc with ps := acc.ps.set i (ctx.repC + 2), pt := acc.pt.set i (ctx.repC + 2), io := setIoBit acc.io i true } := by
  rw [buildDisabled]
  refine raiseIf_bind_ok.trans (and_congr ?_ ?_)
  · rw [decide_eq_false_iff_not, not_lt]; rfl
  · exact ⟨fun h => by cases h; rfl, fun h => by rw [h]; rfl⟩

/-- The two stages of a slot's checks together, as Safety states them (R237, R238, R239). -/
theorem slotAccepted_iff {p rep : F64} {w : Window} (hp : PeriodOk p) :
    ((flt (fsub w.stop w.start) p = false ∧ (fgt w.stop rep && fle w.start rep) = false ∧
        flt w.start (fdiv rep kTwo) = false ∧ flt w.stop w.start = false) ∧
      Quantizable p w.start ∧ Quantizable p w.stop ∧
      ((0 ≤ cycles p w.start ∨ 0 ≤ cycles p w.stop) ∧ cycles p w.start < cycles p w.stop ∧
        cycles p w.stop ≤ cycles p rep)) ↔ SlotAccepted p rep w := by
  have hb : (fgt w.stop rep && fle w.start rep) = false ↔ ¬ (flt rep w.stop = true ∧ fle w.start rep = true) := by
    rw [← Bool.not_eq_true, Bool.and_eq_true]; rfl
  rw [hb]
  constructor
  · rintro ⟨⟨h1, h2, h3, h4⟩, h5, h6, h7, h8, h9⟩
    exact ⟨h1, h2, h3, h5, h6, h8, h9⟩
  · rintro ⟨h1, h2, h3, h5, h6, h8, h9⟩
    exact ⟨⟨h1, h2, h3, not_stop_lt_start (width_lt hp h5 h6 h1)⟩, h5, h6, .inl (cycles_nonneg hp h5), h8, h9⟩

/-- What a slot that passes does to the loop's accumulator (R237, R238, R241). -/
def slotEffect (ctx : BuildCtx) (w : Vector Window 10) (acc : SlotAcc) (i : Fin 10) : SlotAcc :=
  if SlotOff ctx.rep w[i] then
    { acc with ps := acc.ps.set i (ctx.repC + 2), pt := acc.pt.set i (ctx.repC + 2), io := setIoBit acc.io i true }
  else
    { first := if flt w[i].start acc.first then w[i].start else acc.first
      ps := acc.ps.set i (cycles ctx.p w[i].start), pt := acc.pt.set i (cycles ctx.p w[i].stop)
      io := setIoBit acc.io i false }

/-- A slot that the builder passes (R236 to R242). -/
abbrev SlotPasses (ctx : BuildCtx) (w : Window) : Prop :=
  (SlotOff ctx.rep w → ctx.repC + 2 ≤ 4294967295) ∧ (¬ SlotOff ctx.rep w → SlotAccepted ctx.p ctx.rep w)

theorem buildSlot_ok {ctx : BuildCtx} {w : Vector Window 10} {acc acc' : SlotAcc} {i : Fin 10} (hp : PeriodOk ctx.p)
    (hc : ctx.repC = cycles ctx.p ctx.rep) (h : 0 < ctx.repC) :
    buildSlot ctx w acc i = .ok acc' ↔ SlotPasses ctx w[i] ∧ acc' = slotEffect ctx w acc i := by
  rw [buildSlot]
  by_cases hd : SlotOff ctx.rep w[i]
  · rw [if_pos ((slotDisabled_iff _ _).2 hd), buildDisabled_ok, slotEffect, if_pos hd]
    exact and_congr ⟨fun h => ⟨fun _ => h, fun h' => absurd hd h'⟩, fun h => h.1 hd⟩ Iff.rfl
  · rw [if_neg (fun h' => hd ((slotDisabled_iff _ _).1 h')), buildEnabled_ok h, slotEffect, if_neg hd, hc]
    constructor
    · rintro ⟨h1, h2, h3, h4, h5⟩
      exact ⟨⟨fun h' => absurd h' hd, fun _ => (slotAccepted_iff hp).1 ⟨h1, h2, h3, h4⟩⟩, h5⟩
    · rintro ⟨⟨-, h1⟩, h5⟩
      obtain ⟨h1, h2, h3, h4⟩ := (slotAccepted_iff hp).2 (h1 hd)
      exact ⟨h1, h2, h3, h4, h5⟩

theorem buildSlots_ok {ctx : BuildCtx} {w : Vector Window 10} (hp : PeriodOk ctx.p)
    (hc : ctx.repC = cycles ctx.p ctx.rep) (h : 0 < ctx.repC) (l : List (Fin 10)) (acc acc' : SlotAcc) :
    buildSlots ctx w l acc = .ok acc' ↔ (∀ i ∈ l, SlotPasses ctx w[i]) ∧ acc' = l.foldl (slotEffect ctx w) acc := by
  induction l generalizing acc with
  | nil => simp [buildSlots, eq_comm]
  | cons i l ih =>
    rw [buildSlots]
    cases hb : buildSlot ctx w acc i with
    | ok acc1 =>
      obtain ⟨h1, rfl⟩ := (buildSlot_ok hp hc h).1 hb
      rw [List.forall_mem_cons, List.foldl_cons, and_iff_right h1]
      exact ih _
    | error e =>
      have : ¬ SlotPasses ctx w[i] := fun h' => by
        rw [(buildSlot_ok (acc' := slotEffect ctx w acc i) hp hc h).2 ⟨h', rfl⟩] at hb; cases hb
      constructor
      · intro h'; cases h'
      · intro h'; exact absurd (h'.1 i List.mem_cons_self) this

theorem foldl_first (ctx : BuildCtx) (w : Vector Window 10) (l : List (Fin 10)) (acc : SlotAcc) :
    (l.foldl (slotEffect ctx w) acc).first =
      l.foldl (fun first i => if SlotOff ctx.rep w[i] then first else if flt w[i].start first then w[i].start else first)
        acc.first := by
  induction l generalizing acc with
  | nil => rfl
  | cons i l ih =>
    rw [List.foldl_cons, List.foldl_cons, ih]
    congr 1
    rw [slotEffect]
    split <;> rfl

theorem foldl_io (ctx : BuildCtx) (w : Vector Window 10) (l : List (Fin 10)) (acc : SlotAcc) :
    (l.foldl (slotEffect ctx w) acc).io =
      l.foldl (fun io i => setIoBit io i (decide (SlotOff ctx.rep w[i]))) acc.io := by
  induction l generalizing acc with
  | nil => rfl
  | cons i l ih =>
    rw [List.foldl_cons, List.foldl_cons, ih]
    congr 1
    rw [slotEffect]
    by_cases h : SlotOff ctx.rep w[i] <;> simp only [h, if_true, if_false, decide_true, decide_false]

theorem foldl_ps (ctx : BuildCtx) (w : Vector Window 10) (l : List (Fin 10)) (acc : SlotAcc) :
    (l.foldl (slotEffect ctx w) acc).ps =
      l.foldl (fun ps i => ps.set i (if SlotOff ctx.rep w[i] then ctx.repC + 2 else cycles ctx.p w[i].start)) acc.ps := by
  induction l generalizing acc with
  | nil => rfl
  | cons i l ih =>
    rw [List.foldl_cons, List.foldl_cons, ih]
    congr 1
    rw [slotEffect]
    split <;> rfl

theorem foldl_pt (ctx : BuildCtx) (w : Vector Window 10) (l : List (Fin 10)) (acc : SlotAcc) :
    (l.foldl (slotEffect ctx w) acc).pt =
      l.foldl (fun pt i => pt.set i (if SlotOff ctx.rep w[i] then ctx.repC + 2 else cycles ctx.p w[i].stop)) acc.pt := by
  induction l generalizing acc with
  | nil => rfl
  | cons i l ih =>
    rw [List.foldl_cons, List.foldl_cons, ih]
    congr 1
    rw [slotEffect]
    split <;> rfl

/-- Setting all ten entries gives the array of the values set. -/
theorem foldl_set (f : Fin 10 → Int) (v : Vector Int 10) : slots.foldl (fun ps i => ps.set i (f i)) v = tenOf f := by
  apply Vector.ext
  intro i hi
  rw [tenOf_getElem f i hi]
  simp only [slots, List.foldl_cons, List.foldl_nil, Vector.getElem_set]
  rcases i with _ | _ | _ | _ | _ | _ | _ | _ | _ | _ | i
  all_goals first
    | rfl
    | omega

theorem foldl_setIoBit (off : Fin 10 → Bool) :
    slots.foldl (fun io i => setIoBit io i (off i)) ioInitStart = ioMask off := by
  have h : ∀ n : Fin 1024, slots.foldl (fun io i => setIoBit io i (n.val.testBit i.val)) ioInitStart =
      ioMask fun i => n.val.testBit i.val := by decide +kernel
  obtain ⟨n, hn⟩ : ∃ n : Fin 1024, ∀ i : Fin 10, n.val.testBit i.val = off i := by
    refine ⟨⟨Nat.ofBits off, Nat.ofBits_lt_two_pow off⟩, fun i => ?_⟩
    exact Nat.testBit_ofBits_lt off i.val i.isLt
  have := h n
  simp only [hn] at this
  exact this

/-- The slot loop as a whole (R235 to R242): the accumulator it ends with. -/
theorem slots_result (ctx : BuildCtx) (w : Vector Window 10) :
    slots.foldl (slotEffect ctx w) (slotAccStart ctx.rep) =
      { first := earliestStart ctx.rep w
        io := ioMask fun i => decide (SlotOff ctx.rep w[i])
        ps := tenOf fun i => if SlotOff ctx.rep w[i] then ctx.repC + 2 else cycles ctx.p w[i].start
        pt := tenOf fun i => if SlotOff ctx.rep w[i] then ctx.repC + 2 else cycles ctx.p w[i].stop } := by
  rw [← foldl_setIoBit, ← foldl_set _ (slotAccStart ctx.rep).ps, ← foldl_set _ (slotAccStart ctx.rep).pt]
  have h1 := foldl_first ctx w slots (slotAccStart ctx.rep)
  have h2 := foldl_io ctx w slots (slotAccStart ctx.rep)
  have h3 := foldl_ps ctx w slots (slotAccStart ctx.rep)
  have h4 := foldl_pt ctx w slots (slotAccStart ctx.rep)
  cases hf : slots.foldl (slotEffect ctx w) (slotAccStart ctx.rep)
  rw [hf] at h1 h2 h3 h4
  simp only at h1 h2 h3 h4
  rw [h1, h2, h3, h4]
  rfl

theorem ioMask_high (off : Fin 10 → Bool) : (ioMask off).extractLsb' 10 10 = 0x3FF := by
  have h : ∀ n : Fin 1024, (ioMask fun i => n.val.testBit i.val).extractLsb' 10 10 = 0x3FF := by decide +kernel
  have := h ⟨Nat.ofBits off, Nat.ofBits_lt_two_pow off⟩
  simp only [Nat.testBit_ofBits_lt off _ (Fin.isLt _)] at this
  exact this

theorem buildCharge_ok {ctx : BuildCtx} {deadC : Int} {acc : SlotAcc} {g : Program} (h : 0 < ctx.repC)
    (hio : acc.io.extractLsb' 10 10 = 0x3FF) :
    buildCharge ctx deadC acc = .ok g ↔ Quantizable ctx.p acc.first ∧
      ((0 ≤ deadC ∨ 0 ≤ cycles ctx.p acc.first - deadC) ∧ deadC < cycles ctx.p acc.first - deadC ∧
        cycles ctx.p acc.first - deadC ≤ ctx.repC) ∧
      g = { repC := ctx.repC, deadC := deadC, io := acc.io, ps := acc.ps, pt := acc.pt, cs := deadC
            ct := cycles ctx.p acc.first - deadC } := by
  rw [buildCharge, bind_ok_iff]
  constructor
  · rintro ⟨a, h1, h2⟩
    obtain ⟨h3, rfl⟩ := quantize_ok.1 h1
    obtain ⟨u, h4, h5⟩ := bind_ok_iff.1 h2
    obtain ⟨h6, h7⟩ := raiseIf_bind_ok.1 h5
    cases h7
    exact ⟨h3, (validateEnabled_ok h).1 h4, rfl⟩
  · rintro ⟨h1, h2, rfl⟩
    refine ⟨_, quantize_ok.2 ⟨h1, rfl⟩, bind_ok_iff.2 ⟨(), (validateEnabled_ok h).2 h2, raiseIf_bind_ok.2 ⟨?_, rfl⟩⟩⟩
    rw [hio]; rfl

/-- An enabled slot that passes lies within the period, in seconds (R239). -/
theorem SlotAccepted.start_lt {p rep : F64} {w : Window} (hp : PeriodOk p) (hr : Quantizable p rep)
    (hoff : ¬ SlotOff rep w) (h : SlotAccepted p rep w) : units w.start < units w.stop ∧ units w.stop ≤ units rep := by
  obtain ⟨h1, h2, -, h4, h5, -, -⟩ := h
  have hlt := width_lt hp h4 h5 h1
  refine ⟨hlt, ?_⟩
  by_contra hc
  apply hoff
  have h6 : flt rep w.stop = true := (flt_iff _ _).2 ⟨hr.2.1, h5.2.1, by omega⟩
  refine .inl ⟨(flt_iff _ _).2 ⟨hr.2.1, h4.2.1, ?_⟩, h6⟩
  by_contra h7
  exact h2 ⟨h6, (fle_iff _ _).2 ⟨h4.2.1, hr.2.1, by omega⟩⟩

/-- The fold of R237 over times that are not NaN: one of them or the first, and at most each. -/
theorem earliest_fold (rep : F64) (w : Vector Window 10) (l : List (Fin 10)) (first : F64) (hf : isNaN first = false)
    (hn : ∀ i ∈ l, ¬ SlotOff rep w[i] → isNaN w[i].start = false) :
    let r := l.foldl
      (fun first i => if SlotOff rep w[i] then first else if flt w[i].start first then w[i].start else first) first
    (r = first ∨ ∃ i ∈ l, ¬ SlotOff rep w[i] ∧ r = w[i].start) ∧ isNaN r = false ∧ units r ≤ units first ∧
      ∀ i ∈ l, ¬ SlotOff rep w[i] → units r ≤ units w[i].start := by
  induction l generalizing first with
  | nil => exact ⟨.inl rfl, hf, le_refl _, by simp⟩
  | cons i l ih =>
    have hn' := fun j hj => hn j (List.mem_cons_of_mem _ hj)
    simp only [List.foldl_cons]
    by_cases hd : SlotOff rep w[i]
    · rw [if_pos hd]
      obtain ⟨h1, h2, h3, h4⟩ := ih first hf hn'
      refine ⟨?_, h2, h3, ?_⟩
      · rcases h1 with h1 | ⟨j, hj, h1⟩
        · exact .inl h1
        · exact .inr ⟨j, List.mem_cons_of_mem _ hj, h1⟩
      · intro j hj hdj
        rcases List.mem_cons.1 hj with rfl | hj
        · exact absurd hd hdj
        · exact h4 j hj hdj
    · rw [if_neg hd]
      have hni := hn i List.mem_cons_self hd
      by_cases hl : flt w[i].start first = true
      · rw [if_pos hl]
        obtain ⟨h1, h2, h3, h4⟩ := ih w[i].start hni hn'
        have := ((flt_iff _ _).1 hl).2.2
        refine ⟨?_, h2, by omega, ?_⟩
        · rcases h1 with h1 | ⟨j, hj, h1⟩
          · exact .inr ⟨i, List.mem_cons_self, hd, h1⟩
          · exact .inr ⟨j, List.mem_cons_of_mem _ hj, h1⟩
        · intro j hj hdj
          rcases List.mem_cons.1 hj with rfl | hj
          · exact h3
          · exact h4 j hj hdj
      · rw [if_neg hl]
        obtain ⟨h1, h2, h3, h4⟩ := ih first hf hn'
        have := (flt_false_iff hni hf).1 (Bool.not_eq_true _ ▸ hl)
        refine ⟨?_, h2, h3, ?_⟩
        · rcases h1 with h1 | ⟨j, hj, h1⟩
          · exact .inl h1
          · exact .inr ⟨j, List.mem_cons_of_mem _ hj, h1⟩
        · intro j hj hdj
          rcases List.mem_cons.1 hj with rfl | hj
          · omega
          · exact h4 j hj hdj

/-- The entries of a supplied delay array that all pass (R193). -/
theorem checkDelayEntries_ok {n : Nat} {info : DWord} {d : Vector F64 10} (l : List (Fin 10)) :
    checkDelayEntries n info d l = .ok () ↔ ∀ k ∈ l, k.val < n → fle d[k] kZero = true := by
  induction l with
  | nil => simp [checkDelayEntries]
  | cons k l ih =>
    rw [checkDelayEntries, List.forall_mem_cons, ← ih]
    by_cases hk : k.val < n
    · cases fle d[k] kZero <;> simp [hk]
    · simp [hk]

/-- One delay array that passes (R193). -/
theorem checkDelays_ok {present : Bool} {len n : Nat} {info : DWord} {d : Vector F64 10} :
    checkDelays present len n info d = .ok () ↔ DelaysOk present len n d := by
  have hmem : ∀ k : Fin 10, k ∈ slots := by decide
  cases present with
  | false => simp [checkDelays, DelaysOk, pure, Except.pure]
  | true =>
    simp only [checkDelays, if_true]
    refine raiseIf_bind_ok.trans ?_
    rw [checkDelayEntries_ok]
    constructor
    · rintro ⟨h1, h2⟩ -
      exact ⟨by simpa using h1, fun k hk => h2 k (hmem k) hk⟩
    · intro h
      obtain ⟨h1, h2⟩ := h rfl
      exact ⟨by simp [h1], fun k _ hk => h2 k hk⟩

/-- `CheckCommon` answers the number of channels exactly on the operands that Safety calls CommonOk (R193). -/
theorem checkCommon_ok {s : State} {n : Nat} : checkCommon s = .ok n ↔ CommonOk s ∧ n = numChField s.param := by
  rw [checkCommon]
  refine raiseIf_bind_ok.trans ?_
  constructor
  · rintro ⟨h1, h2⟩
    obtain ⟨_, h3, h4⟩ := bind_ok_iff.1 h2
    obtain ⟨_, h5, h6⟩ := bind_ok_iff.1 h4
    cases h6
    rw [decide_eq_false_iff_not, not_lt] at h1
    exact ⟨⟨h1, checkDelays_ok.1 h3, checkDelays_ok.1 h5⟩, rfl⟩
  · rintro ⟨⟨h1, h2, h3⟩, rfl⟩
    refine ⟨?_, bind_ok_iff.2 ⟨(), checkDelays_ok.2 h2, bind_ok_iff.2 ⟨(), checkDelays_ok.2 h3, rfl⟩⟩⟩
    rw [decide_eq_false_iff_not, not_lt]
    exact h1

/-- The slot loop ends with the error of the first slot that does not pass (R236, R285). -/
theorem buildSlots_error {ctx : BuildCtx} {w : Vector Window 10} (hp : PeriodOk ctx.p)
    (hc : ctx.repC = cycles ctx.p ctx.rep) (h : 0 < ctx.repC) (i : Fin 10)
    (hb : ∀ j : Fin 10, j < i → SlotPasses ctx w[j]) (e : CmdError) (he : ∀ acc, buildSlot ctx w acc i = .error e)
    (acc : SlotAcc) : buildSlots ctx w slots acc = .error e := by
  have gen : ∀ (l₁ l₂ : List (Fin 10)) (acc : SlotAcc), (∀ j ∈ l₁, j < i) →
      buildSlots ctx w (l₁ ++ i :: l₂) acc = .error e := by
    intro l₁ l₂
    induction l₁ with
    | nil => intro acc _; simp only [List.nil_append, buildSlots, he]
    | cons j l ih =>
      intro acc hl
      rw [List.cons_append, buildSlots, (buildSlot_ok hp hc h).2 ⟨hb j (hl j List.mem_cons_self), rfl⟩]
      exact ih _ fun k hk => hl k (List.mem_cons_of_mem _ hk)
  have hsplit : ∀ i : Fin 10, slots = slots.take i.val ++ i :: slots.drop (i.val + 1) ∧
      ∀ j ∈ slots.take i.val, j < i := by decide
  rw [(hsplit i).1]
  exact gen _ _ _ (hsplit i).2

end Sys2Proof.Machine
end

