-- ==== Sys2Proof/Laws/State.lean ====
section
/-!
SUPPORT. What each update of the state leaves in each field: one lemma per field and update, each true by `rfl`. They let a
proof read a field of an updated state without unfolding the update.
-/

namespace Sys2Proof.Machine

variable (s : State)

@[simp] theorem raiseError_clkPeriod (e : CmdError) : (raiseError e s).clkPeriod = s.clkPeriod := rfl
@[simp] theorem raiseError_repRate (e : CmdError) : (raiseError e s).repRate = s.repRate := rfl
@[simp] theorem raiseError_deadTime (e : CmdError) : (raiseError e s).deadTime = s.deadTime := rfl
@[simp] theorem raiseError_pulseLen (e : CmdError) : (raiseError e s).pulseLen = s.pulseLen := rfl
@[simp] theorem raiseError_auxTime (e : CmdError) : (raiseError e s).auxTime = s.auxTime := rfl
@[simp] theorem raiseError_param (e : CmdError) : (raiseError e s).param = s.param := rfl
@[simp] theorem raiseError_delayBegin (e : CmdError) : (raiseError e s).delayBegin = s.delayBegin := rfl
@[simp] theorem raiseError_delayEnd (e : CmdError) : (raiseError e s).delayEnd = s.delayEnd := rfl
@[simp] theorem raiseError_opA (e : CmdError) : (raiseError e s).opA = s.opA := rfl
@[simp] theorem raiseError_opB (e : CmdError) : (raiseError e s).opB = s.opB := rfl
@[simp] theorem raiseError_opC (e : CmdError) : (raiseError e s).opC = s.opC := rfl
@[simp] theorem raiseError_done (e : CmdError) : (raiseError e s).done = true := rfl
@[simp] theorem raiseError_werr (e : CmdError) : (raiseError e s).werr = s.werr := rfl
@[simp] theorem raiseError_lock (e : CmdError) : (raiseError e s).lock = s.lock := rfl
@[simp] theorem raiseError_regs (e : CmdError) :
    (raiseError e s).regs =
      { s.regs with err := true, errCode := errorCode e.kind, errChan := e.chan, errInfo := e.info } := rfl
@[simp] theorem raiseError_phase (e : CmdError) : (raiseError e s).phase = .idle := rfl
@[simp] theorem raiseError_op (e : CmdError) : (raiseError e s).op = s.op := rfl
@[simp] theorem raiseError_k (e : CmdError) : (raiseError e s).k = s.k := rfl
@[simp] theorem raiseError_trace (e : CmdError) : (raiseError e s).trace = s.trace := rfl
@[simp] theorem raiseError_old (e : CmdError) : (raiseError e s).old = s.old := rfl
@[simp] theorem raiseError_settled (e : CmdError) : (raiseError e s).settled = s.settled := rfl
@[simp] theorem raiseError_reads (e : CmdError) : (raiseError e s).reads = s.reads := rfl
@[simp] theorem raiseError_busData (e : CmdError) : (raiseError e s).busData = s.busData := rfl
@[simp] theorem raiseError_inbox (e : CmdError) : (raiseError e s).inbox = s.inbox := rfl
@[simp] theorem raiseError_downstream (e : CmdError) : (raiseError e s).downstream = s.downstream := rfl

@[simp] theorem completeCommand_clkPeriod : (completeCommand s).clkPeriod = s.clkPeriod := rfl
@[simp] theorem completeCommand_repRate : (completeCommand s).repRate = s.repRate := rfl
@[simp] theorem completeCommand_deadTime : (completeCommand s).deadTime = s.deadTime := rfl
@[simp] theorem completeCommand_pulseLen : (completeCommand s).pulseLen = s.pulseLen := rfl
@[simp] theorem completeCommand_auxTime : (completeCommand s).auxTime = s.auxTime := rfl
@[simp] theorem completeCommand_param : (completeCommand s).param = s.param := rfl
@[simp] theorem completeCommand_delayBegin : (completeCommand s).delayBegin = s.delayBegin := rfl
@[simp] theorem completeCommand_delayEnd : (completeCommand s).delayEnd = s.delayEnd := rfl
@[simp] theorem completeCommand_opA : (completeCommand s).opA = s.opA := rfl
@[simp] theorem completeCommand_opB : (completeCommand s).opB = s.opB := rfl
@[simp] theorem completeCommand_opC : (completeCommand s).opC = s.opC := rfl
@[simp] theorem completeCommand_done : (completeCommand s).done = true := rfl
@[simp] theorem completeCommand_werr : (completeCommand s).werr = s.werr := rfl
@[simp] theorem completeCommand_lock : (completeCommand s).lock = s.lock := rfl
@[simp] theorem completeCommand_regs : (completeCommand s).regs = s.regs := rfl
@[simp] theorem completeCommand_phase : (completeCommand s).phase = .idle := rfl
@[simp] theorem completeCommand_op : (completeCommand s).op = s.op := rfl
@[simp] theorem completeCommand_k : (completeCommand s).k = s.k := rfl
@[simp] theorem completeCommand_trace : (completeCommand s).trace = s.trace := rfl
@[simp] theorem completeCommand_old : (completeCommand s).old = s.old := rfl
@[simp] theorem completeCommand_settled : (completeCommand s).settled = s.settled := rfl
@[simp] theorem completeCommand_reads : (completeCommand s).reads = s.reads := rfl
@[simp] theorem completeCommand_busData : (completeCommand s).busData = s.busData := rfl
@[simp] theorem completeCommand_inbox : (completeCommand s).inbox = s.inbox := rfl
@[simp] theorem completeCommand_downstream : (completeCommand s).downstream = s.downstream := rfl

@[simp] theorem acceptCommand_clkPeriod (w : Word) : (acceptCommand w s).clkPeriod = s.clkPeriod := rfl
@[simp] theorem acceptCommand_repRate (w : Word) : (acceptCommand w s).repRate = s.repRate := rfl
@[simp] theorem acceptCommand_deadTime (w : Word) : (acceptCommand w s).deadTime = s.deadTime := rfl
@[simp] theorem acceptCommand_pulseLen (w : Word) : (acceptCommand w s).pulseLen = s.pulseLen := rfl
@[simp] theorem acceptCommand_auxTime (w : Word) : (acceptCommand w s).auxTime = s.auxTime := rfl
@[simp] theorem acceptCommand_param (w : Word) : (acceptCommand w s).param = s.param := rfl
@[simp] theorem acceptCommand_delayBegin (w : Word) : (acceptCommand w s).delayBegin = s.delayBegin := rfl
@[simp] theorem acceptCommand_delayEnd (w : Word) : (acceptCommand w s).delayEnd = s.delayEnd := rfl
@[simp] theorem acceptCommand_opA (w : Word) : (acceptCommand w s).opA = s.opA := rfl
@[simp] theorem acceptCommand_opB (w : Word) : (acceptCommand w s).opB = s.opB := rfl
@[simp] theorem acceptCommand_opC (w : Word) : (acceptCommand w s).opC = s.opC := rfl
@[simp] theorem acceptCommand_done (w : Word) : (acceptCommand w s).done = false := rfl
@[simp] theorem acceptCommand_werr (w : Word) : (acceptCommand w s).werr = s.werr := rfl
@[simp] theorem acceptCommand_lock (w : Word) : (acceptCommand w s).lock = true := rfl
@[simp] theorem acceptCommand_regs (w : Word) :
    (acceptCommand w s).regs =
      { s.regs with err := false, errCode := 0, errChan := chanNone, cls := 0, errInfo := 0 } := rfl
@[simp] theorem acceptCommand_phase (w : Word) : (acceptCommand w s).phase = .compute := rfl
@[simp] theorem acceptCommand_op (w : Word) : (acceptCommand w s).op = w := rfl
@[simp] theorem acceptCommand_k (w : Word) : (acceptCommand w s).k = 0 := rfl
@[simp] theorem acceptCommand_trace (w : Word) : (acceptCommand w s).trace = s.trace := rfl
@[simp] theorem acceptCommand_old (w : Word) : (acceptCommand w s).old = s.regs := rfl
@[simp] theorem acceptCommand_settled (w : Word) : (acceptCommand w s).settled = false := rfl
@[simp] theorem acceptCommand_reads (w : Word) : (acceptCommand w s).reads = s.reads := rfl
@[simp] theorem acceptCommand_busData (w : Word) : (acceptCommand w s).busData = s.busData := rfl
@[simp] theorem acceptCommand_inbox (w : Word) : (acceptCommand w s).inbox = s.inbox := rfl
@[simp] theorem acceptCommand_downstream (w : Word) : (acceptCommand w s).downstream = s.downstream := rfl

@[simp] theorem loadCommand_clkPeriod (w : Word) : (loadCommand w s).clkPeriod = s.clkPeriod := rfl
@[simp] theorem loadCommand_repRate (w : Word) : (loadCommand w s).repRate = s.repRate := rfl
@[simp] theorem loadCommand_deadTime (w : Word) : (loadCommand w s).deadTime = s.deadTime := rfl
@[simp] theorem loadCommand_pulseLen (w : Word) : (loadCommand w s).pulseLen = s.pulseLen := rfl
@[simp] theorem loadCommand_auxTime (w : Word) : (loadCommand w s).auxTime = s.auxTime := rfl
@[simp] theorem loadCommand_param (w : Word) : (loadCommand w s).param = s.param := rfl
@[simp] theorem loadCommand_delayBegin (w : Word) : (loadCommand w s).delayBegin = s.delayBegin := rfl
@[simp] theorem loadCommand_delayEnd (w : Word) : (loadCommand w s).delayEnd = s.delayEnd := rfl
@[simp] theorem loadCommand_opA (w : Word) : (loadCommand w s).opA = s.opA := rfl
@[simp] theorem loadCommand_opB (w : Word) : (loadCommand w s).opB = s.opB := rfl
@[simp] theorem loadCommand_opC (w : Word) : (loadCommand w s).opC = s.opC := rfl
@[simp] theorem loadCommand_done (w : Word) : (loadCommand w s).done = false := rfl
@[simp] theorem loadCommand_werr (w : Word) : (loadCommand w s).werr = s.werr := rfl
@[simp] theorem loadCommand_lock (w : Word) : (loadCommand w s).lock = true := rfl
@[simp] theorem loadCommand_regs (w : Word) :
    (loadCommand w s).regs =
      { s.regs with err := false, errCode := 0, errChan := chanNone, cls := 0, errInfo := 0 } := rfl
@[simp] theorem loadCommand_phase (w : Word) : (loadCommand w s).phase = .compute := rfl
@[simp] theorem loadCommand_op (w : Word) : (loadCommand w s).op = w := rfl
@[simp] theorem loadCommand_k (w : Word) : (loadCommand w s).k = 0 := rfl
@[simp] theorem loadCommand_trace (w : Word) : (loadCommand w s).trace = s.trace := rfl
@[simp] theorem loadCommand_old (w : Word) : (loadCommand w s).old = s.regs := rfl
@[simp] theorem loadCommand_settled (w : Word) : (loadCommand w s).settled = false := rfl
@[simp] theorem loadCommand_reads (w : Word) : (loadCommand w s).reads = s.reads := rfl
@[simp] theorem loadCommand_busData (w : Word) : (loadCommand w s).busData = s.busData := rfl
@[simp] theorem loadCommand_inbox (w : Word) : (loadCommand w s).inbox = [] := rfl
@[simp] theorem loadCommand_downstream (w : Word) : (loadCommand w s).downstream = s.downstream := rfl

@[simp] theorem ignoreWrite_clkPeriod : (ignoreWrite s).clkPeriod = s.clkPeriod := rfl
@[simp] theorem ignoreWrite_repRate : (ignoreWrite s).repRate = s.repRate := rfl
@[simp] theorem ignoreWrite_deadTime : (ignoreWrite s).deadTime = s.deadTime := rfl
@[simp] theorem ignoreWrite_pulseLen : (ignoreWrite s).pulseLen = s.pulseLen := rfl
@[simp] theorem ignoreWrite_auxTime : (ignoreWrite s).auxTime = s.auxTime := rfl
@[simp] theorem ignoreWrite_param : (ignoreWrite s).param = s.param := rfl
@[simp] theorem ignoreWrite_delayBegin : (ignoreWrite s).delayBegin = s.delayBegin := rfl
@[simp] theorem ignoreWrite_delayEnd : (ignoreWrite s).delayEnd = s.delayEnd := rfl
@[simp] theorem ignoreWrite_opA : (ignoreWrite s).opA = s.opA := rfl
@[simp] theorem ignoreWrite_opB : (ignoreWrite s).opB = s.opB := rfl
@[simp] theorem ignoreWrite_opC : (ignoreWrite s).opC = s.opC := rfl
@[simp] theorem ignoreWrite_done : (ignoreWrite s).done = s.done := rfl
@[simp] theorem ignoreWrite_werr : (ignoreWrite s).werr = true := rfl
@[simp] theorem ignoreWrite_lock : (ignoreWrite s).lock = s.lock := rfl
@[simp] theorem ignoreWrite_regs : (ignoreWrite s).regs = s.regs := rfl
@[simp] theorem ignoreWrite_phase : (ignoreWrite s).phase = s.phase := rfl
@[simp] theorem ignoreWrite_op : (ignoreWrite s).op = s.op := rfl
@[simp] theorem ignoreWrite_k : (ignoreWrite s).k = s.k := rfl
@[simp] theorem ignoreWrite_trace : (ignoreWrite s).trace = s.trace := rfl
@[simp] theorem ignoreWrite_old : (ignoreWrite s).old = s.old := rfl
@[simp] theorem ignoreWrite_settled : (ignoreWrite s).settled = s.settled := rfl
@[simp] theorem ignoreWrite_reads : (ignoreWrite s).reads = s.reads := rfl
@[simp] theorem ignoreWrite_busData : (ignoreWrite s).busData = s.busData := rfl
@[simp] theorem ignoreWrite_inbox : (ignoreWrite s).inbox = s.inbox := rfl
@[simp] theorem ignoreWrite_downstream : (ignoreWrite s).downstream = s.downstream := rfl

@[simp] theorem pgWrite_clkPeriod (idx : Nat) (v : Word) : (pgWrite idx v s).clkPeriod = s.clkPeriod := rfl
@[simp] theorem pgWrite_repRate (idx : Nat) (v : Word) : (pgWrite idx v s).repRate = s.repRate := rfl
@[simp] theorem pgWrite_deadTime (idx : Nat) (v : Word) : (pgWrite idx v s).deadTime = s.deadTime := rfl
@[simp] theorem pgWrite_pulseLen (idx : Nat) (v : Word) : (pgWrite idx v s).pulseLen = s.pulseLen := rfl
@[simp] theorem pgWrite_auxTime (idx : Nat) (v : Word) : (pgWrite idx v s).auxTime = s.auxTime := rfl
@[simp] theorem pgWrite_param (idx : Nat) (v : Word) : (pgWrite idx v s).param = s.param := rfl
@[simp] theorem pgWrite_delayBegin (idx : Nat) (v : Word) : (pgWrite idx v s).delayBegin = s.delayBegin := rfl
@[simp] theorem pgWrite_delayEnd (idx : Nat) (v : Word) : (pgWrite idx v s).delayEnd = s.delayEnd := rfl
@[simp] theorem pgWrite_opA (idx : Nat) (v : Word) : (pgWrite idx v s).opA = s.opA := rfl
@[simp] theorem pgWrite_opB (idx : Nat) (v : Word) : (pgWrite idx v s).opB = s.opB := rfl
@[simp] theorem pgWrite_opC (idx : Nat) (v : Word) : (pgWrite idx v s).opC = s.opC := rfl
@[simp] theorem pgWrite_done (idx : Nat) (v : Word) : (pgWrite idx v s).done = s.done := rfl
@[simp] theorem pgWrite_werr (idx : Nat) (v : Word) : (pgWrite idx v s).werr = s.werr := rfl
@[simp] theorem pgWrite_lock (idx : Nat) (v : Word) : (pgWrite idx v s).lock = s.lock := rfl
@[simp] theorem pgWrite_regs (idx : Nat) (v : Word) : (pgWrite idx v s).regs = s.regs := rfl
@[simp] theorem pgWrite_phase (idx : Nat) (v : Word) : (pgWrite idx v s).phase = s.phase := rfl
@[simp] theorem pgWrite_op (idx : Nat) (v : Word) : (pgWrite idx v s).op = s.op := rfl
@[simp] theorem pgWrite_k (idx : Nat) (v : Word) : (pgWrite idx v s).k = s.k := rfl
@[simp] theorem pgWrite_trace (idx : Nat) (v : Word) :
    (pgWrite idx v s).trace = s.trace ++ [(BitVec.ofNat 32 (idx * addressStride), v)] := rfl
@[simp] theorem pgWrite_old (idx : Nat) (v : Word) : (pgWrite idx v s).old = s.old := rfl
@[simp] theorem pgWrite_settled (idx : Nat) (v : Word) : (pgWrite idx v s).settled = s.settled := rfl
@[simp] theorem pgWrite_reads (idx : Nat) (v : Word) : (pgWrite idx v s).reads = s.reads := rfl
@[simp] theorem pgWrite_busData (idx : Nat) (v : Word) : (pgWrite idx v s).busData = s.busData := rfl
@[simp] theorem pgWrite_inbox (idx : Nat) (v : Word) : (pgWrite idx v s).inbox = s.inbox := rfl
@[simp] theorem pgWrite_downstream (idx : Nat) (v : Word) : (pgWrite idx v s).downstream = s.downstream := rfl

@[simp] theorem setResult_clkPeriod (v : DWord) : (setResult v s).clkPeriod = s.clkPeriod := rfl
@[simp] theorem setResult_repRate (v : DWord) : (setResult v s).repRate = s.repRate := rfl
@[simp] theorem setResult_deadTime (v : DWord) : (setResult v s).deadTime = s.deadTime := rfl
@[simp] theorem setResult_pulseLen (v : DWord) : (setResult v s).pulseLen = s.pulseLen := rfl
@[simp] theorem setResult_auxTime (v : DWord) : (setResult v s).auxTime = s.auxTime := rfl
@[simp] theorem setResult_param (v : DWord) : (setResult v s).param = s.param := rfl
@[simp] theorem setResult_delayBegin (v : DWord) : (setResult v s).delayBegin = s.delayBegin := rfl
@[simp] theorem setResult_delayEnd (v : DWord) : (setResult v s).delayEnd = s.delayEnd := rfl
@[simp] theorem setResult_opA (v : DWord) : (setResult v s).opA = s.opA := rfl
@[simp] theorem setResult_opB (v : DWord) : (setResult v s).opB = s.opB := rfl
@[simp] theorem setResult_opC (v : DWord) : (setResult v s).opC = s.opC := rfl
@[simp] theorem setResult_done (v : DWord) : (setResult v s).done = s.done := rfl
@[simp] theorem setResult_werr (v : DWord) : (setResult v s).werr = s.werr := rfl
@[simp] theorem setResult_lock (v : DWord) : (setResult v s).lock = s.lock := rfl
@[simp] theorem setResult_regs (v : DWord) : (setResult v s).regs = { s.regs with result := v } := rfl
@[simp] theorem setResult_phase (v : DWord) : (setResult v s).phase = s.phase := rfl
@[simp] theorem setResult_op (v : DWord) : (setResult v s).op = s.op := rfl
@[simp] theorem setResult_k (v : DWord) : (setResult v s).k = s.k := rfl
@[simp] theorem setResult_trace (v : DWord) : (setResult v s).trace = s.trace := rfl
@[simp] theorem setResult_old (v : DWord) : (setResult v s).old = s.old := rfl
@[simp] theorem setResult_settled (v : DWord) : (setResult v s).settled = s.settled := rfl
@[simp] theorem setResult_reads (v : DWord) : (setResult v s).reads = s.reads := rfl
@[simp] theorem setResult_busData (v : DWord) : (setResult v s).busData = s.busData := rfl
@[simp] theorem setResult_inbox (v : DWord) : (setResult v s).inbox = s.inbox := rfl
@[simp] theorem setResult_downstream (v : DWord) : (setResult v s).downstream = s.downstream := rfl

@[simp] theorem setClass_clkPeriod (c : BitVec 2) : (setClass c s).clkPeriod = s.clkPeriod := rfl
@[simp] theorem setClass_repRate (c : BitVec 2) : (setClass c s).repRate = s.repRate := rfl
@[simp] theorem setClass_deadTime (c : BitVec 2) : (setClass c s).deadTime = s.deadTime := rfl
@[simp] theorem setClass_pulseLen (c : BitVec 2) : (setClass c s).pulseLen = s.pulseLen := rfl
@[simp] theorem setClass_auxTime (c : BitVec 2) : (setClass c s).auxTime = s.auxTime := rfl
@[simp] theorem setClass_param (c : BitVec 2) : (setClass c s).param = s.param := rfl
@[simp] theorem setClass_delayBegin (c : BitVec 2) : (setClass c s).delayBegin = s.delayBegin := rfl
@[simp] theorem setClass_delayEnd (c : BitVec 2) : (setClass c s).delayEnd = s.delayEnd := rfl
@[simp] theorem setClass_opA (c : BitVec 2) : (setClass c s).opA = s.opA := rfl
@[simp] theorem setClass_opB (c : BitVec 2) : (setClass c s).opB = s.opB := rfl
@[simp] theorem setClass_opC (c : BitVec 2) : (setClass c s).opC = s.opC := rfl
@[simp] theorem setClass_done (c : BitVec 2) : (setClass c s).done = s.done := rfl
@[simp] theorem setClass_werr (c : BitVec 2) : (setClass c s).werr = s.werr := rfl
@[simp] theorem setClass_lock (c : BitVec 2) : (setClass c s).lock = s.lock := rfl
@[simp] theorem setClass_regs (c : BitVec 2) : (setClass c s).regs = { s.regs with cls := c } := rfl
@[simp] theorem setClass_phase (c : BitVec 2) : (setClass c s).phase = s.phase := rfl
@[simp] theorem setClass_op (c : BitVec 2) : (setClass c s).op = s.op := rfl
@[simp] theorem setClass_k (c : BitVec 2) : (setClass c s).k = s.k := rfl
@[simp] theorem setClass_trace (c : BitVec 2) : (setClass c s).trace = s.trace := rfl
@[simp] theorem setClass_old (c : BitVec 2) : (setClass c s).old = s.old := rfl
@[simp] theorem setClass_settled (c : BitVec 2) : (setClass c s).settled = s.settled := rfl
@[simp] theorem setClass_reads (c : BitVec 2) : (setClass c s).reads = s.reads := rfl
@[simp] theorem setClass_busData (c : BitVec 2) : (setClass c s).busData = s.busData := rfl
@[simp] theorem setClass_inbox (c : BitVec 2) : (setClass c s).inbox = s.inbox := rfl
@[simp] theorem setClass_downstream (c : BitVec 2) : (setClass c s).downstream = s.downstream := rfl

@[simp] theorem writeWindows_clkPeriod (w : Vector Window 10) : (writeWindows w s).clkPeriod = s.clkPeriod := rfl
@[simp] theorem writeWindows_repRate (w : Vector Window 10) : (writeWindows w s).repRate = s.repRate := rfl
@[simp] theorem writeWindows_deadTime (w : Vector Window 10) : (writeWindows w s).deadTime = s.deadTime := rfl
@[simp] theorem writeWindows_pulseLen (w : Vector Window 10) : (writeWindows w s).pulseLen = s.pulseLen := rfl
@[simp] theorem writeWindows_auxTime (w : Vector Window 10) : (writeWindows w s).auxTime = s.auxTime := rfl
@[simp] theorem writeWindows_param (w : Vector Window 10) : (writeWindows w s).param = s.param := rfl
@[simp] theorem writeWindows_delayBegin (w : Vector Window 10) : (writeWindows w s).delayBegin = s.delayBegin := rfl
@[simp] theorem writeWindows_delayEnd (w : Vector Window 10) : (writeWindows w s).delayEnd = s.delayEnd := rfl
@[simp] theorem writeWindows_opA (w : Vector Window 10) : (writeWindows w s).opA = s.opA := rfl
@[simp] theorem writeWindows_opB (w : Vector Window 10) : (writeWindows w s).opB = s.opB := rfl
@[simp] theorem writeWindows_opC (w : Vector Window 10) : (writeWindows w s).opC = s.opC := rfl
@[simp] theorem writeWindows_done (w : Vector Window 10) : (writeWindows w s).done = s.done := rfl
@[simp] theorem writeWindows_werr (w : Vector Window 10) : (writeWindows w s).werr = s.werr := rfl
@[simp] theorem writeWindows_lock (w : Vector Window 10) : (writeWindows w s).lock = s.lock := rfl
@[simp] theorem writeWindows_regs (w : Vector Window 10) :
    (writeWindows w s).regs =
      { s.regs with winStart := tenOf fun k => w[k].start, winStop := tenOf fun k => w[k].stop } := rfl
@[simp] theorem writeWindows_phase (w : Vector Window 10) : (writeWindows w s).phase = s.phase := rfl
@[simp] theorem writeWindows_op (w : Vector Window 10) : (writeWindows w s).op = s.op := rfl
@[simp] theorem writeWindows_k (w : Vector Window 10) : (writeWindows w s).k = s.k := rfl
@[simp] theorem writeWindows_trace (w : Vector Window 10) : (writeWindows w s).trace = s.trace := rfl
@[simp] theorem writeWindows_old (w : Vector Window 10) : (writeWindows w s).old = s.old := rfl
@[simp] theorem writeWindows_settled (w : Vector Window 10) : (writeWindows w s).settled = s.settled := rfl
@[simp] theorem writeWindows_reads (w : Vector Window 10) : (writeWindows w s).reads = s.reads := rfl
@[simp] theorem writeWindows_busData (w : Vector Window 10) : (writeWindows w s).busData = s.busData := rfl
@[simp] theorem writeWindows_inbox (w : Vector Window 10) : (writeWindows w s).inbox = s.inbox := rfl
@[simp] theorem writeWindows_downstream (w : Vector Window 10) : (writeWindows w s).downstream = s.downstream := rfl

@[simp] theorem commitProgram_clkPeriod (g : Program) : (commitProgram g s).clkPeriod = s.clkPeriod := rfl
@[simp] theorem commitProgram_repRate (g : Program) : (commitProgram g s).repRate = s.repRate := rfl
@[simp] theorem commitProgram_deadTime (g : Program) : (commitProgram g s).deadTime = s.deadTime := rfl
@[simp] theorem commitProgram_pulseLen (g : Program) : (commitProgram g s).pulseLen = s.pulseLen := rfl
@[simp] theorem commitProgram_auxTime (g : Program) : (commitProgram g s).auxTime = s.auxTime := rfl
@[simp] theorem commitProgram_param (g : Program) : (commitProgram g s).param = s.param := rfl
@[simp] theorem commitProgram_delayBegin (g : Program) : (commitProgram g s).delayBegin = s.delayBegin := rfl
@[simp] theorem commitProgram_delayEnd (g : Program) : (commitProgram g s).delayEnd = s.delayEnd := rfl
@[simp] theorem commitProgram_opA (g : Program) : (commitProgram g s).opA = s.opA := rfl
@[simp] theorem commitProgram_opB (g : Program) : (commitProgram g s).opB = s.opB := rfl
@[simp] theorem commitProgram_opC (g : Program) : (commitProgram g s).opC = s.opC := rfl
@[simp] theorem commitProgram_done (g : Program) : (commitProgram g s).done = s.done := rfl
@[simp] theorem commitProgram_werr (g : Program) : (commitProgram g s).werr = s.werr := rfl
@[simp] theorem commitProgram_lock (g : Program) : (commitProgram g s).lock = s.lock := rfl
@[simp] theorem commitProgram_regs (g : Program) :
    (commitProgram g s).regs = { s.regs with prog := shadowOf g, progValid := true } := rfl
@[simp] theorem commitProgram_phase (g : Program) : (commitProgram g s).phase = .emit := rfl
@[simp] theorem commitProgram_op (g : Program) : (commitProgram g s).op = s.op := rfl
@[simp] theorem commitProgram_k (g : Program) : (commitProgram g s).k = 0 := rfl
@[simp] theorem commitProgram_trace (g : Program) : (commitProgram g s).trace = s.trace := rfl
@[simp] theorem commitProgram_old (g : Program) : (commitProgram g s).old = s.old := rfl
@[simp] theorem commitProgram_settled (g : Program) : (commitProgram g s).settled = s.settled := rfl
@[simp] theorem commitProgram_reads (g : Program) : (commitProgram g s).reads = s.reads := rfl
@[simp] theorem commitProgram_busData (g : Program) : (commitProgram g s).busData = s.busData := rfl
@[simp] theorem commitProgram_inbox (g : Program) : (commitProgram g s).inbox = s.inbox := rfl
@[simp] theorem commitProgram_downstream (g : Program) : (commitProgram g s).downstream = s.downstream := rfl

@[simp] theorem endEmission_clkPeriod : (endEmission s).clkPeriod = s.clkPeriod := rfl
@[simp] theorem endEmission_repRate : (endEmission s).repRate = s.repRate := rfl
@[simp] theorem endEmission_deadTime : (endEmission s).deadTime = s.deadTime := rfl
@[simp] theorem endEmission_pulseLen : (endEmission s).pulseLen = s.pulseLen := rfl
@[simp] theorem endEmission_auxTime : (endEmission s).auxTime = s.auxTime := rfl
@[simp] theorem endEmission_param : (endEmission s).param = s.param := rfl
@[simp] theorem endEmission_delayBegin : (endEmission s).delayBegin = s.delayBegin := rfl
@[simp] theorem endEmission_delayEnd : (endEmission s).delayEnd = s.delayEnd := rfl
@[simp] theorem endEmission_opA : (endEmission s).opA = s.opA := rfl
@[simp] theorem endEmission_opB : (endEmission s).opB = s.opB := rfl
@[simp] theorem endEmission_opC : (endEmission s).opC = s.opC := rfl
@[simp] theorem endEmission_done : (endEmission s).done = true := rfl
@[simp] theorem endEmission_werr : (endEmission s).werr = s.werr := rfl
@[simp] theorem endEmission_lock : (endEmission s).lock = s.lock := rfl
@[simp] theorem endEmission_regs :
    (endEmission s).regs = { s.regs with latchRep := s.regs.prog.repCyc, latchValid := true } := rfl
@[simp] theorem endEmission_phase : (endEmission s).phase = .idle := rfl
@[simp] theorem endEmission_op : (endEmission s).op = s.op := rfl
@[simp] theorem endEmission_k : (endEmission s).k = s.k := rfl
@[simp] theorem endEmission_trace : (endEmission s).trace = s.trace := rfl
@[simp] theorem endEmission_old : (endEmission s).old = s.old := rfl
@[simp] theorem endEmission_settled : (endEmission s).settled = s.settled := rfl
@[simp] theorem endEmission_reads : (endEmission s).reads = s.reads := rfl
@[simp] theorem endEmission_busData : (endEmission s).busData = s.busData := rfl
@[simp] theorem endEmission_inbox : (endEmission s).inbox = s.inbox := rfl
@[simp] theorem endEmission_downstream : (endEmission s).downstream = s.downstream := rfl

@[simp] theorem noteRead_clkPeriod (off : Nat) : (noteRead off s).clkPeriod = s.clkPeriod := rfl
@[simp] theorem noteRead_repRate (off : Nat) : (noteRead off s).repRate = s.repRate := rfl
@[simp] theorem noteRead_deadTime (off : Nat) : (noteRead off s).deadTime = s.deadTime := rfl
@[simp] theorem noteRead_pulseLen (off : Nat) : (noteRead off s).pulseLen = s.pulseLen := rfl
@[simp] theorem noteRead_auxTime (off : Nat) : (noteRead off s).auxTime = s.auxTime := rfl
@[simp] theorem noteRead_param (off : Nat) : (noteRead off s).param = s.param := rfl
@[simp] theorem noteRead_delayBegin (off : Nat) : (noteRead off s).delayBegin = s.delayBegin := rfl
@[simp] theorem noteRead_delayEnd (off : Nat) : (noteRead off s).delayEnd = s.delayEnd := rfl
@[simp] theorem noteRead_opA (off : Nat) : (noteRead off s).opA = s.opA := rfl
@[simp] theorem noteRead_opB (off : Nat) : (noteRead off s).opB = s.opB := rfl
@[simp] theorem noteRead_opC (off : Nat) : (noteRead off s).opC = s.opC := rfl
@[simp] theorem noteRead_done (off : Nat) : (noteRead off s).done = s.done := rfl
@[simp] theorem noteRead_werr (off : Nat) : (noteRead off s).werr = s.werr := rfl
@[simp] theorem noteRead_lock (off : Nat) : (noteRead off s).lock = s.lock := rfl
@[simp] theorem noteRead_regs (off : Nat) : (noteRead off s).regs = s.regs := rfl
@[simp] theorem noteRead_phase (off : Nat) : (noteRead off s).phase = s.phase := rfl
@[simp] theorem noteRead_op (off : Nat) : (noteRead off s).op = s.op := rfl
@[simp] theorem noteRead_k (off : Nat) : (noteRead off s).k = s.k := rfl
@[simp] theorem noteRead_trace (off : Nat) : (noteRead off s).trace = s.trace := rfl
@[simp] theorem noteRead_old (off : Nat) : (noteRead off s).old = s.old := rfl
@[simp] theorem noteRead_settled (off : Nat) :
    (noteRead off s).settled = (s.settled || (wordAt off == some (.word .status) && s.done && !busy s)) := rfl
@[simp] theorem noteRead_reads (off : Nat) : (noteRead off s).reads = s.reads + 1 := rfl
@[simp] theorem noteRead_busData (off : Nat) : (noteRead off s).busData = s.busData := rfl
@[simp] theorem noteRead_inbox (off : Nat) : (noteRead off s).inbox = s.inbox := rfl
@[simp] theorem noteRead_downstream (off : Nat) : (noteRead off s).downstream = s.downstream := rfl

@[simp] theorem applyReset_clkPeriod : (applyReset s).clkPeriod = State.reset.clkPeriod := rfl
@[simp] theorem applyReset_repRate : (applyReset s).repRate = State.reset.repRate := rfl
@[simp] theorem applyReset_deadTime : (applyReset s).deadTime = State.reset.deadTime := rfl
@[simp] theorem applyReset_pulseLen : (applyReset s).pulseLen = State.reset.pulseLen := rfl
@[simp] theorem applyReset_auxTime : (applyReset s).auxTime = State.reset.auxTime := rfl
@[simp] theorem applyReset_param : (applyReset s).param = State.reset.param := rfl
@[simp] theorem applyReset_delayBegin : (applyReset s).delayBegin = State.reset.delayBegin := rfl
@[simp] theorem applyReset_delayEnd : (applyReset s).delayEnd = State.reset.delayEnd := rfl
@[simp] theorem applyReset_opA : (applyReset s).opA = State.reset.opA := rfl
@[simp] theorem applyReset_opB : (applyReset s).opB = State.reset.opB := rfl
@[simp] theorem applyReset_opC : (applyReset s).opC = State.reset.opC := rfl
@[simp] theorem applyReset_done : (applyReset s).done = State.reset.done := rfl
@[simp] theorem applyReset_werr : (applyReset s).werr = State.reset.werr := rfl
@[simp] theorem applyReset_lock : (applyReset s).lock = State.reset.lock := rfl
@[simp] theorem applyReset_regs : (applyReset s).regs = State.reset.regs := rfl
@[simp] theorem applyReset_phase : (applyReset s).phase = State.reset.phase := rfl
@[simp] theorem applyReset_op : (applyReset s).op = State.reset.op := rfl
@[simp] theorem applyReset_k : (applyReset s).k = State.reset.k := rfl
@[simp] theorem applyReset_trace : (applyReset s).trace = s.trace := rfl
@[simp] theorem applyReset_old : (applyReset s).old = State.reset.old := rfl
@[simp] theorem applyReset_settled : (applyReset s).settled = State.reset.settled := rfl
@[simp] theorem applyReset_reads : (applyReset s).reads = s.reads := rfl
@[simp] theorem applyReset_busData : (applyReset s).busData = s.busData := rfl
@[simp] theorem applyReset_inbox : (applyReset s).inbox = s.inbox := rfl
@[simp] theorem applyReset_downstream : (applyReset s).downstream = s.downstream := rfl

end Sys2Proof.Machine
end

