-- ==== Sys2Proof/Laws/Engine.lean ====
section
/-!
SUPPORT. The engine: every COMPUTE step ends in a next state, the end of a command that builds a program, and the EMIT step.
-/

namespace Sys2Proof.Machine

/-- No command ends in a fault or a refusal. -/
theorem exec_next (i : Instr) (s : State) : ∃ t, exec i s = .next t := by
  cases i <;> first | exact finishPlain_next _ _ | exact finishBuilding_next _ _

theorem engineStep_next (s : State) : ∃ t, engineStep s = .next t := by
  rw [engineStep]
  split
  · exact ⟨_, rfl⟩
  · rw [computeStep]
    split
    · exact exec_next _ _
    · exact ⟨_, rfl⟩
  · exact ⟨_, rfl⟩

/-- What a mode command's rule answers (R191): its windows kept, the builder's program committed. -/
theorem modeCommand_ok {synth : State → F64 → Except CmdError (Vector Window 10)} {s t : State} :
    modeCommand synth s = .ok t ↔ PeriodOk s.clkPeriod ∧ ∃ w g, synth s s.repRate = .ok w ∧
      buildProgram s.clkPeriod (latchedRate s) w 10 s.deadTime s.repRate = .ok g ∧
      t = commitProgram g (writeWindows w s) := by
  rw [modeCommand, bind_ok_iff]
  constructor
  · rintro ⟨_, h1, h2⟩
    obtain ⟨w, h3, h4⟩ := bind_ok_iff.1 h2
    obtain ⟨g, h5, h6⟩ := bind_ok_iff.1 h4
    cases h6
    exact ⟨(checkPeriod_ok _).1 h1, w, g, h3, h5, rfl⟩
  · rintro ⟨h1, w, g, h3, h5, rfl⟩
    exact ⟨(), (checkPeriod_ok _).2 h1, bind_ok_iff.2 ⟨w, h3, bind_ok_iff.2 ⟨g, h5, rfl⟩⟩⟩

/-- What BUILD's rule answers (R253). -/
theorem buildCommand_ok {s t : State} :
    buildCommand s = .ok t ↔ PeriodOk s.clkPeriod ∧ ∃ g,
      buildProgram s.clkPeriod (latchedRate s) (bufferWindows s) (winCountField s.param) s.deadTime s.repRate = .ok g ∧
      t = commitProgram g s := by
  rw [buildCommand, bind_ok_iff]
  constructor
  · rintro ⟨_, h1, h2⟩
    obtain ⟨g, h5, h6⟩ := bind_ok_iff.1 h2
    cases h6
    exact ⟨(checkPeriod_ok _).1 h1, g, h5, rfl⟩
  · rintro ⟨h1, g, h5, rfl⟩
    exact ⟨(), (checkPeriod_ok _).2 h1, bind_ok_iff.2 ⟨g, h5, rfl⟩⟩

/-- Every EMIT step, in one (R251, R252, R95): past the last write nothing; a write not accepted is held; a write accepted is
in the trace, and the last one ends the command. -/
theorem emitStep_cases (s : State) :
    (42 ≤ s.k ∧ emitStep s = s) ∨
    (s.k < 42 ∧ downstreamAccepts s.downstream = false ∧
      emitStep s = { s with downstream := afterOffer s.downstream }) ∨
    (s.k < 41 ∧ downstreamAccepts s.downstream = true ∧
      emitStep s = { s with
        trace := s.trace ++ [(BitVec.ofNat 32 ((seqWrite s.regs.prog s.k).1 * 4), (seqWrite s.regs.prog s.k).2)]
        k := s.k + 1, downstream := afterOffer s.downstream }) ∨
    (s.k = 41 ∧ downstreamAccepts s.downstream = true ∧
      emitStep s = { s with
        trace := s.trace ++ [(BitVec.ofNat 32 ((seqWrite s.regs.prog 41).1 * 4), (seqWrite s.regs.prog 41).2)]
        k := 42, downstream := afterOffer s.downstream, phase := .idle, done := true
        regs := { s.regs with latchRep := s.regs.prog.repCyc, latchValid := true } }) := by
  by_cases h : s.k < 42
  · have hw : heldWrite s = some (seqWrite s.regs.prog s.k) := if_pos h
    cases hd : downstreamAccepts s.downstream
    · exact .inr (.inl ⟨h, rfl, by simp only [emitStep, hw, hd, Bool.false_eq_true, if_false]⟩)
    · by_cases hk : s.k = 41
      · exact .inr (.inr (.inr ⟨hk, rfl, by simp only [emitStep, hw, hd, if_true, writeAccepted, hk]; rfl⟩))
      · exact .inr (.inr (.inl ⟨by omega, rfl, by simp only [emitStep, hw, hd, if_true, writeAccepted, if_neg hk]; rfl⟩))
  · exact .inl ⟨by omega, by
      have hw : heldWrite s = none := if_neg h
      rw [emitStep, hw]⟩

/-- The windows of a mode whose own checks pass are the given ones of Safety (R194 to R216). -/
theorem synth_given {s : State} {c : Instr} (hc : OperandsPass c s) :
    (c = .sync → syncSynth s s.repRate = .ok (tenOf (givenWindow c s))) ∧
    (c = .delta → deltaSynth s s.repRate = .ok (tenOf (givenWindow c s))) ∧
    (c = .one → oneSynth s s.repRate = .ok (tenOf (givenWindow c s))) ∧
    (c = .seq → seqSynth s s.repRate = .ok (tenOf (givenWindow c s))) := by
  obtain ⟨h1, h2, h3⟩ := hc
  refine ⟨?_, ?_, ?_, ?_⟩
  · rintro rfl
    exact bind_ok_iff.2 ⟨_, checkCommon_ok.2 ⟨h1 (by decide), rfl⟩, rfl⟩
  · rintro rfl
    exact bind_ok_iff.2 ⟨_, checkCommon_ok.2 ⟨h1 (by decide), rfl⟩, rfl⟩
  · rintro rfl
    obtain ⟨h4, h5⟩ := h2 rfl
    refine raiseIf_bind_ok.2 ⟨?_, ?_⟩
    · simp only [channelField, h4, h5, decide_true, Bool.and_self, Bool.not_true]
    · simp only [pure, Except.pure, Except.ok.injEq]
      congr 1; funext k
      have : (k.val = channelField s.param - 1) ↔ (k.val + 1 = (s.param.extractLsb' 4 4).toNat) := by
        simp only [channelField]; omega
      simp only [this]; rfl
  · rintro rfl
    refine bind_ok_iff.2 ⟨_, checkCommon_ok.2 ⟨h1 (by decide), rfl⟩, ?_⟩
    simp only [pure, Except.pure, Except.ok.injEq]
    congr 1; funext k
    simp only [givenWindow, seqWindow, numChField]
    have : ((s.param.extractLsb' 0 4).toNat : Int) - k.val - 1 + 1 = ((s.param.extractLsb' 0 4).toNat : Int) - k.val := by omega
    rw [this]; rfl

/-- What the builder raises, each program-building command reports (R191, R196, R202, R207, R217, R253). -/
theorem exec_builder_error {s : State} {c : Instr} {e : CmdError} (hm : c ∈ buildingCommands) (hp : PeriodOk s.clkPeriod)
    (hc : OperandsPass c s)
    (h : buildProgram s.clkPeriod (latchedRate s) (tenOf (givenWindow c s)) 10 s.deadTime s.repRate = .error e) :
    exec c s = .next (raiseError e s) := by
  have hmode : ∀ synth, synth s s.repRate = .ok (tenOf (givenWindow c s)) →
      finishBuilding s (modeCommand synth s) = .next (raiseError e s) := by
    intro synth hs
    have : modeCommand synth s = .error e := by
      simp only [modeCommand, (checkPeriod_ok _).2 hp, hs, bind, Except.bind, numChannels, h]
    rw [this]; rfl
  obtain ⟨h1, h2, h3, h4⟩ := synth_given hc
  simp only [buildingCommands, List.mem_cons, List.not_mem_nil, or_false] at hm
  rcases hm with rfl | rfl | rfl | rfl | rfl
  · exact hmode _ (h1 rfl)
  · exact hmode _ (h2 rfl)
  · exact hmode _ (h3 rfl)
  · exact hmode _ (h4 rfl)
  · have hw : bufferWindows s = tenOf (givenWindow .build s) := rfl
    have hn : winCountField s.param = 10 := hc.2.2 rfl
    have : buildCommand s = .error e := by
      simp only [buildCommand, (checkPeriod_ok _).2 hp, hw, hn, bind, Except.bind, h]
    show finishBuilding s (buildCommand s) = _
    rw [this]; rfl

/-- A run of a step that answers a next state goes on from there. -/
theorem run_next (M : Host.Core) (n : Nat) {s t : M.State} (h : M.step s = .next t) : M.run (n + 1) s = M.run n t := by
  rw [Host.Core.run, h]

/-- A run from a state that its step leaves alone stays there. -/
theorem run_fixed (M : Host.Core) (n : Nat) {s : M.State} (h : M.step s = .next s) : M.run n s = .next s := by
  induction n with
  | zero => rfl
  | succ n ih => rw [run_next M n h, ih]

end Sys2Proof.Machine
end

