-- ==== Sys2Proof/Laws/PerInstr.lean ====
section
/-!
SUPPORT. One family of statements about every command as syntax: its word is a legal command word (R110 to R112), and it
crosses the host bus as four bytes with only the first one not zero (R82).
-/

namespace Sys2Proof.Laws.WordForm

/-- The word of a command has the fields the encoder means, and they are legal. -/
def Statement (i : Sys2Proof.Instr) : Prop :=
  splitWord (encode i) = commandWord i ∧ (commandWord i).wellFormed = true ∧ (encodeBytes i).tail = [0, 0, 0]

theorem quant : Statement .quant := by unfold Statement; decide
theorem cyc2sec : Statement .cyc2sec := by unfold Statement; decide
theorem validate : Statement .validate := by unfold Statement; decide
theorem regidx : Statement .regidx := by unfold Statement; decide
theorem regaddr : Statement .regaddr := by unfold Statement; decide
theorem sync : Statement .sync := by unfold Statement; decide
theorem delta : Statement .delta := by unfold Statement; decide
theorem one : Statement .one := by unfold Statement; decide
theorem seq : Statement .seq := by unfold Statement; decide
theorem build : Statement .build := by unfold Statement; decide

end Sys2Proof.Laws.WordForm
end

