-- ==== Sys2Proof/Laws/Window.lean ====
section
/-!
SUPPORT. Host accesses of mapped words: where a word stands, what the step makes of the access, what an accepted store does to
each 64-bit register, and what a host store can do at all.
-/

namespace Sys2Proof.Machine

theorem wordOffset_mod_four (w : WindowWord) : wordOffset w % 4 = 0 := by
  cases w with
  | word r => cases r <;> simp [wordOffset, reg32Offset] <;> omega
  | low r => cases r <;> simp [wordOffset, reg64Offset] <;> omega
  | high r => cases r <;> simp [wordOffset, reg64Offset] <;> omega

theorem wordOffset_lt_mapped (w : WindowWord) : wordOffset w < 0x210 := by
  cases w with
  | word r => cases r <;> simp [wordOffset, reg32Offset] <;> omega
  | low r => cases r <;> simp [wordOffset, reg64Offset] <;> omega
  | high r => cases r <;> simp [wordOffset, reg64Offset] <;> omega

/-- The word that stands at a word's offset is that word (R33). -/
theorem wordAt_wordOffset (w : WindowWord) : wordAt (wordOffset w) = some w := by
  cases w with
  | word r => cases r <;> first | rfl | (rename_i k; fin_cases k <;> rfl)
  | low r => cases r <;> first | rfl | (rename_i k; fin_cases k <;> rfl)
  | high r => cases r <;> first | rfl | (rename_i k; fin_cases k <;> rfl)

theorem toNat_wordOffset (w : WindowWord) : (BitVec.ofNat 10 (wordOffset w)).toNat = wordOffset w := by
  rw [BitVec.toNat_ofNat]
  exact Nat.mod_eq_of_lt (Nat.lt_trans (wordOffset_lt_mapped w) (by decide))

theorem accessAligned_wordOffset (w : WindowWord) : accessAligned 4 (BitVec.ofNat 10 (wordOffset w)) = true := by
  simp only [accessAligned, toNat_wordOffset, wordOffset_mod_four w]
  rfl

/-- The step that serves a host write of a mapped word. -/
theorem step_write {s : State} {w : WindowWord} {v : Word} {rest : List Event}
    (h : s.inbox = .write 4 (BitVec.ofNat 10 (wordOffset w)) v :: rest) :
    step s = .next { hostStore (wordOffset w) v { s with inbox := rest } with busData := 0 } := by
  simp only [step, nextMove, h, serveEvent, hostWrite, accessAligned_wordOffset, if_true, answerHost, toNat_wordOffset]

/-- The step that serves a host read of a mapped word. -/
theorem step_read {s : State} {w : WindowWord} {rest : List Event}
    (h : s.inbox = .read 4 (BitVec.ofNat 10 (wordOffset w)) :: rest) :
    step s = .next { noteRead (wordOffset w) { s with inbox := rest } with
      busData := hostWordValue { s with inbox := rest } w } := by
  simp only [step, nextMove, h, serveEvent, hostRead, accessAligned_wordOffset, if_true, answerHost, toNat_wordOffset,
    hostLoad, wordAt_wordOffset]

/-- A host store at an offset can do nothing but ignore the write, clear WERR, accept a command, or store one word while the
engine is idle (R34, R36, R54 to R56, R85). -/
theorem hostStore_cases (off : Nat) (v : Word) (s : State) :
    hostStore off v s = ignoreWrite s ∨ hostStore off v s = s ∨ hostStore off v s = { s with werr := false } ∨
    (busy s = false ∧ hostStore off v s = acceptCommand v s) ∨
    ∃ w, busy s = false ∧ (wordClass w = .readWrite ∨ (wordClass w = .lockable ∧ s.lock = false)) ∧
      hostStore off v s = storeWord w v s := by
  unfold hostStore
  split
  · exact .inl rfl
  · rename_i w _
    cases hc : wordClass w with
    | status =>
      simp only
      split
      · exact .inr (.inr (.inl rfl))
      · exact .inr (.inl rfl)
    | readOnly => exact .inl rfl
    | command =>
      cases hb : busy s with
      | true => exact .inl rfl
      | false => exact .inr (.inr (.inr (.inl ⟨rfl, rfl⟩)))
    | lockable =>
      cases hb : busy s with
      | true => exact .inl rfl
      | false =>
        cases hl : s.lock with
        | true => exact .inl rfl
        | false => exact .inr (.inr (.inr (.inr ⟨w, rfl, .inr ⟨hc, rfl⟩, rfl⟩)))
    | readWrite =>
      cases hb : busy s with
      | true => exact .inl rfl
      | false => exact .inr (.inr (.inr (.inr ⟨w, rfl, .inl hc, rfl⟩)))

/-- Changing one writable 64-bit register changes no other (R57). -/
theorem reg64Value_modify64 (r r' : Reg64) (f : DWord → DWord) (s : State) (h : reg64Class r ≠ .readOnly) :
    reg64Value (modify64 r f s).regs (modify64 r f s) r' =
      if r' = r then f (reg64Value s.regs s r) else reg64Value s.regs s r' := by
  cases r <;> simp [reg64Class] at h <;> cases r' <;> simp [modify64, reg64Value, modifyWindows] <;>
    (try (rename_i k k'; by_cases hk : k' = k <;> simp [hk, Vector.getElem_set, eq_comm];
          try (intro hh; exact absurd (Fin.ext hh.symm) hk)))

theorem readRegs_settled {s : State} (h : s.settled = true) : readRegs s = fun _ => s.regs := by
  funext lane
  simp [readRegs, h]

theorem statusRegs_idle {s : State} (h : busy s = false) : statusRegs s = fun _ => s.regs := by
  funext lane
  simp [statusRegs, h]

end Sys2Proof.Machine
end

