-- ==== Sys2Proof/Tests/Slice0.lean ====
section
/-!
SUPPORT. The model's own tests: what WellFormed refuses, each command's word written out from R110 and R111, one-step tests
whose expected values are the spec's vectors (95_test_vectors.md, named in each docstring), and for every statement with
hypotheses a witness that meets them together.
-/

namespace Sys2Proof.Tests

/- The tests run one after another: in parallel their kernel evaluations hold a thread each. -/
set_option Elab.async false

open Sys2Proof Sys2Proof.Machine

/-! ## WellFormed: an ill-formed term for each check -/

theorem test_wf_reserved_bits : (CommandWord.mk 0x1 0x1).wellFormed = false := by decide
theorem test_wf_reserved_opcodes :
    [0x0#4, 0x6, 0x7, 0xD, 0xE, 0xF].all (fun o => !(CommandWord.mk 0 o).wellFormed) = true := by decide
theorem test_wf_access_width :
    [0, 1, 2, 3, 5, 8].all (fun n => !(Event.read n 0x004).wellFormed && !(Event.write n 0x004 0).wellFormed) = true := by
  decide
theorem test_wf_access_alignment :
    [0x001#10, 0x002, 0x003, 0x3FF].all (fun o => !(Event.read 4 o).wellFormed && !(Event.write 4 o 0).wellFormed) = true := by
  decide
theorem test_wf_wri64_too_large : (HostLine.wri64 .opA (2 ^ 64)).wellFormed = false := by decide
theorem test_wf_wri64_too_small : (HostLine.wri64 .opA (-(2 ^ 63) - 1)).wellFormed = false := by decide

/-! ## Decoding: each command's word, bit by bit as R110 and R111 give it, and the bytes as R82 lays them out -/

theorem test_decode_quant : decode [0b00000001, 0, 0, 0] = .ok (.quant, []) := by decide
theorem test_decode_cyc2sec : decode [0b00000010, 0, 0, 0] = .ok (.cyc2sec, []) := by decide
theorem test_decode_validate : decode [0b00000011, 0, 0, 0] = .ok (.validate, []) := by decide
theorem test_decode_regidx : decode [0b00000100, 0, 0, 0] = .ok (.regidx, []) := by decide
theorem test_decode_regaddr : decode [0b00000101, 0, 0, 0] = .ok (.regaddr, []) := by decide
theorem test_decode_sync : decode [0b00001000, 0, 0, 0] = .ok (.sync, []) := by decide
theorem test_decode_delta : decode [0b00001001, 0, 0, 0] = .ok (.delta, []) := by decide
theorem test_decode_one : decode [0b00001010, 0, 0, 0] = .ok (.one, []) := by decide
theorem test_decode_seq : decode [0b00001011, 0, 0, 0] = .ok (.seq, []) := by decide
theorem test_decode_build : decode [0b00001100, 0, 0, 0] = .ok (.build, []) := by decide
/-- R82: the byte at the highest address holds bits 31:24, which are reserved. -/
theorem test_decode_high_byte : decode [0x01, 0, 0, 0x80] = .error .reservedBits := by decide
theorem test_decode_reserved_opcode : decode [0x06, 0, 0, 0] = .error .reservedOpcode := by decide
theorem test_decode_short : decode [0x01, 0, 0] = .error .truncated := by decide

/-! ## One step on small states -/

/-- The block just after acceptance of a command, at the reset period. -/
def ready : State := { State.reset with lock := true, phase := .compute }

/-- The state a step or a command ends in, where it ends in one. -/
def after (o : Host.Outcome State Fault Refusal) : Option State :=
  match o with
  | .next t => some t
  | .fault _ => none
  | .refused _ => none

/-- What a test of an error looks at: ERR_CODE, ERR_CHAN, ERR_INFO, and RESULT, which an error leaves alone. -/
def report (o : Host.Outcome State Fault Refusal) : Option (BitVec 8 × BitVec 4 × DWord × DWord) :=
  (after o).map fun t => (t.regs.errCode, t.regs.errChan, t.regs.errInfo, t.regs.result)

/-- V-QUANT-8: a tie goes to the even integer. -/
theorem test_quant_tie : (after (exec .quant { ready with opA := 0x3E55798EE2308C3A })).map (·.regs.result) = some 2 := by
  decide +kernel
/-- V-QUANT-14: the first time that overflows; RESULT keeps its value. -/
theorem test_quant_overflow :
    report (exec .quant { ready with opA := 0x40412E0BE81E3F8F }) = some (0x02, 15, 0x40412E0BE815A889, 0) := by
  decide +kernel
/-- V-C2S-3. -/
theorem test_cyc2sec_rounds :
    (after (exec .cyc2sec { ready with opA := 125 })).map (·.regs.result) = some 0x3EB0C6F7A0B5ED8E := by decide +kernel
/-- V-C2S-6: the upper word is ignored. -/
theorem test_cyc2sec_low_word :
    (after (exec .cyc2sec { ready with opA := 0xFFFFFFFF00000005 })).map (·.regs.result) = some 0x3E65798EE2308C3A := by
  decide +kernel
/-- V-VAL-3: a negative start alone is no sentinel. -/
theorem test_validate_negative_start :
    (after (exec .validate { ready with opA := BitVec.ofInt 64 (-1), opB := 5, opC := 10 })).map
      (fun t => (t.regs.cls, t.regs.result)) = some (0b10, 10) := by decide
/-- V-VAL-12: the latched rate is the one used. -/
theorem test_validate_latched :
    report (exec .validate { ready with
      opA := 125, opB := 126, regs := { CmdRegs.reset with latchValid := true, latchRep := 125 } }) = some (0x05, 15, 0, 0) := by
  decide
/-- V-RI-2. -/
theorem test_regidx_stop :
    (after (exec .regidx { ready with opA := 0x203 })).map (·.regs.result) = some 0x0000002400000009 := by decide
/-- V-RI-6. -/
theorem test_regidx_range : report (exec .regidx { ready with opA := 0x00B }) = some (0x11, 15, 0, 0) := by decide
/-- V-RA-4. -/
theorem test_regaddr_last : (after (exec .regaddr { ready with opA := 41 })).map (·.regs.result) = some 0xA4 := by decide
/-- V-RA-6. -/
theorem test_regaddr_range :
    report (exec .regaddr { ready with opA := 0x8000000000000000 }) = some (0x10, 15, 0, 0) := by decide

/-- The times of V-SYNC-1 (program P1): 2us, 150ns, 1us. -/
def syncReady : State :=
  { ready with repRate := 0x3EC0C6F7A0B5ED8D, deadTime := 0x3E8421F5F40D8376, pulseLen := 0x3EB0C6F7A0B5ED8D }

/-- V-DELTA-1: 2us, 150ns, 200ns, three channels. -/
def deltaReady : State := { syncReady with pulseLen := 0x3E8AD7F29ABCAF48, param := 0x00A00003 }

/-- V-ONE-1 (program P2): 1us, 100ns, 500ns, channel 3. -/
def oneReady : State :=
  { ready with
    repRate := 0x3EB0C6F7A0B5ED8D, deadTime := 0x3E7AD7F29ABCAF48, pulseLen := 0x3EA0C6F7A0B5ED8D, param := 0x00A0003A }

/-- V-SEQ-1: 4us, 150ns, 100ns, two channels. -/
def seqReady : State :=
  { syncReady with repRate := 0x3ED0C6F7A0B5ED8D, pulseLen := 0x3E7AD7F29ABCAF48, param := 0x00A00002 }

/-- Program P4: slot 0 [1us, 2us], the others (3.0, 3.0). -/
def p4Windows : Vector Window 10 :=
  tenOf fun k => if k.val = 0 then ⟨0x3EB0C6F7A0B5ED8D, 0x3EC0C6F7A0B5ED8D⟩ else ⟨0x4008000000000000, 0x4008000000000000⟩

/-- Program P4 just after acceptance of BUILD. -/
def buildReady : State :=
  { syncReady with
    regs := { CmdRegs.reset with winStart := tenOf fun k => p4Windows[k].start, winStop := tenOf fun k => p4Windows[k].stop } }

/-- What a test of a program looks at: repetition rate, dead time, io_init, charge window, and one slot's window. -/
def programSeen (k : Fin 10) (o : Host.Outcome State Fault Refusal) : Option (List Word) :=
  (after o).map fun t =>
    let g := t.regs.prog
    [g.repCyc, g.deadCyc, g.ioInit, g.chgStart, g.chgStop, g.pulseStart[k], g.pulseStop[k]]

/-- V-SYNC-1. -/
theorem test_sync_program : programSeen 9 (exec .sync syncReady) = some [250, 19, 0xFFC00, 19, 106, 125, 250] := by
  decide +kernel
/-- V-SYNC-5: a pulse that starts before the midpoint. -/
theorem test_sync_insufficient :
    report (exec .sync { syncReady with pulseLen := 0x3EB421F5F40D8376 }) = some (0x0D, 0, 0, 0) := by decide +kernel
/-- V-DELTA-1. -/
theorem test_delta_windows : (after (exec .delta deltaReady)).map (fun t => (t.regs.winStart[1], t.phase)) =
    some (0x3EB92A737110E454, .emit) := by decide +kernel
/-- V-ONE-1. -/
theorem test_one_program : programSeen 2 (exec .one oneReady) = some [125, 12, 0xFFFFB, 12, 50, 62, 125] := by decide +kernel
/-- V-ONE-2: channel 10 is refused. -/
theorem test_one_channel_ten : report (exec .one { oneReady with param := 0x00A000AA }) = some (0x11, 15, 0, 0) := by
  decide +kernel
/-- V-SEQ-1. -/
theorem test_seq_program : (programSeen 0 (exec .seq seqReady)).map (·.take 3) = some [500, 19, 0xFFFFC] := by decide +kernel
/-- Program P4. -/
theorem test_build_program : programSeen 1 (exec .build buildReady) = some [250, 19, 0xFFFFE, 19, 106, 252, 252] := by
  decide +kernel
/-- V-SYNC-12 as BUILD: 90ns is below the minimum dead time. -/
theorem test_build_dead_time :
    report (exec .build { buildReady with deadTime := 0x3E7828C0BE769DC1 }) = some (0x0A, 15, 0, 0) := by decide +kernel

/-- Program P3: STATUS as the host reads it after a write that the lock refuses. -/
theorem test_locked_period :
    (after (step { State.reset with lock := true, done := true, inbox := [.write 4 0x008 0xE826D695] })).map statusWord =
      some 0x0F00001A := by decide
/-- R122: 1.5e-7 as the literal of program P1. -/
theorem test_decimal_literal : literalBits (.decimal false 15 (-8)) = 0x3E8421F5F40D8376 := by decide +kernel
/-- R120: the offset and data of program P2's line for WIN_STOP. -/
theorem test_assemble_line : assemble [.wr (.high (.winStop 9)) 5, .cmd .one] = [.write 4 0x19C 5, .write 4 0x000 0xA] := by
  decide

/-! ## Witnesses: for every statement with hypotheses, a state and operands that meet them together -/

/-- The block in IDLE, after a completed command, with a schedule of host accesses. -/
def idle (inbox : List Event) : State := { State.reset with lock := true, done := true, inbox := inbox }

/-- The block in COMPUTE, with a schedule of host accesses. -/
def computing (inbox : List Event) : State := { ready with op := encode .sync, inbox := inbox }

/-- A program that the rules accept: P1's. -/
def p1Windows : Vector Window 10 := tenOf fun _ => ⟨0x3EB0C6F7A0B5ED8D, 0x3EC0C6F7A0B5ED8D⟩

/-- The block in EMIT with P1's program, `k` writes issued and recorded. -/
def emitting (k : Nat) (inbox : List Event) : State :=
  let g := shadowOf (programOf syncReady.clkPeriod syncReady.repRate syncReady.deadTime p1Windows)
  { syncReady with
    phase := .emit, k := k, trace := sequencePrefix g k, inbox := inbox
    regs := { CmdRegs.reset with prog := g, progValid := true } }

/-- The operands of the spec's vectors, for the statements about one command. -/
def withOperands (a b c : DWord) : State := { ready with opA := a, opB := b, opC := c }

/-- With nothing scheduled a step is an engine step, which always ends in a next state. -/
theorem step_next_engine {s : State} (h : s.inbox = []) : ∃ t, step s = .next t := by
  obtain ⟨t, ht⟩ := engineStep_next s
  exact ⟨t, by simp only [step, nextMove, h, ht]⟩

theorem witness_DecodeInvertsEncode :
    Instr.build.wellFormed = true ∧ decode [0x0C, 0, 0, 0, 0xFF] = .ok (.build, [0xFF]) := by decide

theorem witness_StepRunsDecodedCommand :
    (computing []).phase = .compute ∧ decodeWord (computing []).op = .ok .sync ∧ (computing []).inbox = [] ∧
    (computing [.engine, .poll]).inbox = .engine :: [.poll] ∧ (idle []).phase = .idle ∧ (idle []).inbox = [] := by decide

theorem witness_CommandAcceptance :
    (idle [.write 4 0x000 0x8]).inbox = .write 4 0x000 0x8 :: [] ∧ (idle [.write 4 0x000 0x8]).phase = .idle ∧
    (computing [.write 4 0x000 0x8]).inbox = .write 4 0x000 0x8 :: [] ∧
    (computing [.write 4 0x000 0x8]).phase ≠ .idle ∧ (emitting 41 []).phase ≠ .idle := by decide +kernel

/-- Every illegal opcode, and the lowest and the highest reserved bit (V-CMD-1 to V-CMD-4). -/
theorem witness_IllegalWordCompletes :
    [0x0#32, 0x6, 0x7, 0xD, 0xE, 0xF, 0x11, 0x80000001, 0xFFFFFFFF].all (fun w =>
      (idle [.write 4 0x000 w, .engine]).phase == .idle &&
      (idle [.write 4 0x000 w, .engine]).inbox == .write 4 0x000 w :: .engine :: [] &&
      (w.extractLsb' 4 28 != 0 || [0x0#4, 0x6, 0x7, 0xD, 0xE, 0xF].contains (w.extractLsb' 0 4))) = true := by decide

theorem witness_WindowMapExact :
    (0x20C : Nat) % 4 = 0 ∧ wordAt 0x20C = some (.word (.progPulseStop 9)) ∧
    wordOffset (.word (.progPulseStop 9)) = 0x20C := by
  decide

/-- V-BUS-1, V-BUS-2, and the neighbours of the one width and alignment served. -/
theorem witness_MisalignedAccessRefused :
    ∀ a ∈ [(2, 0x010#10), (3, 0x000), (5, 0x000), (8, 0x008), (4, 0x001), (4, 0x002), (4, 0x003), (4, 0x3FF)],
      (a.1 ≠ 4 ∨ a.2.toNat % 4 ≠ 0) ∧ (idle [.read a.1 a.2]).inbox = .read a.1 a.2 :: [] ∧
      (idle [.write a.1 a.2 7]).inbox = .write a.1 a.2 7 :: [] := by decide

/-- The first and the last offset of each unmapped range. -/
theorem witness_UnmappedOffsets :
    ∀ off ∈ [0x1B4#10, 0x1BC, 0x210, 0x3FC], off.toNat % 4 = 0 ∧ (∀ w, wordOffset w ≠ off.toNat) ∧
      (idle [.read 4 off]).inbox = .read 4 off :: [] ∧ (idle [.write 4 off 1]).inbox = .write 4 off 1 :: [] := by
  have h : ∀ off ∈ [0x1B4#10, 0x1BC, 0x210, 0x3FC], off.toNat % 4 = 0 ∧ wordAt off.toNat = none := by decide
  intro off hoff
  refine ⟨(h off hoff).1, fun w hw => ?_, rfl, rfl⟩
  have h1 := wordAt_wordOffset w
  rw [hw, (h off hoff).2] at h1
  cases h1

theorem witness_IgnoredWritesSetOnlyWerr :
    ((computing [wrEvent (.word .cmd) 1]).phase ≠ .idle ∧ WindowWord.word .cmd ≠ .word .status) ∧
    ((emitting 0 [wrEvent (.low .repRate) 1]).phase ≠ .idle ∧ WindowWord.low .repRate ≠ .word .status) ∧
    WindowWord.word (.progPulseStop 9) ∈ readOnlyWords ∧ WindowWord.word .latchRep ∈ readOnlyWords ∧
    (idle [wrEvent (.high .clkPeriod) 1]).lock = true ∧
    (idle [wrEvent (.high .clkPeriod) 1]).inbox =
      .write 4 (BitVec.ofNat 10 (wordOffset (.high .clkPeriod))) 1 :: [] := by decide +kernel

theorem witness_StatusWriteClearsWerr :
    (idle [.write 4 0x004 0x8]).inbox = .write 4 0x004 0x8 :: [] ∧
    (computing [.write 4 0x004 0xFFFFFFF7]).inbox = .write 4 0x004 0xFFFFFFF7 :: [] := by decide

theorem witness_AcceptedWriteChangesOneWord :
    (idle [wrEvent (.low (.winStop 9)) 5]).phase = .idle ∧ Reg64.winStop 9 ∈ writableRegs ∧
    (idle [wrEvent (.low (.winStop 9)) 5]).inbox = .write 4 (BitVec.ofNat 10 (wordOffset (.low (.winStop 9)))) 5 :: [] ∧
    State.reset.lock = false ∧ State.reset.phase = .idle ∧
    (idle [.write 4 0x030 0xFFFFFFFF]).inbox = .write 4 0x030 0xFFFFFFFF :: [] := by decide

theorem witness_StatusWordLayout : State.reset.k ≤ 42 ∧ (emitting 42 []).k = 42 := by decide +kernel

theorem witness_SettledReadsAreExact :
    (idle [rdEvent (.high .result)]).settled = true ∧
    (idle [rdEvent (.high .result)]).inbox = .read 4 (BitVec.ofNat 10 (wordOffset (.high .result))) :: [] := by decide

theorem witness_UnsettledReadsOldOrNew :
    WindowWord.low .result ≠ .word .status ∧ { computing [rdEvent (.low .result)] with settled := false }.settled = false ∧
    { computing [rdEvent (.low .result)] with settled := false }.inbox =
      .read 4 (BitVec.ofNat 10 (wordOffset (.low .result))) :: [] := by decide

theorem witness_StatusReads :
    (emitting 7 [.read 4 0x004]).inbox = .read 4 0x004 :: [] ∧ (idle [.read 4 0x004]).inbox = .read 4 0x004 :: [] ∧
    (idle [.read 4 0x004]).phase = .idle ∧ (idle [.read 4 0x004]).done = true := by decide +kernel

theorem witness_ResetFromAnyState : (emitting 7 [.reset, .engine]).inbox = .reset :: [.engine] := by decide +kernel

/-- Pairs of finite operands: a rounded sum and product, a divisor of 0, a zero over zero, a sum of 0 of each sign, and the
largest finite value with the half step that makes an infinity of it and with the value just below that. -/
def finitePairs : List (F64 × F64) :=
  [(0x3EB0C6F7A0B5ED8D, 0x3E412E0BE826D695), (0x3FF0000000000000, 0x8000000000000000), (0, 0x8000000000000000),
    (0x3FF0000000000000, 0xBFF0000000000000), (0x8000000000000000, 0x8000000000000000),
    (0x7FEFFFFFFFFFFFFF, 0x7C90000000000000), (0x7FEFFFFFFFFFFFFF, 0x7C8FFFFFFFFFFFFF)]

theorem witness_OperationsRoundToNearestEven :
    finitePairs.all (fun q => decide (IsFinite q.1 ∧ IsFinite q.2)) = true ∧
    finitePairs.map (fun q => decide (units q.1 + units q.2 = 0)) = [false, false, true, true, true, false, false] ∧
    finitePairs.map (fun q => (decide (units q.1 = 0), decide (units q.2 = 0))) =
      [(false, false), (false, true), (true, true), (false, false), (true, true), (false, false), (false, false)] ∧
    isInf 0x7FF0000000000000 = true ∧ isInf 0xFFF0000000000000 = true ∧ isNaN 0x7FF8000000000000 = true := by
  decide +kernel

/-- R15: the same pairs' sums, as IEEE 754 has them. -/
theorem test_sums : finitePairs.map (fun q => fadd q.1 q.2) =
    [0x3EB0E953B8863B3A, 0x3FF0000000000000, 0, 0, 0x8000000000000000, 0x7FF0000000000000, 0x7FEFFFFFFFFFFFFF] := by
  decide +kernel

theorem witness_IntegerConversions :
    ((2 : Int) ^ 53).natAbs ≤ 2 ^ 53 ∧ (-(2 : Int) ^ 53).natAbs ≤ 2 ^ 53 ∧
    isNaN 0x3FE0000000000000 = false ∧ isInf 0x3FE0000000000000 = false := by decide

/-- V-PER-1 to V-PER-4. -/
theorem witness_PeriodCheckedFirst :
    [0x0#64, 0x8000000000000000, 0xBE412E0BE826D695, 0x7FF8000000000000, 0x7FF0000000000000].all (fun p =>
      !decide (PeriodOk { syncReady with clkPeriod := p }.clkPeriod)) = true ∧
    Instr.cyc2sec ∈ [Instr.quant, .cyc2sec] ++ buildingCommands ∧
    Instr.build ∈ [Instr.quant, .cyc2sec] ++ buildingCommands := by decide +kernel

theorem witness_PeriodCheckedFirst_valid :
    PeriodOk syncReady.clkPeriod ∧ syncReady.regs.errCode = 0 ∧ ∃ t, exec .sync syncReady = .next t :=
  ⟨by decide +kernel, by decide, exec_next _ _⟩

/-- V-QUANT-12 and V-QUANT-13: the largest times accepted; and both zeros. -/
theorem witness_QuantResult :
    [0x40412E0BE815A889#64, 0x40412E0BE81E3F8E, 0x0, 0x8000000000000000].all (fun x =>
      decide (PeriodOk (withOperands x 0 0).clkPeriod) &&
      decide (Quantizable (withOperands x 0 0).clkPeriod (withOperands x 0 0).opA)) = true := by decide +kernel

/-- V-QUANT-3 to V-QUANT-6 and V-QUANT-14: each branch. -/
theorem witness_QuantErrors :
    [0xBBC79CA10C924223#64, 0x7FF8000000000000, 0x7FF0000000000000, 0xFFF0000000000000, 0x40412E0BE81E3F8F].all (fun x =>
      decide (PeriodOk (withOperands x 0 0).clkPeriod) &&
      !decide (Quantizable (withOperands x 0 0).clkPeriod (withOperands x 0 0).opA)) = true := by decide +kernel

theorem witness_Cyc2secResult : PeriodOk (withOperands 0xFFFFFFFF 0 0).clkPeriod := by decide +kernel

theorem witness_QuantizeMonotone :
    PeriodOk 0x3E412E0BE826D695 ∧ fle 0 0x3E55798EE2308C3A = true ∧ fle 0x3E55798EE2308C3A 0x3EB0C6F7A0B5ED8D = true ∧
    quantize 0x3E412E0BE826D695 0x3E55798EE2308C3A 15 = .ok 2 ∧
    quantize 0x3E412E0BE826D695 0x3EB0C6F7A0B5ED8D 15 = .ok 125 := by
  refine ⟨by decide +kernel, by decide +kernel, by decide +kernel, ?_, ?_⟩ <;>
    exact quantize_ok.2 (by decide +kernel)

theorem witness_QuantizeZero : PeriodOk 0x3E412E0BE826D695 := by decide +kernel

/-- E-1: 9e-8 comes back as 8.8e-8, 2e-9 away. -/
theorem witness_QuantizeRoundTrip :
    PeriodOk 0x3E412E0BE826D695 ∧ quantize 0x3E412E0BE826D695 0x3E7828C0BE769DC1 15 = .ok 11 ∧
    isInf (fmul (i2f 11) 0x3E412E0BE826D695) = false :=
  ⟨by decide +kernel, quantize_ok.2 (by decide +kernel), by decide +kernel⟩

/-- The channels 0, 1, 10, 11 and 255. -/
theorem witness_RegidxResult :
    1 = ((withOperands 0x201 0 0).opA.extractLsb' 0 8).toNat ∧ 10 = ((withOperands 0x30A 0 0).opA.extractLsb' 0 8).toNat ∧
    0 = ((withOperands 0x300 0 0).opA.extractLsb' 0 8).toNat ∧ 11 = ((withOperands 0x00B 0 0).opA.extractLsb' 0 8).toNat ∧
    255 = ((withOperands 0x0FF 0 0).opA.extractLsb' 0 8).toNat := by decide

theorem witness_RegaddrResult :
    (withOperands 0 0 0).opA.toNat ≤ 41 ∧ (withOperands 41 0 0).opA.toNat ≤ 41 ∧ 41 < (withOperands 42 0 0).opA.toNat ∧
    41 < (withOperands 0x8000000000000000 0 0).opA.toNat := by decide

/-- V-VAL-11: a latched rate of 125 stands in for -3. -/
def latchedReady : State :=
  { withOperands 5 7 (BitVec.ofInt 64 (-3)) with regs := { CmdRegs.reset with latchValid := true, latchRep := 125 } }

/-- V-VAL-1 to V-VAL-8, V-VAL-10 and V-VAL-11, each branch at its boundary: the premises, with a rate given, latched, and
missing. -/
theorem witness_ValidateResult :
    ([(252, 252, 250), (-1, -1, 10), (-1, 5, 10), (10, 10, 10), (0, 10, 10), (11, 10, 10), (5, 11, 10), (7, 3, 10)].all
      fun (v : Int × Int × Int) =>
        let s := withOperands (BitVec.ofInt 64 v.1) (BitVec.ofInt 64 v.2.1) (BitVec.ofInt 64 v.2.2)
        v.1 == s.opA.toInt && v.2.1 == s.opB.toInt && decide (0 < s.opC.toInt) && v.2.2 == s.opC.toInt) = true ∧
    (latchedReady.opC.toInt ≤ 0 ∧ latchedReady.regs.latchValid = true ∧
      (125 : Int) = (latchedReady.regs.latchRep.toNat : Int)) ∧
    (withOperands 5 7 0).opC.toInt ≤ 0 ∧ (withOperands 5 7 0).regs.latchValid = false := by decide

/-- V-SYNC-3: four channels, both delay arrays supplied. -/
def delayReady : State :=
  { syncReady with
    pulseLen := 0x3EA421F5F40D8376, param := 0x00A44604
    delayBegin := #v[0, 0xBE75798EE2308C3A, 0xBE85798EE2308C3A, 0xBE901B2B29A4692B, 0, 0, 0, 0, 0, 0]
    delayEnd := #v[0, 0, 0xBE75798EE2308C3A, 0xBE85798EE2308C3A, 0, 0, 0, 0, 0, 0] }

/-- The windows that R195 gives SYNC. -/
def syncWindows (s : State) : Vector Window 10 := tenOf fun k =>
  if k.val < (s.param.extractLsb' 0 4).toNat then
    ⟨fadd (fsub s.repRate s.pulseLen) (if s.param.getLsbD 9 then s.delayBegin[k] else 0),
      fadd s.repRate (if s.param.getLsbD 10 then s.delayEnd[k] else if s.param.getLsbD 9 then s.delayBegin[k] else 0)⟩
  else ⟨fadd s.repRate 0x4000000000000000, fadd s.repRate 0x4000000000000000⟩

/-- V-SYNC-3, with both delay arrays. -/
theorem witness_SyncStartsEmission :
    PeriodOk delayReady.clkPeriod ∧ CommonOk delayReady ∧
    ProgramAccepted delayReady.clkPeriod delayReady.repRate delayReady.deadTime (syncWindows delayReady) :=
  ⟨by decide +kernel, by decide +kernel, by decide +kernel⟩

/-- V-SYNC-1, with ten channels; V-SYNC-11, with none. -/
theorem witness_SyncStartsEmission_bounds :
    CommonOk syncReady ∧ CommonOk { syncReady with param := 0x00A00000 } ∧
    ProgramAccepted syncReady.clkPeriod syncReady.repRate syncReady.deadTime (syncWindows syncReady) ∧
    ProgramAccepted syncReady.clkPeriod syncReady.repRate syncReady.deadTime
      (syncWindows { syncReady with param := 0x00A00000 }) :=
  ⟨by decide +kernel, by decide +kernel, by decide +kernel, by decide +kernel⟩

/-- The windows that R201 gives DELTA. -/
def deltaWindows (s : State) (n : Nat) (change : F64) : Vector Window 10 := tenOf fun i =>
  if i.val < n then
    ⟨fsub (fsub (fsub s.repRate (fmul change (i2f ((n : Int) - i.val - 1)))) s.pulseLen)
        (fmul (i2f (2 * (i.val : Int))) change),
      fsub s.repRate (fmul change (i2f ((n : Int) - i.val - 1)))⟩
  else ⟨fadd s.repRate 0x4000000000000000, fadd s.repRate 0x4000000000000000⟩

/-- V-DELTA-1 with the default `change`, 100ns. -/
theorem witness_DeltaStartsEmission :
    PeriodOk deltaReady.clkPeriod ∧ CommonOk deltaReady ∧ 3 = (deltaReady.param.extractLsb' 0 4).toNat ∧
    0x3E7AD7F29ABCAF48 = (if deltaReady.param.getLsbD 8 then deltaReady.auxTime
      else fmul deltaReady.pulseLen 0x3FE0000000000000) ∧
    ProgramAccepted deltaReady.clkPeriod deltaReady.repRate deltaReady.deadTime
      (deltaWindows deltaReady 3 0x3E7AD7F29ABCAF48) :=
  ⟨by decide +kernel, by decide +kernel, by decide +kernel, by decide +kernel, by decide +kernel⟩

/-- The windows that R206 gives ONE. -/
def oneWindows (s : State) (ch : Nat) : Vector Window 10 := tenOf fun k =>
  if k.val + 1 = ch then ⟨fsub s.repRate s.pulseLen, s.repRate⟩
  else ⟨fadd s.repRate 0x4000000000000000, fadd s.repRate 0x4000000000000000⟩

/-- V-ONE-1; and the channels 1 and 9, the ends of the range (V-ONE-4). -/
theorem witness_OneStartsEmission :
    ∀ s ∈ [oneReady, { oneReady with param := 0x00A0001A }, { oneReady with param := 0x00A0009A }],
      PeriodOk s.clkPeriod ∧ 0 < (s.param.extractLsb' 4 4).toNat ∧ (s.param.extractLsb' 4 4).toNat < 10 ∧
      ProgramAccepted s.clkPeriod s.repRate s.deadTime (oneWindows s (s.param.extractLsb' 4 4).toNat) := by decide +kernel

/-- The windows that R216 gives SEQ. -/
def seqWindows (s : State) (n : Nat) (tb : F64) : Vector Window 10 := tenOf fun i =>
  if i.val < n then
    ⟨fsub (fsub s.repRate (fmul tb (i2f ((n : Int) - i.val - 1)))) (fmul s.pulseLen (i2f ((n : Int) - i.val))),
      fsub (fsub s.repRate (fmul tb (i2f ((n : Int) - i.val - 1)))) (fmul s.pulseLen (i2f ((n : Int) - i.val - 1)))⟩
  else ⟨fadd s.repRate 0x4000000000000000, fadd s.repRate 0x4000000000000000⟩

/-- V-SEQ-1, with the default `time_between`. -/
theorem witness_SeqStartsEmission :
    PeriodOk seqReady.clkPeriod ∧ CommonOk seqReady ∧ 2 = (seqReady.param.extractLsb' 0 4).toNat ∧
    seqReady.pulseLen = (if seqReady.param.getLsbD 8 then seqReady.auxTime else seqReady.pulseLen) ∧
    ProgramAccepted seqReady.clkPeriod seqReady.repRate seqReady.deadTime (seqWindows seqReady 2 seqReady.pulseLen) :=
  ⟨by decide +kernel, by decide +kernel, by decide +kernel, by decide +kernel, by decide +kernel⟩

/-- Program P4. -/
theorem witness_BuildStartsEmission :
    PeriodOk buildReady.clkPeriod ∧ (buildReady.param.extractLsb' 20 4).toNat = 10 ∧
    (∀ k : Fin 10, p4Windows[k] = ⟨buildReady.regs.winStart[k], buildReady.regs.winStop[k]⟩) ∧
    ProgramAccepted buildReady.clkPeriod buildReady.repRate buildReady.deadTime p4Windows := by decide +kernel

/-- V-SYNC-8: four channels, `delay_begin` supplied, its entry 2 positive. -/
def badBegin : State :=
  { syncReady with param := 0x00A04204, delayBegin := tenOf fun k => if k = 2 then 0x3E45798EE2308C3A else 0 }

/-- Four channels, `delay_end` supplied, its entry 3 a NaN. -/
def badEnd : State :=
  { syncReady with param := 0x00A40404, delayEnd := tenOf fun k => if k = 3 then 0x7FF8000000000000 else 0 }

/-- PARAM of V-SYNC-6, V-SYNC-7 and V-SYNC-10: eleven channels; `delay_begin` too short; `delay_end` too short. -/
theorem witness_CommonCheckErrors :
    PeriodOk syncReady.clkPeriod ∧ 10 < ((0x00A0000B : Word).extractLsb' 0 4).toNat ∧
    ((0x00A03204 : Word).extractLsb' 0 4).toNat ≤ 10 ∧ (0x00A03204 : Word).getLsbD 9 = true ∧
    ((0x00A03204 : Word).extractLsb' 12 4).toNat ≠ ((0x00A03204 : Word).extractLsb' 0 4).toNat ∧
    badBegin.param.getLsbD 9 = true ∧ (badBegin.param.extractLsb' 12 4).toNat = (badBegin.param.extractLsb' 0 4).toNat ∧
    (∀ j : Fin 10, j < 2 → fle badBegin.delayBegin[j] 0 = true) ∧ fle badBegin.delayBegin[(2 : Fin 10)] 0 = false ∧
    (0x00A30404 : Word).getLsbD 9 = false ∧ (0x00A30404 : Word).getLsbD 10 = true ∧
    ((0x00A30404 : Word).extractLsb' 16 4).toNat ≠ ((0x00A30404 : Word).extractLsb' 0 4).toNat ∧
    badEnd.param.getLsbD 10 = true ∧ (badEnd.param.extractLsb' 16 4).toNat = (badEnd.param.extractLsb' 0 4).toNat ∧
    (∀ j : Fin 10, j < 3 → fle badEnd.delayEnd[j] 0 = true) ∧ fle badEnd.delayEnd[(3 : Fin 10)] 0 = false := by
  decide +kernel

/-- The channels 0, 10 and 15 (V-ONE-2, V-ONE-3). -/
theorem witness_OneChannelRange :
    PeriodOk oneReady.clkPeriod ∧ (({ oneReady with param := 0x00A0000A } : State).param.extractLsb' 4 4).toNat = 0 ∧
    10 ≤ (({ oneReady with param := 0x00A000AA } : State).param.extractLsb' 4 4).toNat ∧
    10 ≤ (({ oneReady with param := 0x00A000FA } : State).param.extractLsb' 4 4).toNat := by decide +kernel

/-- V-BUILD-13, V-BUILD-14 (the window count), and V-BUILD-16 to V-BUILD-21: each branch, in BUILD and in the modes. -/
theorem witness_BuildEarlyErrors :
    10 < (({ buildReady with param := 0x00B0000A } : State).param.extractLsb' 20 4).toNat ∧
    (({ buildReady with param := 0x0090000A } : State).param.extractLsb' 20 4).toNat < 10 ∧
    PeriodOk buildReady.clkPeriod ∧
    (∀ q ∈ [(Instr.build, buildReady), (.sync, syncReady), (.delta, deltaReady), (.one, oneReady), (.seq, seqReady)],
      q.1 ∈ buildingCommands ∧ PeriodOk q.2.clkPeriod ∧ OperandsPass q.1 q.2) ∧
    [0xBEC0C6F7A0B5ED8D#64, 0x7FF8000000000000, 0x4044000000000000, 0x3E112E0BE826D695].all (fun r =>
      !decide (TimesPass syncReady.clkPeriod r syncReady.deadTime)) = true ∧
    [0xBE112E0BE826D695#64, 0x7FF8000000000000, 0x7FF0000000000000, 0x3E7828C0BE769DC1].all (fun d =>
      !decide (TimesPass syncReady.clkPeriod syncReady.repRate d)) = true := by decide +kernel

/-- Program P4 with another window in slot 1. -/
def slotWindows (w : Window) : Vector Window 10 := tenOf fun k => if k = 1 then w else p4Windows[k]

/-- Program P4 with another window in slot 1, just after acceptance of BUILD. -/
def slotReady (w : Window) : State :=
  { buildReady with regs := { CmdRegs.reset with
      winStart := tenOf fun k => (slotWindows w)[k].start, winStop := tenOf fun k => (slotWindows w)[k].stop } }

/-- The windows of V-BUILD-5, V-BUILD-7 and V-BUILD-8, too narrow, past the period, too early; a NaN start; a NaN stop after a
start too great to quantize, and after one in the period; [1.9us, 1.908us], one period wide, whose ends
237.5 and 238.5 both round to 238 cycles, in the manner of V-BUILD-4. -/
def badWindows : List Window :=
  [⟨0x3EB92A737110E454, 0x3EB93BA17CF90B2A⟩, ⟨0x3EB92A737110E454, 0x3EC4F8B588E368F1⟩,
    ⟨0x3EAE32F0EE144531, 0x3EBFE07017C01026⟩, ⟨0x7FF8000000000000, 0x3EBFE07017C01026⟩,
    ⟨0x4059000000000000, 0x7FF8000000000000⟩, ⟨0x3EB92A737110E454, 0x7FF8000000000000⟩,
    ⟨0x3EBFE07017C01026, 0x3EC0016617C82EEA⟩]

/-- V-SYNC-5: a pulse that starts before the midpoint. -/
def earlySync : State := { syncReady with pulseLen := 0x3EB421F5F40D8376 }

/-- V-BUILD-22 to V-BUILD-24, by SYNC: 1us, a pulse from its midpoint to its end, and a dead time. -/
def chargeReady (dead : F64) : State :=
  { syncReady with repRate := 0x3EB0C6F7A0B5ED8D, pulseLen := 0x3EA0C6F7A0B5ED8D, deadTime := dead }

/-- V-BUILD-25: a repetition rate of 2^32 - 2 cycles, every slot disabled. -/
def sentinelReady : State :=
  { buildReady with
    repRate := 0x40412E0BE8047A7D
    regs := { CmdRegs.reset with
      winStart := tenOf fun _ => 0x4059000000000000, winStop := tenOf fun _ => 0x4059000000000000 } }

/-- BUILD and SYNC with a slot that does not pass: the seven bad windows in slot 1 after one that passes, and V-SYNC-5. -/
theorem witness_BuildReportsFirstBadSlot :
    badWindows.all (fun w =>
      let s := slotReady w
      decide (PeriodOk s.clkPeriod) && decide (OperandsPass .build s) &&
      decide (∀ k : Fin 10, (slotWindows w)[k] = givenWindow .build s k) &&
      decide (TimesPass s.clkPeriod s.repRate s.deadTime) &&
      decide (SlotOk s.clkPeriod s.repRate (slotWindows w)[(0 : Fin 10)]) &&
      !decide (SlotOff s.repRate w) && !decide (SlotAccepted s.clkPeriod s.repRate w)) = true ∧
    Instr.build ∈ buildingCommands ∧ Instr.sync ∈ buildingCommands ∧ OperandsPass .sync earlySync ∧
    TimesPass earlySync.clkPeriod earlySync.repRate earlySync.deadTime ∧
    ¬ SlotOff earlySync.repRate (givenWindow .sync earlySync 0) ∧
    ¬ SlotAccepted earlySync.clkPeriod earlySync.repRate (givenWindow .sync earlySync 0) :=
  ⟨by decide +kernel, by decide, by decide, by decide +kernel, by decide +kernel, by decide +kernel, by decide +kernel⟩

/-- What each of the bad windows is reported as (R237 to R239). -/
theorem test_bad_windows : badWindows.map (fun w => (report (exec .build (slotReady w))).map (·.1)) =
    [some 0x0B, some 0x0C, some 0x0D, some 0x14, some 0x02, some 0x14, some 0x07] := by decide +kernel

theorem witness_BuildReportsFirstBadSlot_sentinel :
    PeriodOk sentinelReady.clkPeriod ∧ OperandsPass .build sentinelReady ∧
    TimesPass sentinelReady.clkPeriod sentinelReady.repRate sentinelReady.deadTime ∧
    cycles sentinelReady.clkPeriod sentinelReady.repRate = 4294967294 ∧
    SlotOff sentinelReady.repRate (givenWindow .build sentinelReady 0) := by decide +kernel

/-- The dead times 2us, 300ns and 248ns: one for each error of the charge window. -/
theorem witness_BuildReportsFirstBadSlot_charge :
    [0x3EC0C6F7A0B5ED8D#64, 0x3E9421F5F40D8376, 0x3E90A49B88E59FE0].map (fun d =>
      let s := chargeReady d
      let w := tenOf (givenWindow .sync s)
      (decide (PeriodOk s.clkPeriod) && decide (OperandsPass .sync s) &&
          decide (TimesPass s.clkPeriod s.repRate s.deadTime) &&
          decide (∀ i : Fin 10, SlotOk s.clkPeriod s.repRate w[i]),
        cycles s.clkPeriod s.deadTime, cycles s.clkPeriod s.repRate, cycles s.clkPeriod (earliestStart s.repRate w))) =
      [(true, 250, 125, 62), (true, 37, 125, 62), (true, 31, 125, 62)] := by decide +kernel

/-- Program P4, whose nine last slots are disabled. -/
theorem witness_BuildAcceptsExactly :
    PeriodOk buildReady.clkPeriod ∧
    ProgramAccepted buildReady.clkPeriod buildReady.repRate buildReady.deadTime p4Windows := by decide +kernel

/-- What the builder makes of ten windows, where it makes a program. -/
def built (w : Vector Window 10) : Option Program :=
  match buildProgram buildReady.clkPeriod none w 10 buildReady.deadTime buildReady.repRate with
  | .ok g => some g
  | .error _ => none

/-- P4, with an enabled slot; V-BUILD-1, with none. -/
theorem witness_ChargeWindowValues :
    PeriodOk buildReady.clkPeriod ∧ (built p4Windows).map (fun g => (g.cs, g.ct)) = some (19, 106) ∧
    (built (tenOf fun _ => ⟨0x4008000000000000, 0x4008000000000000⟩)).map (fun g => (g.cs, g.ct)) = some (19, 231) := by
  decide +kernel

theorem witness_UnreachableErrors : syncReady.regs.errCode = 0 ∧ ∃ t, exec .sync syncReady = .next t :=
  ⟨by decide, exec_next _ _⟩

/-- The same operands with another trace and another program in the shadow. -/
theorem witness_SameOperandsSameProgram :
    let s := syncReady
    let s' := emitting 42 []
    Instr.sync ∈ buildingCommands ∧ s'.clkPeriod = s.clkPeriod ∧ s'.repRate = s.repRate ∧ s'.deadTime = s.deadTime ∧
    s'.pulseLen = s.pulseLen ∧ s'.auxTime = s.auxTime ∧ s'.param = s.param ∧ s'.delayBegin = s.delayBegin ∧
    s'.delayEnd = s.delayEnd ∧ s'.regs.winStart = s.regs.winStart ∧ s'.regs.winStop = s.regs.winStop ∧
    (∃ t, exec .sync s = .next t) ∧ (∃ t, exec .sync s' = .next t) ∧ s'.trace ≠ s.trace :=
  ⟨by decide, rfl, rfl, rfl, rfl, rfl, rfl, rfl, rfl, rfl, rfl, exec_next _ _, exec_next _ _, by decide +kernel⟩

theorem witness_PlainCommandsFrame :
    Instr.validate ∈ plainCommands ∧ Instr.quant ≠ .validate ∧ ∃ t, exec .quant (withOperands 0 0 0) = .next t :=
  ⟨by decide, by decide, exec_next _ _⟩

theorem witness_BuildingCommandsFrame : Instr.build ∈ buildingCommands ∧ ∃ t, exec .build buildReady = .next t :=
  ⟨by decide, exec_next _ _⟩

theorem witness_ErrorsChangeOnlyTheReport :
    (withOperands 42 0 0).regs.err = false ∧
    (after (exec .regaddr (withOperands 42 0 0))).map (·.regs.err) = some true := by decide

/-- The downstream not ready twice, then accepting one write, then never again. -/
def slowDownstream : Downstream := ⟨[false, false, true], false⟩

theorem witness_EmitStepIssuesOneWrite :
    EngineTurn (emitting 0 []) (emitting 0 []) ∧ EngineTurn (emitting 41 [.engine, .poll]) (emitting 41 [.poll]) ∧
    (emitting 41 []).phase = .emit ∧ (emitting 41 []).k < 42 ∧ (emitting 40 []).k < 41 ∧
    slowDownstream.answers.headD slowDownstream.afterwards = false ∧
    (emitting 41 []).downstream.answers.headD (emitting 41 []).downstream.afterwards = true :=
  ⟨.inl ⟨by simp only [emitting], rfl⟩, .inr ⟨[.poll], by simp only [emitting], by simp only [emitting]⟩, by decide +kernel⟩

/-- R95: three offers to the slow downstream issue one write. -/
theorem test_slow_downstream :
    (after (Host.Core.run Sys2Proof.core 3 { emitting 0 [] with downstream := slowDownstream })).map
      (fun t => (t.k, t.trace.length, t.phase)) = some (1, 1, .emit) := by decide +kernel

theorem witness_EmissionIsTheSequence :
    (emitting 0 []).phase = .emit ∧ (emitting 0 []).k < 42 ∧ (emitting 41 []).k < 42 ∧ (emitting 0 []).inbox = [] ∧
    acceptedOffers slowDownstream 0 < 42 ∧ acceptedOffers slowDownstream 100 = 1 ∧
    42 ≤ acceptedOffers (emitting 0 []).downstream 42 ∧ 42 - 41 ≤ acceptedOffers slowDownstream 3 := by decide +kernel

theorem witness_StalledDownstreamHoldsEmit :
    let s := { emitting 7 [.write 4 0x000 0x8] with downstream := ⟨[], false⟩ }
    s.phase = .emit ∧ s.downstream = ⟨[], false⟩ ∧ s.inbox.head? ≠ some .reset ∧
    (after (step s)).map (fun t => (t.k, t.werr)) = some (7, true) := by decide +kernel

/-- After 0, 1 and 41 accepted writes, and after three offers of which one was accepted. -/
theorem witness_ResetCutsEmissionShort :
    (∀ m ∈ [0, 1, 41], (emitting 0 (List.replicate m .engine ++ [.reset])).phase = .emit ∧
      (emitting 0 (List.replicate m .engine ++ [.reset])).k = 0 ∧
      acceptedOffers (emitting 0 (List.replicate m .engine ++ [.reset])).downstream m = m) ∧
    acceptedOffers slowDownstream 3 = 1 := by decide +kernel

theorem witness_HostRunCompletes :
    (idle (assemble [.wr (.word .cmd) 0x11, .wait])).phase = .idle ∧
    (idle (assemble [.run .quant])).inbox = assemble [.run .quant] ∧
    (idle (assemble [.run .sync])).inbox = assemble [.run .sync] ∧
    AcceptsWrites (idle (assemble [.run .sync])).downstream 42 ∧
    AcceptsWrites ⟨List.replicate 42 true, false⟩ 42 :=
  ⟨by decide, by decide, by decide, ⟨42, by decide⟩, ⟨42, by decide⟩⟩

/-- A state in EMIT is legal, and so is a step from it. -/
theorem witness_StepKeepsStateOk : StateOk (emitting 41 []) ∧ ∃ t, step (emitting 41 []) = .next t :=
  ⟨by decide +kernel, step_next_engine rfl⟩

theorem witness_StepKeepsEmissionOk :
    (emitting 20 []).phase = .emit ∧ EmissionOk (emitting 20 []) ∧ ∃ t, step (emitting 20 []) = .next t :=
  ⟨by decide +kernel, fun _ => ⟨[], by decide +kernel⟩, step_next_engine rfl⟩

theorem witness_TraceGrowsOnlyInEmit :
    (∃ t, step (emitting 5 []) = .next t) ∧ (after (step (emitting 5 []))).map (·.trace.length) = some 6 :=
  ⟨step_next_engine rfl, by decide +kernel⟩

theorem witness_LatchChangesOnlyAtEnd :
    (∃ t, step (emitting 41 []) = .next t) ∧ (emitting 41 []).inbox.head? ≠ some .reset ∧
    (after (step (emitting 41 []))).map (·.regs.latchRep) = some 250 :=
  ⟨step_next_engine rfl, by decide +kernel, by decide +kernel⟩

theorem witness_RegistersHeldUntilReset :
    (∃ t, step (emitting 3 []) = .next t) ∧ (emitting 3 []).inbox.head? ≠ some .reset ∧ (emitting 3 []).phase ≠ .idle ∧
    (emitting 3 []).lock = true :=
  ⟨step_next_engine rfl, by decide +kernel, by decide +kernel, by decide +kernel⟩

end Sys2Proof.Tests
end

section
/-!
PROOFS. The binary64 statements (R15, R16). Every operation answers a sign and one rounding of a quotient of magnitudes, so
each statement comes down to the rounding of magnitudes (Laws/Binary64.lean) and one lemma that gives the distances their
signs.
-/

namespace Sys2Proof.Machine

/-! ## Integers as a sign and a magnitude -/

/-- The integer of the sign `neg` and the magnitude `m`. -/
def withSign (neg : Bool) (m : Nat) : Int := if neg then -(m : Int) else (m : Int)

theorem units_eq_withSign (x : F64) : units x = withSign (isNegative x) (magUnits x) := rfl

theorem rne_eq_withSign (q : F64) : rne q = withSign (isNegative q) (roundTiesEven (magUnits q) unitsPerOne) := rfl

@[simp] theorem withSign_false (m : Nat) : withSign false m = m := rfl

@[simp] theorem withSign_true (m : Nat) : withSign true m = -(m : Int) := rfl

@[simp] theorem withSign_zero (neg : Bool) : withSign neg 0 = 0 := by cases neg <;> rfl

@[simp] theorem natAbs_withSign (neg : Bool) (m : Nat) : (withSign neg m).natAbs = m := by cases neg <;> simp

@[simp] theorem withSign_eq_zero (neg : Bool) (m : Nat) : withSign neg m = 0 ↔ m = 0 := by cases neg <;> simp

theorem withSign_mul (s t : Bool) (m n : Nat) : withSign s m * withSign t n = withSign (s != t) (m * n) := by
  cases s <;> cases t <;> simp

theorem withSign_decide_neg (z : Int) : withSign (decide (z < 0)) z.natAbs = z := by
  by_cases h : z < 0
  · rw [decide_eq_true h, withSign_true]; omega
  · rw [decide_eq_false h, withSign_false]; omega

theorem withSign_emod_two (neg : Bool) {m : Nat} (h : m % 2 = 0) : withSign neg m % 2 = 0 := by
  cases neg
  · rw [withSign_false]; omega
  · rw [withSign_true]; omega

/-! ## The nearest of several signed candidates -/

/-- `r` is at least as near to `a / b` as `m` is, and when `m` is as near, it is `r` or `tie` holds. -/
def AtLeastAsNear (a b r m : Nat) (tie : Prop) : Prop :=
  ((r * b : Nat) - (a : Nat) : Int).natAbs ≤ ((m * b : Nat) - (a : Nat) : Int).natAbs ∧
    (((r * b : Nat) - (a : Nat) : Int).natAbs = ((m * b : Nat) - (a : Nat) : Int).natAbs → m = r ∨ tie)

/-- A candidate of the quotient's sign is as far from it as its magnitude is from the quotient's. -/
theorem natAbs_sub_of_sign_eq (s t : Bool) (m a b : Nat) :
    (withSign (s != t) m * withSign t b - withSign s a).natAbs = ((m * b : Nat) - (a : Nat) : Int).natAbs := by
  have h : ((s != t) != t) = s := by cases s <;> cases t <;> rfl
  rw [withSign_mul, h]
  cases s
  · simp only [withSign_false]
  · simp only [withSign_true]; omega

/-- For a candidate of the other sign the two magnitudes add up. -/
theorem natAbs_sub_of_sign_ne (s t : Bool) (m a b : Nat) :
    (withSign (!(s != t)) m * withSign t b - withSign s a).natAbs = m * b + a := by
  have h : ((!(s != t)) != t) = !s := by cases s <;> cases t <;> rfl
  rw [withSign_mul, h]
  cases s
  · simp only [Bool.not_false, withSign_true, withSign_false]; omega
  · simp only [Bool.not_true, withSign_true, withSign_false]; omega

/-- A magnitude that is nearest to `a / b`, given the quotient's sign, is nearest among candidates of either sign: one of the
other sign is no nearer than 0. -/
theorem withSign_nearest {a b r m : Nat} {tie : Prop} (s t u : Bool) (hb : 0 < b) (hm : AtLeastAsNear a b r m tie)
    (h0 : AtLeastAsNear a b r 0 tie) :
    (withSign (s != t) r * withSign t b - withSign s a).natAbs ≤ (withSign u m * withSign t b - withSign s a).natAbs ∧
      ((withSign (s != t) r * withSign t b - withSign s a).natAbs =
          (withSign u m * withSign t b - withSign s a).natAbs →
        withSign u m = withSign (s != t) r ∨ tie) := by
  obtain ⟨hmLe, hmTie⟩ := hm
  obtain ⟨h0Le, h0Tie⟩ := h0
  rw [natAbs_sub_of_sign_eq]
  by_cases hu : u = (s != t)
  · subst hu
    rw [natAbs_sub_of_sign_eq]
    exact ⟨hmLe, fun h => (hmTie h).imp_left fun hr => by rw [hr]⟩
  · have hu' : u = !(s != t) := by cases u <;> cases h : (s != t) <;> simp_all
    subst hu'
    rw [natAbs_sub_of_sign_ne]
    have hzero : ((0 * b : Nat) - (a : Nat) : Int).natAbs = a := by omega
    rw [hzero] at h0Le h0Tie
    refine ⟨by omega, fun h => ?_⟩
    have hmb : m * b = 0 := by omega
    have hm0 : m = 0 := (Nat.mul_eq_zero.1 hmb).resolve_right (by omega)
    refine (h0Tie (by omega)).imp_left fun hr => ?_
    rw [hm0, ← hr, withSign_zero, withSign_zero]

/-! ## Overflow of the rounding -/

theorem roundUnits_overflowUnits : roundUnits overflowUnits 1 = infMag := by decide +kernel

theorem overflowUnits_lt : overflowUnits < 2 ^ 2098 := by decide +kernel

/-- Below the overflow bound the quotient's step is at most that of the largest binade. -/
theorem roundStep_le_of_lt_overflow {num den : Nat} (hd : 0 < den) (h : num < overflowUnits * den) :
    roundStep num den ≤ 2045 := by
  obtain ⟨-, hzero | hlow⟩ := roundStep_bounds num den
  · rw [hzero]; exact Nat.zero_le _
  · have hq : num / den < overflowUnits := (Nat.div_lt_iff_lt_mul hd).2 h
    have hpow := Nat.lt_of_le_of_lt hlow (Nat.lt_trans hq overflowUnits_lt)
    have hexp := (pow_lt_pow_iff_right₀ Nat.one_lt_two).1 hpow
    omega

/-- A quotient more than half below the integer `c` rounds to less than `c`. -/
theorem roundTiesEven_lt {num d c : Nat} (hd : 0 < d) (h : 2 * num + d < 2 * (c * d)) : roundTiesEven num d < c := by
  obtain ⟨-, hnear⟩ := roundTiesEven_near num d hd
  exact Nat.lt_of_mul_lt_mul_right (a := d) (by omega)

/-- The overflow bound lies half a step of the largest binade below a significand of 2^53. -/
theorem overflowUnits_add_half_step : 2 * overflowUnits + 2 ^ 2045 = 2 * (2 ^ 53 * 2 ^ 2045) := by decide +kernel

/-- Below the overflow bound the largest binade's significand does not carry. -/
theorem roundSig_lt_of_lt_overflow {num den : Nat} (hd : 0 < den) (h : num < overflowUnits * den)
    (hk : roundStep num den = 2045) : roundSig num den < 2 ^ 53 := by
  rw [roundSig, hk]
  refine roundTiesEven_lt (Nat.mul_pos hd (pow_pos Nat.two_pos _)) ?_
  calc 2 * num + den * 2 ^ 2045
      < 2 * (overflowUnits * den) + den * 2 ^ 2045 :=
        Nat.add_lt_add_right (Nat.mul_lt_mul_of_pos_left h Nat.two_pos) _
    _ = den * (2 * overflowUnits + 2 ^ 2045) := by
        rw [Nat.mul_add, Nat.mul_left_comm den, Nat.mul_comm overflowUnits]
    _ = 2 * (2 ^ 53 * (den * 2 ^ 2045)) := by
        rw [overflowUnits_add_half_step, Nat.mul_left_comm den, Nat.mul_left_comm den]

/-- R15: rounding overflows exactly from `2^1024 - 2^970` on. -/
theorem roundUnits_eq_infMag_iff {num den : Nat} (hd : 0 < den) :
    roundUnits num den = infMag ↔ overflowUnits * den ≤ num := by
  constructor
  · intro hinf
    by_contra hlt
    have hstep := roundStep_le_of_lt_overflow hd (not_le.1 hlt)
    have hsig := roundSig_lt_of_lt_overflow hd (not_le.1 hlt)
    obtain ⟨hsig', -⟩ := roundSig_bounds num den
    have hi : infMag = 2047 * 2 ^ 52 := rfl
    rw [roundUnits_eq] at hinf
    omega
  · intro hle
    refine le_antisymm (roundUnits_le _ _) ?_
    rw [← roundUnits_overflowUnits]
    exact roundUnits_mono Nat.one_pos hd (by rwa [Nat.mul_one])

theorem roundUnits_lt_two_pow (num den : Nat) : roundUnits num den < 2 ^ 63 :=
  Nat.lt_of_le_of_lt (roundUnits_le _ _) infMag_lt

/-- No magnitude pattern is nearer to a quotient than its rounding. -/
theorem roundUnits_atLeastAsNear {num den : Nat} (hd : 0 < den) (hf : roundUnits num den ≠ infMag) (n : Nat) :
    AtLeastAsNear num den (magOfPattern (roundUnits num den)) (magOfPattern n) (roundUnits num den % 2 = 0) := by
  obtain ⟨hle, htie⟩ := roundUnits_nearest num den n hd (lt_of_le_of_ne (roundUnits_le _ _) hf)
  exact ⟨hle, fun h => (htie h).imp_left fun hn => by rw [hn]⟩

theorem getLsbD_zero_packF64 (neg : Bool) {n : Nat} (hn : n < 2 ^ 63) (heven : n % 2 = 0) :
    (packF64 neg n).getLsbD 0 = false := by
  have h : (packF64 neg n).toNat % 2 = 0 := by
    rw [packF64_toNat neg n hn]
    split <;> omega
  rw [BitVec.getLsbD, Nat.testBit_zero, h]
  rfl

/-- The pattern of a rounded quotient of magnitudes, under the quotient's sign, is the signed quotient rounded. -/
theorem roundsTo_packF64 {s t neg : Bool} {a b : Nat} {num den : Int} (hb : 0 < b) (hneg : (s != t) = neg)
    (hnum : withSign s a = num) (hden : withSign t b = den) : RoundsTo (packF64 neg (roundUnits a b)) num den := by
  subst hneg hnum hden
  have hlt := roundUnits_lt_two_pow a b
  refine ⟨isNaN_packF64 _ _ (roundUnits_le _ _), ?_, fun hfin z _ => ?_⟩
  · rw [isInf_packF64 _ _ (roundUnits_le _ _), decide_eq_true_iff, natAbs_withSign, natAbs_withSign]
    exact roundUnits_eq_infMag_iff hb
  · rw [isInf_packF64 _ _ (roundUnits_le _ _), decide_eq_false_iff_not] at hfin
    have hzero := roundUnits_atLeastAsNear hb hfin 0
    rw [magOfPattern_zero] at hzero
    obtain ⟨hle, htie⟩ := withSign_nearest s t (isNegative z) hb (roundUnits_atLeastAsNear hb hfin _) hzero
    rw [units_packF64 _ _ hlt, units_eq_withSign z, magUnits_eq]
    exact ⟨hle, fun h => (htie h).imp_right (getLsbD_zero_packF64 _ hlt)⟩

/-! ## The operations, one equation for each class of operands -/

theorem isNaN_false_of_isInf {x : F64} (h : isInf x = true) : isNaN x = false := by
  cases hn : isNaN x with
  | false => rfl
  | true => rw [isNaN_isInf x hn] at h; cases h

theorem magUnits_ne_zero_of_isInf {x : F64} (h : isInf x = true) : magUnits x ≠ 0 := by
  simp only [isInf, Bool.and_eq_true, beq_iff_eq] at h
  obtain ⟨hexp, hfrac⟩ := h
  rw [magUnits, hexp, hfrac, if_neg (by decide)]
  exact Nat.mul_ne_zero (by decide) (pow_ne_zero _ (by decide))

theorem units_eq_zero_iff (x : F64) : units x = 0 ↔ magUnits x = 0 := by
  rw [units_eq_withSign, withSign_eq_zero]

theorem isNaN_nanF64 : isNaN nanF64 = true := by decide

theorem isInf_packF64_infMag (neg : Bool) : isInf (packF64 neg infMag) = true := by
  rw [isInf_packF64 _ _ le_rfl, decide_eq_true rfl]

theorem isNegative_packF64_infMag (neg : Bool) : isNegative (packF64 neg infMag) = neg :=
  isNegative_packF64 _ _ infMag_lt

theorem isNegative_packF64_roundUnits (neg : Bool) (num den : Nat) :
    isNegative (packF64 neg (roundUnits num den)) = neg :=
  isNegative_packF64 _ _ (roundUnits_lt_two_pow _ _)

theorem packF64_zero (neg : Bool) : packF64 neg 0 = if neg then 0x8000000000000000 else 0 := by
  cases neg <;> rfl

theorem units_packF64_zero (neg : Bool) : units (packF64 neg 0) = 0 := by
  rw [units_packF64 _ _ (Nat.two_pow_pos 63), magOfPattern_zero]
  exact withSign_zero neg

theorem fmul_of_finite {x y : F64} (hx : IsFinite x) (hy : IsFinite y) :
    fmul x y = packF64 (isNegative x != isNegative y) (roundUnits (magUnits x * magUnits y) unitsPerOne) := by
  simp [fmul, hx, hy]

theorem fdiv_of_finite {x y : F64} (hx : IsFinite x) (hy : IsFinite y) (h : magUnits y ≠ 0) :
    fdiv x y = packF64 (isNegative x != isNegative y) (roundUnits (magUnits x * unitsPerOne) (magUnits y)) := by
  simp [fdiv, hx, hy, h]

theorem fdiv_by_zero {x y : F64} (hx : IsFinite x) (hy : IsFinite y) (h : magUnits y = 0) (hx0 : magUnits x ≠ 0) :
    fdiv x y = packF64 (isNegative x != isNegative y) infMag := by
  simp [fdiv, hx, hy, h, hx0]

theorem fdiv_zero_by_zero {x y : F64} (hx : IsFinite x) (hy : IsFinite y) (h : magUnits y = 0) (hx0 : magUnits x = 0) :
    fdiv x y = nanF64 := by
  simp [fdiv, hx, hy, h, hx0]

theorem fadd_inf_finite {x y : F64} (hx : isInf x = true) (hy : IsFinite y) : fadd x y = x := by
  simp [fadd, hx, hy, isNaN_false_of_isInf hx]

theorem fadd_finite_inf {x y : F64} (hx : isInf x = true) (hy : IsFinite y) : fadd y x = x := by
  simp [fadd, hx, hy, isNaN_false_of_isInf hx]

theorem fadd_inf_inf {x y : F64} (hx : isInf x = true) (hy : isInf y = true) :
    fadd x y = if isNegative x = isNegative y then x else nanF64 := by
  simp [fadd, hx, hy, isNaN_false_of_isInf hx, isNaN_false_of_isInf hy]

theorem fmul_comm (x y : F64) : fmul x y = fmul y x := by
  simp only [fmul, Bool.or_comm, Nat.mul_comm, bne_comm]

/-- An infinity times a value that is neither a NaN nor 0. -/
theorem fmul_inf {x y : F64} (hx : isInf x = true) (hy : isNaN y = false) (h : magUnits y ≠ 0) :
    fmul x y = packF64 (isNegative x != isNegative y) infMag := by
  simp [fmul, hx, hy, h, isNaN_false_of_isInf hx, magUnits_ne_zero_of_isInf hx]

theorem fmul_inf_zero {x y : F64} (hx : isInf x = true) (hy : isNaN y = false) (h : magUnits y = 0) :
    fmul x y = nanF64 := by
  simp [fmul, hx, hy, h, isNaN_false_of_isInf hx]

theorem fdiv_inf_finite {x y : F64} (hx : isInf x = true) (hy : IsFinite y) :
    fdiv x y = packF64 (isNegative x != isNegative y) infMag := by
  simp [fdiv, hx, hy, isNaN_false_of_isInf hx]

theorem fdiv_finite_inf {x y : F64} (hx : isInf x = true) (hy : IsFinite y) :
    fdiv y x = packF64 (isNegative y != isNegative x) 0 := by
  simp [fdiv, hx, hy, isNaN_false_of_isInf hx]

theorem fdiv_inf_inf {x y : F64} (hx : isInf x = true) (hy : isInf y = true) : fdiv x y = nanF64 := by
  simp [fdiv, hx, hy, isNaN_false_of_isInf hx, isNaN_false_of_isInf hy]

theorem operations_nan {x y : F64} (h : isNaN x = true ∨ isNaN y = true) :
    fadd x y = nanF64 ∧ fmul x y = nanF64 ∧ fdiv x y = nanF64 := by
  have hor : (isNaN x || isNaN y) = true := by rwa [Bool.or_eq_true]
  simp [fadd, fmul, fdiv, hor]

/-! ## The operations round to nearest -/

theorem fadd_roundsTo {x y : F64} (hx : IsFinite x) (hy : IsFinite y) :
    RoundsTo (fadd x y) (units x + units y) 1 := by
  rw [fadd_finite hx.1 hy.1 hx.2 hy.2]
  split
  case isTrue h =>
    rw [h, ← roundUnits_zero 1]
    exact roundsTo_packF64 Nat.one_pos (Bool.bne_false _) (withSign_zero _) (withSign_false 1)
  case isFalse =>
    exact roundsTo_packF64 Nat.one_pos (Bool.bne_false _) (withSign_decide_neg _) (withSign_false 1)

theorem isNegative_fadd {x y : F64} (hx : IsFinite x) (hy : IsFinite y) (h : units x + units y ≠ 0) :
    isNegative (fadd x y) = decide (units x + units y < 0) := by
  rw [fadd_finite hx.1 hy.1 hx.2 hy.2, if_neg h, isNegative_packF64_roundUnits]

theorem fadd_eq_zero {x y : F64} (hx : IsFinite x) (hy : IsFinite y) (h : units x + units y = 0) :
    fadd x y = if isNegative x && isNegative y then 0x8000000000000000 else 0 := by
  rw [fadd_finite hx.1 hy.1 hx.2 hy.2, if_pos h, packF64_zero]

theorem withSign_unitsPerOne : withSign false unitsPerOne = 2 ^ 1074 := by
  rw [withSign_false]
  exact Nat.cast_pow 2 1074

theorem unitsPerOne_pos : 0 < unitsPerOne := pow_pos Nat.two_pos _

/-- The product of two counts of units of 2^-1074 is over the number `one` of units in 1.0. -/
theorem fmul_roundsTo {x y : F64} {one : Int} (hx : IsFinite x) (hy : IsFinite y)
    (hone : withSign false unitsPerOne = one) : RoundsTo (fmul x y) (units x * units y) one := by
  rw [fmul_of_finite hx hy]
  exact roundsTo_packF64 unitsPerOne_pos (Bool.bne_false _) (withSign_mul _ _ _ _).symm hone

theorem fdiv_roundsTo {x y : F64} (hx : IsFinite x) (hy : IsFinite y) (h : magUnits y ≠ 0) :
    RoundsTo (fdiv x y) (units x * 2 ^ 1074) (units y) := by
  have hnum : withSign (isNegative x) (magUnits x * unitsPerOne) = units x * 2 ^ 1074 := by
    rw [← withSign_unitsPerOne, units_eq_withSign, withSign_mul, Bool.bne_false]
  rw [fdiv_of_finite hx hy h]
  exact roundsTo_packF64 (Nat.pos_of_ne_zero h) rfl hnum rfl

/-- Settles O20: each operation's equation for the operands' class, and for finite operands the rounding of a signed
quotient. -/
theorem operationsRoundToNearestEven : Obligations.OperationsRoundToNearestEven := by
  refine ⟨fun x y hx hy => ?finite, fun x y hx => ⟨fun hy => ?infFinite, fun hy => ?infInf⟩, fun x y h => ?nan,
    fun _ _ => rfl⟩
  case finite =>
    simp only [ne_eq, units_eq_zero_iff]
    refine ⟨fadd_roundsTo hx hy, isNegative_fadd hx hy, fadd_eq_zero hx hy,
      fmul_roundsTo hx hy withSign_unitsPerOne, ?mulSign, fun hy0 => ⟨fdiv_roundsTo hx hy hy0, ?divSign⟩,
      fun hy0 hx0 => ?byZero, fun hy0 hx0 => ?zeroByZero⟩
    case mulSign => rw [fmul_of_finite hx hy, isNegative_packF64_roundUnits]
    case divSign => rw [fdiv_of_finite hx hy hy0, isNegative_packF64_roundUnits]
    case byZero =>
      rw [fdiv_by_zero hx hy hy0 hx0]
      exact ⟨isInf_packF64_infMag _, isNegative_packF64_infMag _⟩
    case zeroByZero => rw [fdiv_zero_by_zero hx hy hy0 hx0, isNaN_nanF64]
  case infFinite =>
    rw [ne_eq, units_eq_zero_iff y, fdiv_inf_finite hx hy, fdiv_finite_inf hx hy, fmul_comm y x]
    refine ⟨fadd_inf_finite hx hy, fadd_finite_inf hx hy, fun hy0 => ?_, fun hy0 => ?_, isInf_packF64_infMag _,
      isNegative_packF64_infMag _, units_packF64_zero _, ?_⟩
    · rw [fmul_inf hx hy.1 hy0]
      exact ⟨isInf_packF64_infMag _, isNegative_packF64_infMag _, rfl⟩
    · rw [fmul_inf_zero hx hy.1 hy0]
      exact ⟨isNaN_nanF64, isNaN_nanF64⟩
    · rw [isNegative_packF64 _ _ (Nat.two_pow_pos 63), bne_comm]
  case infInf =>
    rw [fadd_inf_inf hx hy, fmul_inf hx (isNaN_false_of_isInf hy) (magUnits_ne_zero_of_isInf hy), fdiv_inf_inf hx hy]
    exact ⟨fun hs => if_pos hs, fun hs => by rw [if_neg hs, isNaN_nanF64], isInf_packF64_infMag _,
      isNegative_packF64_infMag _, isNaN_nanF64⟩
  case nan =>
    obtain ⟨hadd, hmul, hdiv⟩ := operations_nan h
    rw [hadd, hmul, hdiv]
    exact ⟨isNaN_nanF64, isNaN_nanF64, isNaN_nanF64⟩

/-! ## The integer conversions -/

/-- A magnitude that a pattern stands for is its own rounding. -/
theorem roundUnits_exact {n : Nat} (h : magOfPattern n < overflowUnits) : roundUnits (magOfPattern n) 1 = n := by
  have hfin : roundUnits (magOfPattern n) 1 ≠ infMag := by
    rw [ne_eq, roundUnits_eq_infMag_iff Nat.one_pos]; omega
  obtain ⟨hle, -⟩ := roundUnits_atLeastAsNear Nat.one_pos hfin n
  exact magOfPattern_strictMono.injective (by omega)

/-- Every integer of at most 53 bits is a significand at every step: shifted up until it fills one, or at step 0. -/
theorem exists_magOfPattern_eq (e : Nat) : ∀ m ≤ 2 ^ 53, ∃ n, magOfPattern n = m * 2 ^ e := by
  induction e with
  | zero => exact fun m hm => ⟨m + 0 * 2 ^ 52, magOfPattern_add m 0 hm (.inl rfl)⟩
  | succ e ih =>
    intro m hm
    by_cases hsmall : 2 * m ≤ 2 ^ 53
    · obtain ⟨n, hn⟩ := ih (2 * m) hsmall
      exact ⟨n, by rw [hn, pow_succ]; ring⟩
    · exact ⟨m + (e + 1) * 2 ^ 52, magOfPattern_add m (e + 1) hm (.inr (by omega))⟩

theorem mul_unitsPerOne_lt_overflow {m : Nat} (hm : m ≤ 2 ^ 53) : m * unitsPerOne < overflowUnits := by
  have hmax : 2 ^ 53 * unitsPerOne < overflowUnits := by decide +kernel
  exact lt_of_le_of_lt (Nat.mul_le_mul_right _ hm) hmax

theorem magOfPattern_roundUnits_integer {m : Nat} (hm : m ≤ 2 ^ 53) :
    magOfPattern (roundUnits (m * unitsPerOne) 1) = m * unitsPerOne := by
  obtain ⟨n, hn⟩ := exists_magOfPattern_eq 1074 m hm
  change magOfPattern n = m * unitsPerOne at hn
  have hlt := mul_unitsPerOne_lt_overflow hm
  rw [← hn] at hlt ⊢
  rw [roundUnits_exact hlt]

/-- R15: `i2f` is exact for integers of at most 53 bits. -/
theorem i2f_exact {n : Int} (hn : n.natAbs ≤ 2 ^ 53) : units (i2f n) = n * 2 ^ 1074 ∧ IsFinite (i2f n) := by
  have hfin : roundUnits (n.natAbs * unitsPerOne) 1 ≠ infMag := by
    have := mul_unitsPerOne_lt_overflow hn
    rw [ne_eq, roundUnits_eq_infMag_iff Nat.one_pos]; omega
  refine ⟨?_, isNaN_packF64 _ _ (roundUnits_le _ _), ?_⟩
  · calc units (i2f n)
        = withSign (decide (n < 0)) (n.natAbs * unitsPerOne) := by
          rw [i2f, units_packF64 _ _ (roundUnits_lt_two_pow _ _), magOfPattern_roundUnits_integer hn]; rfl
      _ = withSign (decide (n < 0)) n.natAbs * withSign false unitsPerOne := by rw [withSign_mul, Bool.bne_false]
      _ = n * 2 ^ 1074 := by rw [withSign_decide_neg, withSign_unitsPerOne]
  · rw [i2f, isInf_packF64 _ _ (roundUnits_le _ _), decide_eq_false hfin]

/-- R16: no integer is nearer to `q` than `rne q`, which is even where another is as near. -/
theorem rne_nearest (q : F64) (n : Int) :
    (rne q * 2 ^ 1074 - units q).natAbs ≤ (n * 2 ^ 1074 - units q).natAbs ∧
      ((rne q * 2 ^ 1074 - units q).natAbs = (n * 2 ^ 1074 - units q).natAbs → n = rne q ∨ rne q % 2 = 0) := by
  have hnear := fun j => roundTiesEven_nearest (magUnits q) unitsPerOne j unitsPerOne_pos
  obtain ⟨hle, htie⟩ := withSign_nearest (isNegative q) false (decide (n < 0)) unitsPerOne_pos (hnear n.natAbs) (hnear 0)
  rw [Bool.bne_false, withSign_unitsPerOne, withSign_decide_neg, ← rne_eq_withSign, ← units_eq_withSign] at hle htie
  exact ⟨hle, fun h => (htie h).imp_right (withSign_emod_two _)⟩

/-- Settles O21: an integer of 53 bits is a pattern's own magnitude, and `rne` is the nearest of signed candidates. -/
theorem integerConversions : Obligations.IntegerConversions := by
  refine ⟨fun n hn => ?_, fun q n _ _ => rne_nearest q n⟩
  obtain ⟨hunits, hnan, hinf⟩ := i2f_exact hn
  exact ⟨hunits, hnan, hinf⟩

end Sys2Proof.Machine
end

section
/-!
PROOFS. The commands' COMPUTE steps (R47, R191, R281, R291). What each of the two families of commands can end in is said
once; the frames, the invariants and the runs of the later sections go through these cases.
-/

namespace Sys2Proof.Machine

/-! ## The commands that build no program -/

/-- The ends of the COMPUTE step of a command that builds no program: an error reported (R281), or a value in RESULT, and a
class beside it for VALIDATE alone (R47, R176). -/
inductive PlainEnd (i : Instr) (s : State) : State → Prop where
  | error (e : CmdError) : PlainEnd i s (raiseError e s)
  | value (v : DWord) : PlainEnd i s (completeCommand (setResult v s))
  | classified (hi : i = .validate) (c : WindowClass) (v : DWord) :
    PlainEnd i s (completeCommand (setResult v (setClass (classBits c) s)))

theorem finishPlain_setResult {i : Instr} {s t : State} {r : Except CmdError DWord}
    (h : finishPlain s (r.map (setResult · s)) = .next t) : PlainEnd i s t := by
  cases r with
  | ok v => cases h; exact .value v
  | error e => cases h; exact .error e

theorem execValidate_cases {s t : State} (h : execValidate s = .next t) : PlainEnd .validate s t := by
  obtain ⟨u, hu, rfl⟩ | ⟨e, -, rfl⟩ := finishPlain_cases h
  · obtain ⟨⟨c, rate⟩, -, hpure⟩ := bind_ok_iff.1 hu
    cases hpure
    exact .classified rfl c _
  · exact .error e

theorem exec_plain_cases {i : Instr} {s t : State} (hi : i ∈ plainCommands) (h : exec i s = .next t) :
    PlainEnd i s t := by
  cases i with
  | quant | cyc2sec | regidx | regaddr => exact finishPlain_setResult h
  | validate => exact execValidate_cases h
  | sync | delta | one | seq | build => simp [plainCommands] at hi

/-- Settles O45: each of the three ends of a plain command leaves the other fields alone. -/
theorem plainCommandsFrame : Obligations.PlainCommandsFrame := by
  intro s t i hi h
  cases exec_plain_cases hi h with
  | error e => exact ⟨rfl, fun _ => rfl⟩
  | value v => exact ⟨rfl, fun _ => rfl⟩
  | classified hv c v => exact ⟨rfl, fun hne => absurd hv hne⟩

/-! ## The program-building commands -/

/-- The builder makes the program `g` of the ten windows `w` at the operands of `s` (R191, R253). -/
def BuildsProgram (s : State) (w : Vector Window 10) (g : Program) : Prop :=
  PeriodOk s.clkPeriod ∧
    ∃ count, buildProgram s.clkPeriod (latchedRate s) w count s.deadTime s.repRate = .ok g

/-- The ends of the COMPUTE step of a program-building command: an error reported (R281), or its windows kept and the
builder's program committed (R191, R248); BUILD's windows are the buffer's own (R253). -/
inductive BuildingEnd (i : Instr) (s : State) : State → Prop where
  | error (e : CmdError) : BuildingEnd i s (raiseError e s)
  | program (w : Vector Window 10) (g : Program) (hg : BuildsProgram s w g) (hw : i = .build → w = bufferWindows s) :
    BuildingEnd i s (commitProgram g (writeWindows w s))

theorem writeWindows_bufferWindows (s : State) : writeWindows (bufferWindows s) s = s := by
  have hstart : (tenOf fun k => (bufferWindows s)[k].start) = s.regs.winStart :=
    (eq_tenOf _ _ fun k => by simp only [bufferWindows, tenOf_getElem_fin]).symm
  have hstop : (tenOf fun k => (bufferWindows s)[k].stop) = s.regs.winStop :=
    (eq_tenOf _ _ fun k => by simp only [bufferWindows, tenOf_getElem_fin]).symm
  rw [writeWindows, hstart, hstop]

theorem modeCommand_cases {i : Instr} {synth : State → F64 → Except CmdError (Vector Window 10)} {s t : State}
    (hi : i ≠ .build) (h : finishBuilding s (modeCommand synth s) = .next t) : BuildingEnd i s t := by
  obtain hok | ⟨e, -, rfl⟩ := finishBuilding_cases h
  · obtain ⟨hp, w, g, -, hg, rfl⟩ := modeCommand_ok.1 hok
    exact .program w g ⟨hp, _, hg⟩ fun hb => absurd hb hi
  · exact .error e

theorem execBuild_cases {s t : State} (h : execBuild s = .next t) : BuildingEnd .build s t := by
  obtain hok | ⟨e, -, rfl⟩ := finishBuilding_cases h
  · obtain ⟨hp, g, hg, rfl⟩ := buildCommand_ok.1 hok
    have hend := BuildingEnd.program (i := .build) (bufferWindows s) g ⟨hp, _, hg⟩ fun _ => rfl
    rwa [writeWindows_bufferWindows] at hend
  · exact .error e

theorem exec_building_cases {i : Instr} {s t : State} (hi : i ∈ buildingCommands) (h : exec i s = .next t) :
    BuildingEnd i s t := by
  cases i with
  | sync | delta | one | seq => exact modeCommand_cases (by decide) h
  | build => exact execBuild_cases h
  | quant | cyc2sec | validate | regidx | regaddr => simp [buildingCommands] at hi

/-- Settles O46: an error changes the report, a commit the windows, the shadow and the sequencer; BUILD's windows are those
it found. -/
theorem buildingCommandsFrame : Obligations.BuildingCommandsFrame := by
  intro s t i hi h
  cases exec_building_cases hi h with
  | error e => exact ⟨rfl, fun _ => ⟨rfl, rfl⟩⟩
  | program w g _ hw =>
    refine ⟨rfl, fun hb => ?_⟩
    rw [hw hb, writeWindows_bufferWindows]
    exact ⟨rfl, rfl⟩

theorem mem_plain_or_building (i : Instr) : i ∈ plainCommands ∨ i ∈ buildingCommands := by cases i <;> decide

end Sys2Proof.Machine
end

section
/-!
PROOFS. What one step can do (R61, R80, R90, R320), said once: the step is a reset, or one move of the block with the host's
side of the bus brought up to date. The rules about every step are case analyses of the moves.
-/

namespace Sys2Proof.Machine

/-- The state with other values in the model's own fields of the host's side of the bus. -/
def withHostSide (inbox : List Event) (settled : Bool) (reads : Nat) (busData : Word) (s : State) : State :=
  { s with inbox := inbox, settled := settled, reads := reads, busData := busData }

theorem busy_eq_false_iff (s : State) : busy s = false ↔ s.phase = .idle := by
  simp [busy]

theorem engineStep_idle {s : State} (h : s.phase = .idle) : engineStep s = .next s := by
  simp only [engineStep, h]

theorem engineStep_compute {s : State} (h : s.phase = .compute) : engineStep s = computeStep s := by
  simp only [engineStep, h]

theorem engineStep_emit {s : State} (h : s.phase = .emit) : engineStep s = .next (emitStep s) := by
  simp only [engineStep, h]

/-! ## The moves of the block -/

/-- The moves of the block that are no reset: host writes (R36, R54 to R57, R290), the COMPUTE step (R291), the EMIT step
(R251, R252). -/
inductive BlockMove (s : State) : State → Prop where
  | stay : BlockMove s s
  | setWerr (b : Bool) : BlockMove s { s with werr := b }
  | accept (w : Word) (hidle : s.phase = .idle) : BlockMove s (acceptCommand w s)
  | store (w : WindowWord) (v : Word) (hidle : s.phase = .idle)
    (hclass : wordClass w = .readWrite ∨ (wordClass w = .lockable ∧ s.lock = false)) : BlockMove s (storeWord w v s)
  | illegal (hphase : s.phase = .compute) : BlockMove s (illegalCommand s)
  | plain {t : State} (i : Instr) (hphase : s.phase = .compute) (hend : PlainEnd i s t) : BlockMove s t
  | building {t : State} (i : Instr) (hphase : s.phase = .compute) (hend : BuildingEnd i s t) : BlockMove s t
  | held (hphase : s.phase = .emit) (hk : s.k < 42) : BlockMove s { s with downstream := afterOffer s.downstream }
  | issued (hphase : s.phase = .emit) (hk : s.k < 41) : BlockMove s { s with
      trace := s.trace ++ [(BitVec.ofNat 32 ((seqWrite s.regs.prog s.k).1 * 4), (seqWrite s.regs.prog s.k).2)]
      k := s.k + 1, downstream := afterOffer s.downstream }
  | ended (hphase : s.phase = .emit) (hk : s.k = 41) : BlockMove s { s with
      trace := s.trace ++ [(BitVec.ofNat 32 ((seqWrite s.regs.prog 41).1 * 4), (seqWrite s.regs.prog 41).2)]
      k := 42, downstream := afterOffer s.downstream, phase := .idle, done := true
      regs := { s.regs with latchRep := s.regs.prog.repCyc, latchValid := true } }

theorem blockMove_hostStore (off : Nat) (v : Word) (s : State) : BlockMove s (hostStore off v s) := by
  obtain h | h | h | ⟨hb, h⟩ | ⟨w, hb, hclass, h⟩ := hostStore_cases off v s
  · rw [h]; exact .setWerr true
  · rw [h]; exact .stay
  · rw [h]; exact .setWerr false
  · rw [h]; exact .accept v ((busy_eq_false_iff s).1 hb)
  · rw [h]; exact .store w v ((busy_eq_false_iff s).1 hb) hclass

theorem blockMove_computeStep {s t : State} (hphase : s.phase = .compute) (h : computeStep s = .next t) :
    BlockMove s t := by
  rw [computeStep] at h
  split at h
  · rename_i i _
    obtain hi | hi := mem_plain_or_building i
    · exact .plain i hphase (exec_plain_cases hi h)
    · exact .building i hphase (exec_building_cases hi h)
  · cases h
    exact .illegal hphase

theorem blockMove_emitStep {s : State} (hphase : s.phase = .emit) : BlockMove s (emitStep s) := by
  obtain ⟨-, h⟩ | ⟨hk, -, h⟩ | ⟨hk, -, h⟩ | ⟨hk, -, h⟩ := emitStep_cases s
  · rw [h]; exact .stay
  · rw [h]; exact .held hphase hk
  · rw [h]; exact .issued hphase hk
  · rw [h]; exact .ended hphase hk

theorem blockMove_engineStep {s t : State} (h : engineStep s = .next t) : BlockMove s t := by
  cases hphase : s.phase with
  | idle =>
    rw [engineStep_idle hphase] at h
    cases h
    exact .stay
  | compute =>
    rw [engineStep_compute hphase] at h
    exact blockMove_computeStep hphase h
  | emit =>
    rw [engineStep_emit hphase] at h
    cases h
    exact blockMove_emitStep hphase

theorem pollStatus_eq (s : State) : ∃ inbox settled reads busData,
    pollStatus s = withHostSide inbox settled reads busData s := by
  rw [pollStatus]
  split <;> exact ⟨_, _, _, _, rfl⟩

theorem answerHost_cases {r : BusReply × State} {t : State} (h : answerHost r = .next t) :
    ∃ d, t = { r.2 with busData := d } := by
  rw [answerHost] at h
  split at h
  · cases h; exact ⟨_, rfl⟩
  · cases h

theorem hostRead_state (bytes : Nat) (off : Offset) (s : State) : ∃ settled reads,
    (hostRead bytes off s).2 = withHostSide s.inbox settled reads s.busData s := by
  rw [hostRead]
  split <;> exact ⟨_, _, rfl⟩

theorem blockMove_hostWrite (bytes : Nat) (off : Offset) (v : Word) (s : State) :
    BlockMove s (hostWrite bytes off v s).2 := by
  rw [hostWrite]
  split
  · exact blockMove_hostStore _ _ _
  · exact .stay

/-- One scheduled move: a reset, or a move of the block and an update of the host's side. -/
theorem serveEvent_cases {e : Event} {s t : State} (h : serveEvent e s = .next t) :
    (e = .reset ∧ t = applyReset s) ∨ ∃ u inbox settled reads busData,
      BlockMove s u ∧ t = withHostSide inbox settled reads busData u := by
  cases e with
  | read bytes off =>
    obtain ⟨d, rfl⟩ := answerHost_cases h
    obtain ⟨settled, reads, hr⟩ := hostRead_state bytes off s
    exact .inr ⟨s, _, settled, reads, d, .stay, by rw [hr]; rfl⟩
  | write bytes off v =>
    obtain ⟨d, rfl⟩ := answerHost_cases h
    exact .inr ⟨_, _, _, _, d, blockMove_hostWrite bytes off v s, rfl⟩
  | poll =>
    cases h
    obtain ⟨inbox, settled, reads, busData, hp⟩ := pollStatus_eq s
    exact .inr ⟨s, inbox, settled, reads, busData, .stay, hp⟩
  | reset => cases h; exact .inl ⟨rfl, rfl⟩
  | engine => exact .inr ⟨t, _, _, _, _, blockMove_engineStep h, rfl⟩
  | wait => cases h; exact .inr ⟨s, _, _, _, _, .stay, rfl⟩

/-- Every step that answers a next state is a reset that was scheduled, or a move of the block; the schedule and the host's
side of the bus apart, the move finds the state as it was. -/
theorem step_cases {s t : State} (h : step s = .next t) :
    (s.inbox.head? = some .reset ∧ ∃ rest, t = applyReset { s with inbox := rest }) ∨
    ∃ l u inbox settled reads busData,
      BlockMove { s with inbox := l } u ∧ t = withHostSide inbox settled reads busData u := by
  rw [step, nextMove] at h
  split at h
  · exact .inr ⟨s.inbox, t, _, _, _, _, blockMove_engineStep h, rfl⟩
  · rename_i e rest hs
    obtain ⟨rfl, ht⟩ | hmove := serveEvent_cases h
    · exact .inl ⟨by rw [hs]; rfl, rest, ht⟩
    · exact .inr ⟨rest, hmove⟩

/-! ## Accepted host writes -/

/-- The state `s` with what a host write can change taken from `t`: the operands, PARAM, and the window buffer with its old
value (R57). -/
def withOperandsOf (t s : State) : State :=
  { s with
    clkPeriod := t.clkPeriod, repRate := t.repRate, deadTime := t.deadTime, pulseLen := t.pulseLen, auxTime := t.auxTime
    param := t.param, delayBegin := t.delayBegin, delayEnd := t.delayEnd, opA := t.opA, opB := t.opB, opC := t.opC
    regs := { s.regs with winStart := t.regs.winStart, winStop := t.regs.winStop }
    old := t.old }

theorem modify64_frame (r : Reg64) (f : DWord → DWord) (s : State) :
    modify64 r f s = withOperandsOf (modify64 r f s) s := by
  cases r <;> rfl

theorem storeWord_frame (w : WindowWord) (v : Word) (s : State) : storeWord w v s = withOperandsOf (storeWord w v s) s := by
  cases w with
  | word r => cases r <;> rfl
  | low r => exact modify64_frame r _ s
  | high r => exact modify64_frame r _ s

section
variable (w : WindowWord) (v : Word) (s : State)

@[simp] theorem storeWord_done : (storeWord w v s).done = s.done := by
  rw [storeWord_frame]; rfl
@[simp] theorem storeWord_lock : (storeWord w v s).lock = s.lock := by
  rw [storeWord_frame]; rfl
@[simp] theorem storeWord_phase : (storeWord w v s).phase = s.phase := by
  rw [storeWord_frame]; rfl
@[simp] theorem storeWord_op : (storeWord w v s).op = s.op := by
  rw [storeWord_frame]; rfl
@[simp] theorem storeWord_k : (storeWord w v s).k = s.k := by
  rw [storeWord_frame]; rfl
@[simp] theorem storeWord_trace : (storeWord w v s).trace = s.trace := by
  rw [storeWord_frame]; rfl
@[simp] theorem storeWord_inbox : (storeWord w v s).inbox = s.inbox := by
  rw [storeWord_frame]; rfl
theorem storeWord_regs : (storeWord w v s).regs =
    { s.regs with winStart := (storeWord w v s).regs.winStart, winStop := (storeWord w v s).regs.winStop } :=
  congrArg State.regs (storeWord_frame w v s)

end

theorem clkPeriod_modify64 {r : Reg64} (f : DWord → DWord) (s : State) (hr : reg64Class r ≠ .lockable) :
    (modify64 r f s).clkPeriod = s.clkPeriod := by
  cases r with
  | clkPeriod => exact absurd rfl hr
  | _ => rfl

/-- Only a write of CLK_PERIOD's own words changes it (R38, R57). -/
theorem storeWord_clkPeriod {w : WindowWord} (v : Word) (s : State) (hw : wordClass w ≠ .lockable) :
    (storeWord w v s).clkPeriod = s.clkPeriod := by
  cases w with
  | word r => cases r <;> rfl
  | low r => exact clkPeriod_modify64 _ s hw
  | high r => exact clkPeriod_modify64 _ s hw

/-! ## Rules about every step -/

/-- Every write of the sequence goes to one of the pulse generator's 42 registers (R249). -/
theorem seqWrite_index_lt (g : Shadow) (m : Nat) : (seqWrite g m).1 < 42 := by
  have hslot := (seqSlot m).isLt
  simp only [seqWrite, ioInitIndex, repRateIndex, channelRegister]
  split_ifs <;> simp <;> omega

/-- R65, R96: no move but an accepted EMIT write extends the trace. -/
theorem BlockMove.trace_eq {s t : State} (h : BlockMove s t) :
    t.trace = s.trace ∨ (s.phase = .emit ∧ ∃ m, t.trace =
      s.trace ++ [(BitVec.ofNat 32 ((seqWrite s.regs.prog m).1 * 4), (seqWrite s.regs.prog m).2)]) := by
  cases h with
  | stay | setWerr | accept | illegal | held => exact .inl rfl
  | store w v => exact .inl (storeWord_trace w v s)
  | plain i hphase hend => cases hend <;> exact .inl rfl
  | building i hphase hend => cases hend <;> exact .inl rfl
  | issued hphase hk => exact .inr ⟨hphase, _, rfl⟩
  | ended hphase hk => exact .inr ⟨hphase, _, rfl⟩

/-- Settles O57: the moves leave the trace or append one write of the sequence; reset keeps it. -/
theorem traceGrowsOnlyInEmit : Obligations.TraceGrowsOnlyInEmit := by
  intro s t h
  obtain ⟨-, rest, rfl⟩ | ⟨l, u, _, _, _, _, hmove, rfl⟩ := step_cases h
  · exact .inl rfl
  · exact hmove.trace_eq.imp id fun ⟨hphase, m, hm⟩ => ⟨hphase, ⟨_, seqWrite_index_lt _ m⟩, _, hm⟩

/-- R52, R53: the latch changes only where write 41 is accepted. -/
theorem BlockMove.latch_eq {s t : State} (h : BlockMove s t) :
    (t.regs.latchRep = s.regs.latchRep ∧ t.regs.latchValid = s.regs.latchValid) ∨
    (s.phase = .emit ∧ s.k = 41 ∧ t.regs.latchRep = s.regs.prog.repCyc ∧ t.regs.latchValid = true) := by
  cases h with
  | stay | setWerr | accept | illegal | held | issued => exact .inl ⟨rfl, rfl⟩
  | store w v => rw [storeWord_regs]; exact .inl ⟨rfl, rfl⟩
  | plain i hphase hend => cases hend <;> exact .inl ⟨rfl, rfl⟩
  | building i hphase hend => cases hend <;> exact .inl ⟨rfl, rfl⟩
  | ended hphase hk => exact .inr ⟨hphase, hk, rfl, rfl⟩

/-- Settles O58: a step that is no reset is one move of the block, and the host's side has no part in the latch. -/
theorem latchChangesOnlyAtEnd : Obligations.LatchChangesOnlyAtEnd := by
  intro s t h hreset
  obtain ⟨hr, -⟩ | ⟨l, u, _, _, _, _, hmove, rfl⟩ := step_cases h
  · exact absurd hr hreset
  · exact hmove.latch_eq

/-- R54, R94: while the engine is busy no move changes what a host can write. -/
theorem BlockMove.operands_eq {s t : State} (h : BlockMove s t) (hbusy : s.phase ≠ .idle) :
    t.clkPeriod = s.clkPeriod ∧ t.repRate = s.repRate ∧ t.deadTime = s.deadTime ∧ t.pulseLen = s.pulseLen ∧
    t.auxTime = s.auxTime ∧ t.param = s.param ∧ t.delayBegin = s.delayBegin ∧ t.delayEnd = s.delayEnd ∧
    t.opA = s.opA ∧ t.opB = s.opB ∧ t.opC = s.opC := by
  cases h with
  | accept w hidle => exact absurd hidle hbusy
  | store w v hidle => exact absurd hidle hbusy
  | plain i hphase hend => cases hend <;> simp
  | building i hphase hend => cases hend <;> simp
  | stay | setWerr | illegal | held | issued | ended => simp [illegalCommand]

/-- R38: once LOCK is 1, no move changes LOCK or CLK_PERIOD. -/
theorem BlockMove.lock_eq {s t : State} (h : BlockMove s t) (hlock : s.lock = true) :
    t.lock = true ∧ t.clkPeriod = s.clkPeriod := by
  cases h with
  | store w v _ hclass =>
    have hw : wordClass w ≠ .lockable := by
      obtain hrw | ⟨-, hfree⟩ := hclass
      · simp [hrw]
      · simp [hlock] at hfree
    exact ⟨(storeWord_lock w v s).trans hlock, storeWord_clkPeriod v s hw⟩
  | plain i hphase hend => cases hend <;> exact ⟨hlock, rfl⟩
  | building i hphase hend => cases hend <;> exact ⟨hlock, rfl⟩
  | accept => exact ⟨rfl, rfl⟩
  | stay | setWerr | illegal | held | issued | ended => exact ⟨hlock, rfl⟩

/-- Settles O59: a step that is no reset is one move of the block, and both clauses hold of every move. -/
theorem registersHeldUntilReset : Obligations.RegistersHeldUntilReset := by
  intro s t h hreset
  obtain ⟨hr, -⟩ | ⟨l, u, _, _, _, _, hmove, rfl⟩ := step_cases h
  · exact absurd hr hreset
  · exact ⟨hmove.operands_eq, hmove.lock_eq⟩

end Sys2Proof.Machine
end

section
/-!
PROOFS. The legal states (R35, R43, R50, R51, R53, R60, R61). A program that the builder answers is in order on cycles, so
the shadow it is committed to is; every move of the block then keeps the clauses of the invariant.
-/

namespace Sys2Proof.Machine

/-! ## The program that the builder answers -/

/-- What holds of a program that the builder answers, in cycles (R233, R238, R241, R243, R246). -/
structure ProgramOk (g : Program) : Prop where
  repC_pos : 0 < g.repC
  repC_le : g.repC ≤ 4294967295
  cs_eq : g.cs = g.deadC
  cs_nonneg : 0 ≤ g.cs
  cs_lt : g.cs < g.ct
  ct_le : g.ct ≤ g.repC
  io_high : g.io.extractLsb' 10 10 = 0x3FF
  sentinel : ∀ i : Fin 10, g.io.getLsbD i = true →
    g.repC + 2 ≤ 4294967295 ∧ g.ps[i] = g.repC + 2 ∧ g.pt[i] = g.repC + 2
  enabled : ∀ i : Fin 10, g.io.getLsbD i = false → 0 ≤ g.ps[i] ∧ g.ps[i] < g.pt[i] ∧ g.pt[i] ≤ g.repC

/-- R243: bit `i` of the mask says whether slot `i` is disabled. -/
theorem getLsbD_ioMask (off : Fin 10 → Bool) (i : Fin 10) : (ioMask off).getLsbD i = off i := by
  have hall : ∀ (n : Fin 1024) (i : Fin 10), (ioMask fun j => n.val.testBit j.val).getLsbD i = n.val.testBit i := by
    decide +kernel
  have hoff := hall ⟨Nat.ofBits off, Nat.ofBits_lt_two_pow off⟩ i
  simpa only [Nat.testBit_ofBits_lt off _ (Fin.isLt _)] using hoff

theorem mem_slots (i : Fin 10) : i ∈ slots := by fin_cases i <;> decide

/-- The steps of the builder on ten windows that it answers (R231 to R247): the rates are quantizable, every slot passes,
and the charge window is in order. -/
theorem buildProgram_ok {p : F64} {latch : Option Int} {w : Vector Window 10} {count : Nat} {dead rep : F64} {g : Program}
    (hp : PeriodOk p) (h : buildProgram p latch w count dead rep = .ok g) :
    TimesPass p rep dead ∧ (∀ i : Fin 10, SlotOk p rep w[i]) ∧
      cycles p dead < cycles p (earliestStart rep w) - cycles p dead ∧
      cycles p (earliestStart rep w) - cycles p dead ≤ cycles p rep ∧ g = programOf p rep dead w := by
  obtain ⟨_, -, h⟩ := bind_ok_iff.1 h
  obtain ⟨_, hrep, h⟩ := bind_ok_iff.1 h
  obtain ⟨_, hdead, h⟩ := bind_ok_iff.1 h
  obtain ⟨acc, hslots, h⟩ := bind_ok_iff.1 h
  obtain ⟨hrepQ, hrep0, rfl⟩ := buildRepRate_ok.1 hrep
  obtain ⟨hdeadQ, hdeadMin, rfl⟩ := buildDeadTime_ok.1 hdead
  have hpos : 0 < cycles p rep := lt_of_le_of_ne (cycles_nonneg hp hrepQ) (Ne.symm hrep0)
  obtain ⟨hpass, hacc⟩ := (buildSlots_ok (ctx := ⟨p, rep, cycles p rep, latch⟩) hp rfl hpos slots _ acc).1 hslots
  rw [hacc, slots_result ⟨p, rep, cycles p rep, latch⟩] at h
  obtain ⟨-, ⟨-, hcharge, hct⟩, hg⟩ :=
    (buildCharge_ok (ctx := ⟨p, rep, cycles p rep, latch⟩) hpos (by exact ioMask_high _)).1 h
  exact ⟨⟨hrepQ, hrep0, hdeadQ, hdeadMin⟩, fun i => hpass i (mem_slots i), hcharge, hct, hg⟩

theorem buildProgram_programOk {p : F64} {latch : Option Int} {w : Vector Window 10} {count : Nat} {dead rep : F64}
    {g : Program} (hp : PeriodOk p) (h : buildProgram p latch w count dead rep = .ok g) : ProgramOk g := by
  obtain ⟨⟨hrep, hrep0, hdead, -⟩, hslot, hcharge, hct, rfl⟩ := buildProgram_ok hp h
  exact {
    repC_pos := lt_of_le_of_ne (cycles_nonneg hp hrep) (Ne.symm hrep0)
    repC_le := hrep.2.2.2
    cs_eq := rfl
    cs_nonneg := cycles_nonneg hp hdead
    cs_lt := hcharge
    ct_le := hct
    io_high := ioMask_high _
    sentinel := fun i hi => by
      have hoff : SlotOff rep w[i] := by simpa only [programOf, getLsbD_ioMask, decide_eq_true_eq] using hi
      simp only [programOf, tenOf_getElem_fin, if_pos hoff, and_self, and_true]
      exact (hslot i).1 hoff
    enabled := fun i hi => by
      have hon : ¬ SlotOff rep w[i] := by simpa only [programOf, getLsbD_ioMask, decide_eq_false_iff_not] using hi
      obtain ⟨-, -, -, hstart, -, hlt, hle⟩ := (hslot i).2 hon
      simp only [programOf, tenOf_getElem_fin, if_neg hon]
      exact ⟨cycles_nonneg hp hstart, hlt, hle⟩ }

/-! ## The shadow of such a program -/

theorem toNat_u32 {n : Int} (h0 : 0 ≤ n) (h1 : n ≤ 4294967295) : ((u32 n).toNat : Int) = n := by
  rw [u32, BitVec.toNat_ofInt]
  omega

theorem zeroExtend_shiftRight_ten {io : BitVec 20} (h : io.extractLsb' 10 10 = 0x3FF) :
    (io.zeroExtend 32) >>> 10 = 0x3FF#32 := by
  have hn := congrArg BitVec.toNat h
  apply BitVec.eq_of_toNat_eq
  simp only [BitVec.extractLsb'_toNat, BitVec.toNat_ushiftRight, BitVec.toNat_setWidth, Nat.shiftRight_eq_div_pow] at hn ⊢
  simp at hn ⊢
  omega

theorem ProgramOk.shadowOk {g : Program} (h : ProgramOk g) : ShadowOk (shadowOf g) := by
  have hrepPos := h.repC_pos
  have hrepLe := h.repC_le
  have hcsNonneg := h.cs_nonneg
  have hcsLt := h.cs_lt
  have hctLe := h.ct_le
  have hrep := toNat_u32 hrepPos.le hrepLe
  have hcs := toNat_u32 hcsNonneg (by omega)
  have hct := toNat_u32 (n := g.ct) (by omega) (by omega)
  refine ⟨?_, by simp only [shadowOf, h.cs_eq], ?_, ?_, zeroExtend_shiftRight_ten h.io_high, fun i => ?_⟩
  · simp only [shadowOf]; omega
  · simp only [shadowOf]; omega
  · simp only [shadowOf]; omega
  · have hbit : (g.io.zeroExtend 32).getLsbD i = g.io.getLsbD i := by
      simp [BitVec.getLsbD_setWidth]; omega
    simp only [shadowOf, hbit, tenOf_getElem_fin]
    split
    case isTrue hi =>
      obtain ⟨hle, hps, hpt⟩ := h.sentinel i hi
      have hsent := toNat_u32 (n := g.repC + 2) (by omega) hle
      rw [hps, hpt]
      omega
    case isFalse hi =>
      obtain ⟨hps, hlt, hpt⟩ := h.enabled i (by simpa using hi)
      have hstart := toNat_u32 hps (by omega)
      have hstop := toNat_u32 (n := g.pt[i]) (by omega) (by omega)
      omega

/-- R50: a committed program's shadow is in order. -/
theorem BuildsProgram.shadowOk {s : State} {w : Vector Window 10} {g : Program} (h : BuildsProgram s w g) :
    ShadowOk (shadowOf g) := by
  obtain ⟨hp, count, hg⟩ := h
  exact (buildProgram_programOk hp hg).shadowOk

/-! ## The invariant -/

theorem errorCode_le (e : ErrorKind) : (errorCode e).toNat ≤ 0x16 := by cases e <;> decide

theorem classBits_ne (c : WindowClass) : classBits c ≠ 0b11 := by cases c <;> decide

/-- The clauses of a legal state about PARAM, CLASS, the shadow and the latch, in which the phase has no part. -/
abbrev ContentsOk (param : Word) (r : CmdRegs) : Prop :=
  (param &&& 0xFF000800) = 0 ∧ r.cls ≠ 0b11 ∧ (r.progValid = true → ShadowOk r.prog) ∧
  (r.latchValid = true → 0 < r.latchRep.toNat)

/-- The clauses of a legal state about the error report (R280, R281, R290). -/
abbrev ReportOk (r : CmdRegs) : Prop :=
  (r.err = false → r.errCode = 0 ∧ r.errChan = 15) ∧ r.errCode.toNat ≤ 0x16

/-- The clauses of a legal state about the sequencer (R60, R61, R290). -/
abbrev SequencerOk (s : State) : Prop :=
  s.k ≤ 42 ∧ (s.phase = .emit → s.k < 42 ∧ s.regs.progValid = true) ∧ (s.phase = .compute → s.k = 0) ∧
  (s.phase ≠ .idle → s.lock = true ∧ s.done = false ∧ s.regs.err = false)

theorem stateOk_iff (s : State) : StateOk s ↔ SequencerOk s ∧ ContentsOk s.param s.regs ∧ ReportOk s.regs := by
  constructor
  · rintro ⟨hk, hemit, hcompute, hbusy, hparam, hcls, hclear, hcode, hshadow, hlatch⟩
    exact ⟨⟨hk, hemit, hcompute, hbusy⟩, ⟨hparam, hcls, hshadow, hlatch⟩, hclear, hcode⟩
  · rintro ⟨⟨hk, hemit, hcompute, hbusy⟩, ⟨hparam, hcls, hshadow, hlatch⟩, hclear, hcode⟩
    exact ⟨hk, hemit, hcompute, hbusy, hparam, hcls, hclear, hcode, hshadow, hlatch⟩

/-- In IDLE the sequencer's clauses come to the bound on the index. -/
theorem stateOk_of_idle {s : State} (hphase : s.phase = .idle) (hk : s.k ≤ 42) (hcontents : ContentsOk s.param s.regs)
    (hreport : ReportOk s.regs) : StateOk s :=
  (stateOk_iff s).2 ⟨⟨hk, by simp [hphase], by simp [hphase], by simp [hphase]⟩, hcontents, hreport⟩

theorem reportOk_raiseError (e : CmdError) (s : State) : ReportOk (raiseError e s).regs :=
  ⟨by simp, errorCode_le e.kind⟩

theorem param_modify64 (r : Reg64) (f : DWord → DWord) (s : State) : (modify64 r f s).param = s.param := by
  cases r <;> rfl

/-- R43: a host write of PARAM stores 0 in the reserved bits. -/
theorem storeWord_param_reserved (w : WindowWord) (v : Word) {s : State} (h : (s.param &&& 0xFF000800) = 0) :
    ((storeWord w v s).param &&& 0xFF000800) = 0 := by
  cases w with
  | word r =>
    cases r with
    | param =>
      have hmask : paramMask &&& 0xFF000800 = 0 := by decide
      rw [storeWord, BitVec.and_assoc, hmask]
      exact BitVec.and_zero
    | _ => exact h
  | low r => rwa [storeWord, param_modify64]
  | high r => rwa [storeWord, param_modify64]

theorem BlockMove.stateOk {s t : State} (h : BlockMove s t) (hs : StateOk s) : StateOk t := by
  obtain ⟨⟨hk, hemit, hcompute, hbusy⟩, hcontents, hreport⟩ := (stateOk_iff s).1 hs
  have ⟨hparam, hcls, hshadow, hlatch⟩ := hcontents
  cases h with
  | stay | setWerr | held => exact hs
  | accept w hidle =>
    exact (stateOk_iff _).2 ⟨⟨by simp, by simp, by simp, by simp⟩, ⟨hparam, by simp, hshadow, hlatch⟩,
      fun _ => ⟨rfl, rfl⟩, by simp⟩
  | store w v hidle =>
    refine stateOk_of_idle ((storeWord_phase w v s).trans hidle) ((storeWord_k w v s).le.trans hk) ?_ ?_ <;>
      rw [storeWord_regs]
    · exact ⟨storeWord_param_reserved w v hparam, hcls, hshadow, hlatch⟩
    · exact hreport
  | illegal hphase => exact stateOk_of_idle rfl hk hcontents (reportOk_raiseError _ s)
  | plain i hphase hend =>
    cases hend with
    | error e => exact stateOk_of_idle rfl hk hcontents (reportOk_raiseError e s)
    | value v => exact stateOk_of_idle rfl hk hcontents hreport
    | classified hi c v => exact stateOk_of_idle rfl hk ⟨hparam, classBits_ne c, hshadow, hlatch⟩ hreport
  | building i hphase hend =>
    cases hend with
    | error e => exact stateOk_of_idle rfl hk hcontents (reportOk_raiseError e s)
    | program w g hg =>
      have hrunning := hbusy (by simp [hphase])
      exact (stateOk_iff _).2
        ⟨⟨by simp, by simp, by simp, fun _ => hrunning⟩, ⟨hparam, hcls, fun _ => hg.shadowOk, hlatch⟩, hreport⟩
  | issued hphase hlt =>
    obtain ⟨-, hvalid⟩ := hemit hphase
    have hrunning := hbusy (by simp [hphase])
    have hnext : s.k + 1 < 42 := by omega
    exact (stateOk_iff _).2
      ⟨⟨hnext.le, fun _ => ⟨hnext, hvalid⟩, by simp [hphase], fun _ => hrunning⟩, hcontents, hreport⟩
  | ended hphase =>
    obtain ⟨-, hvalid⟩ := hemit hphase
    obtain ⟨hrate, -⟩ := hshadow hvalid
    exact stateOk_of_idle rfl (by simp) ⟨hparam, hcls, hshadow, fun _ => hrate⟩ hreport

theorem stateOk_reset : StateOk State.reset := by decide +kernel

/-- Settles O55: a reset gives the reset values of every field the invariant speaks of, and every move of the block keeps
it. -/
theorem stepKeepsStateOk : Obligations.StepKeepsStateOk := by
  intro s t hs h
  obtain ⟨-, rest, rfl⟩ | ⟨l, u, _, _, _, _, hmove, rfl⟩ := step_cases h
  · exact stateOk_reset
  · exact hmove.stateOk hs

/-- Settles O54: the reset state is in IDLE with nothing valid. -/
theorem resetStateOk : Obligations.ResetStateOk := ⟨stateOk_reset, nofun⟩

end Sys2Proof.Machine
end

section
/-!
PROOFS. The register window (R33 to R38, R43, R54 to R58, R81 to R85, R91): where each word stands, what a host access of a
word does by the word's class, and what STATUS shows.
-/

namespace Sys2Proof.Machine

/-! ## The map -/

/-- Past the last word of the table nothing stands (R33). -/
theorem wordAt_eq_none {off : Nat} (h : 0x210 ≤ off) : wordAt off = none := by
  unfold wordAt
  repeat rw [if_neg (by omega)]

/-- Row by row, the word that `wordAt` finds is one that the table puts there (R33). -/
theorem wordOffset_of_wordAt_row : ∀ n < 0x84, ∀ w ∈ wordAt (4 * n), wordOffset w = 4 * n := by
  decide +kernel

theorem wordOffset_of_wordAt {off : Nat} {w : WindowWord} (halign : off % 4 = 0) (h : wordAt off = some w) :
    wordOffset w = off := by
  have hmapped : off < 0x210 := by
    by_contra hge
    rw [wordAt_eq_none (by omega)] at h
    cases h
  have hrow : off = 4 * (off / 4) := by omega
  rw [hrow] at h ⊢
  exact wordOffset_of_wordAt_row _ (by omega) w h

/-- Settles O7: the table's words are found where it puts them, and nothing else is found at an aligned offset. -/
theorem windowMapExact : Obligations.WindowMapExact := by
  intro off w halign
  refine ⟨⟨wordOffset_of_wordAt halign, ?_⟩, ?_, wordOffset_mod_four w⟩
  · rintro rfl
    exact wordAt_wordOffset w
  · exact (wordOffset_lt_mapped w).trans (by decide)

/-! ## What a host write of a word does, by its class (R33) -/

theorem wordClass_eq_status {w : WindowWord} : wordClass w = .status ↔ w = .word .status := by
  refine ⟨fun h => ?_, fun h => h ▸ rfl⟩
  cases w with
  | word r =>
    cases r with
    | status => rfl
    | _ => cases h
  | low r => cases r <;> cases h
  | high r => cases r <;> cases h

section
variable {w : WindowWord} {s : State} (v : Word)

theorem hostStore_status :
    hostStore (wordOffset (.word .status)) v s = { s with werr := if werrBit v then false else s.werr } := by
  simp only [hostStore, wordAt_wordOffset, wordClass, reg32Class]
  split <;> rfl

theorem hostStore_readOnly (hw : wordClass w = .readOnly) : hostStore (wordOffset w) v s = ignoreWrite s := by
  simp only [hostStore, wordAt_wordOffset, hw]

theorem hostStore_busy (hbusy : s.phase ≠ .idle) (hw : w ≠ .word .status) :
    hostStore (wordOffset w) v s = ignoreWrite s := by
  have hb : busy s = true := by simpa [busy] using hbusy
  simp only [hostStore, wordAt_wordOffset]
  cases hc : wordClass w with
  | status => exact absurd (wordClass_eq_status.1 hc) hw
  | command | lockable | readWrite | readOnly => simp [hb]

theorem hostStore_locked (hlock : s.lock = true) (hw : wordClass w = .lockable) :
    hostStore (wordOffset w) v s = ignoreWrite s := by
  simp only [hostStore, wordAt_wordOffset, hw, hlock, Bool.or_true, if_true]

theorem hostStore_stored (hidle : s.phase = .idle)
    (hw : wordClass w = .readWrite ∨ (wordClass w = .lockable ∧ s.lock = false)) :
    hostStore (wordOffset w) v s = storeWord w v s := by
  have hb := (busy_eq_false_iff s).2 hidle
  obtain hw | ⟨hw, hlock⟩ := hw
  · simp [hostStore, wordAt_wordOffset, hw, hb]
  · simp [hostStore, wordAt_wordOffset, hw, hb, hlock]

theorem hostStore_command (hidle : s.phase = .idle) :
    hostStore (wordOffset (.word .cmd)) v s = acceptCommand v s := by
  simp [hostStore, wordAt_wordOffset, wordClass, reg32Class, (busy_eq_false_iff s).2 hidle]

end

theorem readOnlyWords_class : ∀ w ∈ readOnlyWords, wordClass w = .readOnly := by decide

theorem writableRegs_class : ∀ r ∈ writableRegs, reg64Class r = .readWrite := by decide

/-- Settles O10: each of the three conditions makes the store an ignored one. -/
theorem ignoredWritesSetOnlyWerr : Obligations.IgnoredWritesSetOnlyWerr := by
  intro s w v rest hcond h
  have hignored : hostStore (wordOffset w) v { s with inbox := rest } = ignoreWrite { s with inbox := rest } := by
    obtain ⟨hbusy, hw⟩ | hw | ⟨hlock, rfl | rfl⟩ := hcond
    · exact hostStore_busy v hbusy hw
    · exact hostStore_readOnly v (readOnlyWords_class w hw)
    · exact hostStore_locked v hlock rfl
    · exact hostStore_locked v hlock rfl
  rw [step_write h, hignored]
  rfl

/-- Settles O11: a store to STATUS is the same in every phase. -/
theorem statusWriteClearsWerr : Obligations.StatusWriteClearsWerr := by
  intro s v rest h
  rw [step_write (w := .word .status) h, hostStore_status]
  rfl

/-! ## What the words show -/

theorem lowWord_joinWords (hi lo : Word) : lowWord (joinWords hi lo) = lo := BitVec.extractLsb'_append_eq_right

theorem highWord_joinWords (hi lo : Word) : highWord (joinWords hi lo) = hi := BitVec.extractLsb'_append_eq_left

theorem joinWords_high_low (x : DWord) : highWord x ++ lowWord x = x :=
  (BitVec.extractLsb'_append_extractLsb'_eq_extractLsb' rfl).trans BitVec.extractLsb'_eq_self

/-- Settles O14: the halves of a 64-bit register join to it, and a 32-bit register is its own word. -/
theorem windowWordsShowRegisters : Obligations.WindowWordsShowRegisters := by
  intro s k
  have hjoined : ∀ r : Reg64, windowValue s (.high r) ++ windowValue s (.low r) = reg64Value s.regs s r :=
    fun r => joinWords_high_low _
  simp only [hjoined]
  exact ⟨rfl, rfl, rfl, rfl, rfl, rfl, rfl, rfl, rfl, rfl, rfl, rfl, rfl, rfl, rfl, rfl, rfl, rfl, rfl, rfl, rfl, rfl, rfl,
    rfl, fun _ => rfl⟩

theorem lowWord_zero : lowWord 0 = 0 := by decide

theorem highWord_zero : highWord 0 = 0 := by decide

/-- Settles O18: at power-on every register but STATUS, PARAM and CLK_PERIOD is 0. -/
theorem resetWindowValues : Obligations.ResetWindowValues := by
  have hzero : ∀ r : Reg64, r ≠ .clkPeriod → reg64Value CmdRegs.reset State.reset r = 0 := by
    intro r hr
    cases r with
    | clkPeriod => exact absurd rfl hr
    | delayBegin k | delayEnd k | winStart k | winStop k => simp [reg64Value, State.reset, CmdRegs.reset]
    | _ => rfl
  intro w
  cases w with
  | word r =>
    cases r with
    | progPulseStart k | progPulseStop k =>
      simp [windowValue, wordValue, reg32Value, State.reset, CmdRegs.reset, Shadow.reset]
    | _ => rfl
  | low r =>
    by_cases hr : r = .clkPeriod
    · subst hr; rfl
    · have hval : windowValue State.reset (.low r) = 0 := (congrArg lowWord (hzero r hr)).trans lowWord_zero
      simpa [hr] using hval
  | high r =>
    by_cases hr : r = .clkPeriod
    · subst hr; rfl
    · have hval : windowValue State.reset (.high r) = 0 := (congrArg highWord (hzero r hr)).trans highWord_zero
      simpa [hr] using hval

/-! ## An accepted write (R43, R57) -/

/-- No word of the window shows the model's own fields. -/
theorem windowValue_withHostSide (inbox : List Event) (settled : Bool) (reads : Nat) (busData : Word) (s : State)
    (w : WindowWord) : windowValue (withHostSide inbox settled reads busData s) w = windowValue s w := by
  cases w with
  | word r => cases r <;> rfl
  | low r => cases r <;> rfl
  | high r => cases r <;> rfl

/-- A store to a 64-bit register changes no 32-bit register. -/
theorem windowValue_modify64_word (r : Reg64) (r' : Reg32) (f : DWord → DWord) (s : State) :
    windowValue (modify64 r f s) (.word r') = windowValue s (.word r') := by
  have hframe : ∀ t : State, t.param = s.param →
      windowValue (withOperandsOf t s) (.word r') = windowValue s (.word r') := by
    intro t ht
    cases r' with
    | param => exact ht
    | _ => rfl
  rw [modify64_frame]
  exact hframe _ (param_modify64 r f s)

section
variable {r : Reg64} (hr : reg64Class r ≠ .readOnly) (s : State)
include hr

theorem windowValue_modify64_low (f : DWord → DWord) (r' : Reg64) : windowValue (modify64 r f s) (.low r') =
    if r' = r then lowWord (f (reg64Value s.regs s r)) else windowValue s (.low r') :=
  (congrArg lowWord (reg64Value_modify64 r r' f s hr)).trans (apply_ite lowWord _ _ _)

theorem windowValue_modify64_high (f : DWord → DWord) (r' : Reg64) : windowValue (modify64 r f s) (.high r') =
    if r' = r then highWord (f (reg64Value s.regs s r)) else windowValue s (.high r') :=
  (congrArg highWord (reg64Value_modify64 r r' f s hr)).trans (apply_ite highWord _ _ _)

/-- A store to the low half of a writable register changes that word of the window alone (R57). -/
theorem windowValue_storeWord_low (v : Word) (w : WindowWord) :
    windowValue (storeWord (.low r) v s) w = if w = .low r then v else windowValue s w := by
  change windowValue (modify64 r (setLow v) s) w = _
  cases w with
  | word r' => simpa using windowValue_modify64_word r r' (setLow v) s
  | low r' => simp [windowValue_modify64_low hr, setLow, lowWord_joinWords]
  | high r' =>
    rw [windowValue_modify64_high hr, setLow, highWord_joinWords, if_neg (show WindowWord.high r' ≠ .low r from nofun)]
    split
    case isTrue h => rw [h]; rfl
    case isFalse => rfl

theorem windowValue_storeWord_high (v : Word) (w : WindowWord) :
    windowValue (storeWord (.high r) v s) w = if w = .high r then v else windowValue s w := by
  change windowValue (modify64 r (setHigh v) s) w = _
  cases w with
  | word r' => simpa using windowValue_modify64_word r r' (setHigh v) s
  | low r' =>
    rw [windowValue_modify64_low hr, setHigh, lowWord_joinWords, if_neg (show WindowWord.low r' ≠ .high r from nofun)]
    split
    case isTrue h => rw [h]; rfl
    case isFalse => rfl
  | high r' => simp [windowValue_modify64_high hr, setHigh, highWord_joinWords]

end

/-- Settles O12: the store is accepted, and a half of a 64-bit register is the one word it changes. -/
theorem acceptedWriteChangesOneWord : Obligations.AcceptedWriteChangesOneWord := by
  refine ⟨fun s w r v rest hidle hr hw h => ?_, fun s v rest hidle h => ?_⟩
  · let u : State := { s with inbox := rest }
    have hclass : reg64Class r = .readWrite ∨ (reg64Class r = .lockable ∧ s.lock = false) :=
      hr.imp (writableRegs_class r) fun ⟨hclk, hlock⟩ => ⟨by rw [hclk]; rfl, hlock⟩
    have hro : reg64Class r ≠ .readOnly := by obtain h | ⟨h, -⟩ := hclass <;> simp [h]
    have hstore : hostStore (wordOffset w) v u = storeWord w v u :=
      hostStore_stored v hidle (by obtain rfl | rfl := hw <;> exact hclass)
    have hvalue : ∀ w', windowValue (storeWord w v u) w' = if w' = w then v else windowValue u w' := by
      obtain rfl | rfl := hw
      · exact windowValue_storeWord_low hro u v
      · exact windowValue_storeWord_high hro u v
    have hshown : ∀ w', windowValue { storeWord w v u with busData := 0 } w' = if w' = w then v else windowValue s w' := by
      intro w'
      rw [← windowValue_withHostSide rest s.settled s.reads s.busData s w']
      exact (windowValue_withHostSide _ _ _ _ _ w').trans (hvalue w')
    refine ⟨{ storeWord w v u with busData := 0 }, by rw [step_write h, hstore], ?_, fun w' hne => ?_,
      (storeWord_phase w v u).trans hidle, storeWord_op w v u, storeWord_k w v u, storeWord_trace w v u,
      storeWord_inbox w v u⟩
    · rw [hshown, if_pos rfl]
    · rw [hshown, if_neg hne]
  · have hstore : hostStore (wordOffset (.word .param)) v { s with inbox := rest } = _ :=
      hostStore_stored v hidle (.inl rfl)
    rw [step_write (w := .word .param) h, hstore]
    rfl

/-! ## STATUS (R35) -/

theorem getLsbD_bit1 (b : Bool) : (bit1 b).getLsbD 0 = b := by cases b <;> rfl

theorem busy_eq_decide (s : State) : busy s = decide (s.phase ≠ .idle) := by
  simp [busy, bne, beq_eq_decide]

section
variable (v : Nat → CmdRegs) (s : State)

/-- The flags of STATUS, from bit 0 up. The library's lemmas on appended vectors need the width as the sum of the fields'
widths. -/
theorem statusFrom_flags :
    (statusFrom v s).getLsbD 0 = busy s ∧ (statusFrom v s).getLsbD 1 = s.done ∧
    (statusFrom v s).getLsbD 2 = (v 5).err ∧ (statusFrom v s).getLsbD 3 = s.werr ∧
    (statusFrom v s).getLsbD 4 = s.lock ∧ (statusFrom v s).getLsbD 5 = (v 4).latchValid ∧
    (statusFrom v s).getLsbD 6 = (v 3).progValid ∧ (statusFrom v s).getLsbD 7 = false := by
  simp only [statusFrom, packStatus]
  refine ⟨?_, ?_, ?_, ?_, ?_, ?_, ?_, ?_⟩ <;>
    change @BitVec.getLsbD (4 + 4 + 8 + 6 + 2 + 1 + 1 + 1 + 1 + 1 + 1 + 1 + 1) _ _ = _ <;>
    simp only [BitVec.getLsbD_append, Nat.reduceLT, Nat.reduceSub, Nat.lt_irrefl, Nat.zero_lt_one, ite_true, ite_false,
      getLsbD_bit1, BitVec.getLsbD_zero]

/-- The wider fields of STATUS, from bit 8 up. -/
theorem statusFrom_ranges :
    (statusFrom v s).extractLsb' 8 2 = (v 2).cls ∧ (statusFrom v s).extractLsb' 10 6 = BitVec.ofNat 6 s.k ∧
    (statusFrom v s).extractLsb' 16 8 = (v 1).errCode ∧ (statusFrom v s).extractLsb' 24 4 = (v 0).errChan ∧
    (statusFrom v s).extractLsb' 28 4 = 0 := by
  simp only [statusFrom, packStatus]
  refine ⟨?_, ?_, ?_, ?_, ?_⟩ <;>
    change @BitVec.extractLsb' (4 + 4 + 8 + 6 + 2 + 1 + 1 + 1 + 1 + 1 + 1 + 1 + 1) _ _ _ = _ <;>
    simp only [BitVec.extractLsb'_append_eq_of_le, BitVec.extractLsb'_append_eq_right, Nat.reduceLeDiff, Nat.reduceSub]
  rfl

end

/-- Settles O13: the fields of the packed word, the index below 2^6. -/
theorem statusWordLayout : Obligations.StatusWordLayout := by
  intro s hk
  have hidx : (BitVec.ofNat 6 s.k).toNat = s.k := by
    rw [BitVec.toNat_ofNat]
    omega
  obtain ⟨hbusy, hdone, herr, hwerr, hlock, hlatch, hprog, hzero⟩ := statusFrom_flags (fun _ => s.regs) s
  obtain ⟨hcls, hemit, hcode, hchan, hhigh⟩ := statusFrom_ranges (fun _ => s.regs) s
  exact ⟨hbusy.trans (busy_eq_decide s), hdone, herr, hwerr, hlock, hlatch, hprog, hzero, hcls,
    (congrArg BitVec.toNat hemit).trans hidx, hcode, hchan, hhigh⟩

/-! ## Host reads (R58, R84, R91) -/

theorem statusRegs_settled {s : State} (h : s.settled = true) : statusRegs s = fun _ => s.regs := by
  funext lane
  simp [statusRegs, readRegs, h]

/-- Once the host has seen the command complete, a read shows what the block holds. -/
theorem hostWordValue_settled {s : State} (h : s.settled = true) (w : WindowWord) : hostWordValue s w = windowValue s w := by
  rw [hostWordValue, statusRegs_settled h, readRegs_settled h, ite_self]
  rfl

theorem noteRead_of_settled {s : State} (h : s.settled = true) (off : Nat) :
    noteRead off s = { s with reads := s.reads + 1 } := by
  simp only [noteRead, h, Bool.true_or]

/-- Settles O15: in a settled state a read has no choice and nothing to note but its number. -/
theorem settledReadsAreExact : Obligations.SettledReadsAreExact := by
  intro s w rest hsettled h
  have hvalue : windowValue { s with inbox := rest } w = windowValue s w :=
    windowValue_withHostSide rest s.settled s.reads s.busData s w
  rw [step_read h, hostWordValue_settled (s := { s with inbox := rest }) hsettled,
    noteRead_of_settled (s := { s with inbox := rest }) hsettled, hvalue]

/-- A read of STATUS in IDLE shows STATUS as the block holds it. -/
theorem hostWordValue_status_idle {s : State} (h : s.phase = .idle) : hostWordValue s (.word .status) = statusWord s := by
  rw [hostWordValue, if_pos rfl, statusRegs_idle ((busy_eq_false_iff s).2 h)]
  rfl

/-- The read of STATUS that finds the engine idle and DONE set ends the interval of R91. -/
theorem noteRead_status_done {s : State} (h : s.phase = .idle) (hdone : s.done = true) :
    noteRead (wordOffset (.word .status)) s = { s with reads := s.reads + 1, settled := true } := by
  simp [noteRead, wordAt_wordOffset, (busy_eq_false_iff s).2 h, hdone]

/-- Settles O17: the read's value is STATUS from some view of what a command writes, and in IDLE from the block's own. -/
theorem statusReads : Obligations.StatusReads := by
  intro s rest h
  have hstep := step_read (w := .word .status) h
  obtain ⟨hbusy, hdone, -, hwerr, hlock, -, -, hzero⟩ :=
    statusFrom_flags (statusRegs { s with inbox := rest }) { s with inbox := rest }
  obtain ⟨-, hemit, -, -, hhigh⟩ :=
    statusFrom_ranges (statusRegs { s with inbox := rest }) { s with inbox := rest }
  refine ⟨⟨_, hstep, hbusy.trans (busy_eq_decide s), hdone, hwerr, hlock, hemit, hzero, hhigh⟩, fun hidle hdone => ?_⟩
  rw [hstep, hostWordValue_status_idle (s := { s with inbox := rest }) hidle,
    noteRead_status_done (s := { s with inbox := rest }) hidle hdone]
  rfl

end Sys2Proof.Machine
end

section
/-!
PROOFS. Runs of the engine (R61, R62, R95, R96, R121, R249 to R252, R290, R291, R333, R334): the step that decodes and runs a
command, an emission by the number of offers, and the host's wait loop.
-/

namespace Sys2Proof.Machine

/-! ## Whose turn it is -/

section
variable {s : State} {rest : List Event}

theorem step_of_nil (h : s.inbox = []) : step s = engineStep s := by
  simp only [step, nextMove, h]

theorem step_engine (h : s.inbox = .engine :: rest) : step s = engineStep { s with inbox := rest } := by
  simp only [step, nextMove, h, serveEvent]

theorem step_poll (h : s.inbox = .poll :: rest) : step s = .next (pollStatus { s with inbox := rest }) := by
  simp only [step, nextMove, h, serveEvent]

end

/-! ## The command that a word stands for -/

theorem decodeWord_encode (i : Instr) : decodeWord (encode i) = .ok i := by cases i <;> rfl

theorem joinWord_splitWord (w : Word) : joinWord (splitWord w) = w :=
  (BitVec.extractLsb'_append_extractLsb'_eq_extractLsb' rfl).trans BitVec.extractLsb'_eq_self

theorem opc_of_decodeOpc {opc : BitVec 4} {i : Instr} (h : decodeOpc opc = .ok i) : opc = (commandWord i).opc := by
  unfold decodeOpc at h
  split at h <;> cases h <;> (apply BitVec.eq_of_toNat_eq; assumption)

/-- R111: a word that decodes is the word of the command it decodes to. -/
theorem eq_encode_of_decodeWord {w : Word} {i : Instr} (h : decodeWord w = .ok i) : w = encode i := by
  simp only [decodeWord] at h
  split at h
  case isTrue hrsv =>
    have hfields : splitWord w = commandWord i := by
      have hrsvClear : (commandWord i).rsv = 0 := by cases i <;> rfl
      exact congrArg₂ CommandWord.mk (hrsv.trans hrsvClear.symm) (opc_of_decodeOpc h)
    rw [encode, ← hfields, joinWord_splitWord]
  case isFalse => cases h

theorem computeStep_of_decode {s : State} {i : Instr} (h : decodeWord s.op = .ok i) : computeStep s = exec i s := by
  simp only [computeStep, h]

theorem tableWord_toNat (w : Word) : tableWord 32 w.toNat = w := by
  rw [tableWord, Nat.mod_eq_of_lt w.isLt, BitVec.ofNat_toNat, BitVec.setWidth_eq]

/-- Settles O4: with the engine's turn in COMPUTE the step is the decoded command's, and the placed word decodes. -/
theorem stepRunsDecodedCommand : Obligations.StepRunsDecodedCommand := by
  refine ⟨fun s i hphase hdecode => ⟨fun h => ?_, fun rest h => ?_⟩, fun s i => ?_, fun s hidle h => ?_⟩
  · rw [step_of_nil h, engineStep_compute hphase, computeStep_of_decode hdecode]
  · rw [step_engine h]
    exact (engineStep_compute (s := { s with inbox := rest }) hphase).trans (computeStep_of_decode hdecode)
  · have hdecode : decodeWord (s.withFetchWord 32 (encode i).toNat).op = .ok i :=
      (congrArg decodeWord (tableWord_toNat (encode i))).trans (decodeWord_encode i)
    rw [step_of_nil rfl, engineStep_compute rfl, computeStep_of_decode hdecode]
  · rw [step_of_nil h, engineStep_idle hidle]

/-! ## An emission -/

theorem acceptedOffers_zero (d : Downstream) : acceptedOffers d 0 = 0 := by
  simp [acceptedOffers]

/-- The first of `m + 1` offers is answered as the downstream answers now, the others as it answers after that (R95). -/
theorem acceptedOffers_succ (d : Downstream) (m : Nat) :
    acceptedOffers d (m + 1) = (if downstreamAccepts d then 1 else 0) + acceptedOffers (afterOffer d) m := by
  obtain ⟨answers, afterwards⟩ := d
  cases answers with
  | nil => cases afterwards <;> simp [acceptedOffers, downstreamAccepts, afterOffer, Nat.add_comm]
  | cons a l =>
    cases a <;> cases afterwards <;> simp [acceptedOffers, downstreamAccepts, afterOffer] <;> omega

theorem acceptedOffers_held {d : Downstream} (m : Nat) (h : downstreamAccepts d = false) :
    acceptedOffers d (m + 1) = acceptedOffers (afterOffer d) m := by
  rw [acceptedOffers_succ, h, if_neg Bool.false_ne_true, Nat.zero_add]

theorem acceptedOffers_accepted {d : Downstream} (m : Nat) (h : downstreamAccepts d = true) :
    acceptedOffers d (m + 1) = acceptedOffers (afterOffer d) m + 1 := by
  rw [acceptedOffers_succ, h, if_pos rfl, Nat.add_comm]

/-- Write number `m` of a sequence as it stands in the trace (R65, R95, R249). -/
def sequenceEntry (g : Shadow) (m : Nat) : Word × Word := (BitVec.ofNat 32 ((seqWrite g m).1 * 4), (seqWrite g m).2)

/-- The writes of a sequence from number `k` on. -/
theorem drop_sequencePrefix (g : Shadow) {k : Nat} (h : k < 42) :
    (sequencePrefix g 42).drop k = sequenceEntry g k :: (sequencePrefix g 42).drop (k + 1) := by
  have hlen : k < (sequencePrefix g 42).length := by simpa [sequencePrefix] using h
  rw [List.drop_eq_getElem_cons hlen]
  simp [sequencePrefix, sequenceEntry]

theorem drop_sequencePrefix_end (g : Shadow) : (sequencePrefix g 42).drop 42 = [] :=
  List.drop_eq_nil_of_le (by simp [sequencePrefix])

/-- The state with the writes `l` more in the trace, the index at `k` and the downstream at `d`. -/
def withIssued (l : List (Word × Word)) (k : Nat) (d : Downstream) (s : State) : State :=
  { s with trace := s.trace ++ l, k := k, downstream := d }

/-- The state after the last write of the program, the writes `l` more in the trace (R252). -/
def withAllIssued (l : List (Word × Word)) (d : Downstream) (s : State) : State :=
  endEmission (withIssued l 42 d s)

theorem withIssued_withIssued (l l' : List (Word × Word)) (k k' : Nat) (d d' : Downstream) (s : State) :
    withIssued l' k' d' (withIssued l k d s) = withIssued (l ++ l') k' d' s := by
  simp only [withIssued, List.append_assoc]

/-- What an emission has come to after `m` offers with nothing scheduled (R95, R251, R252). -/
def EmissionRun (m : Nat) (s : State) : Prop :=
  (acceptedOffers s.downstream m < 42 - s.k → Host.Core.run Sys2Proof.core m s = .next
    (withIssued (((sequencePrefix s.regs.prog 42).drop s.k).take (acceptedOffers s.downstream m))
      (s.k + acceptedOffers s.downstream m) ⟨s.downstream.answers.drop m, s.downstream.afterwards⟩ s)) ∧
  (42 - s.k ≤ acceptedOffers s.downstream m → ∃ d, Host.Core.run Sys2Proof.core m s = .next
    (withAllIssued ((sequencePrefix s.regs.prog 42).drop s.k) d s))

section
variable {m : Nat} {s : State}

/-- An offer that is not accepted uses up one answer of the downstream. -/
theorem emissionRun_held (hstep : step s = .next { s with downstream := afterOffer s.downstream })
    (haccept : downstreamAccepts s.downstream = false)
    (hrun : EmissionRun m { s with downstream := afterOffer s.downstream }) : EmissionRun (m + 1) s := by
  rw [EmissionRun, run_next Sys2Proof.core m hstep, acceptedOffers_held m haccept, ← List.drop_tail]
  exact hrun

/-- An accepted offer before the last puts the next write of the sequence in front of what the rest of the run issues. -/
theorem emissionRun_issued (hk : s.k < 42)
    (hstep : step s = .next (withIssued [sequenceEntry s.regs.prog s.k] (s.k + 1) (afterOffer s.downstream) s))
    (haccept : downstreamAccepts s.downstream = true)
    (hrun : EmissionRun m (withIssued [sequenceEntry s.regs.prog s.k] (s.k + 1) (afterOffer s.downstream) s)) :
    EmissionRun (m + 1) s := by
  obtain ⟨hpaused, hended⟩ := hrun
  rw [EmissionRun, run_next Sys2Proof.core m hstep, acceptedOffers_accepted m haccept, ← List.drop_tail,
    drop_sequencePrefix _ hk, List.take_succ_cons]
  refine ⟨fun hlt => (hpaused ?_).trans ?_, fun hle => ?_⟩
  · simp only [withIssued]; omega
  · rw [withIssued_withIssued, ← Nat.add_assoc s.k, Nat.add_right_comm]
    rfl
  · obtain ⟨d, hd⟩ := hended (by simp only [withIssued]; omega)
    exact ⟨d, hd.trans (by rw [withAllIssued, withIssued_withIssued]; rfl)⟩

/-- The last accepted offer ends the command, and the engine stays idle. -/
theorem emissionRun_ended (hinbox : s.inbox = []) (hk : s.k = 41)
    (hstep : step s = .next (withAllIssued [sequenceEntry s.regs.prog 41] (afterOffer s.downstream) s))
    (haccept : downstreamAccepts s.downstream = true) : EmissionRun (m + 1) s := by
  let t := withAllIssued [sequenceEntry s.regs.prog 41] (afterOffer s.downstream) s
  have hstay : step t = .next t := (step_of_nil (s := t) hinbox).trans (engineStep_idle rfl)
  have hcount := acceptedOffers_accepted m haccept
  refine ⟨fun hlt => by omega, fun _ => ⟨afterOffer s.downstream, ?_⟩⟩
  rw [run_next Sys2Proof.core m hstep, run_fixed Sys2Proof.core m hstay, hk, drop_sequencePrefix _ (by decide),
    drop_sequencePrefix_end]

end

/-- An emission by the number of offers: one EMIT step takes one answer of the downstream and, where it accepts, one write of
the sequence. -/
theorem emissionRun (m : Nat) : ∀ s : State, s.phase = .emit → s.k < 42 → s.inbox = [] → EmissionRun m s := by
  induction m with
  | zero =>
    intro s _ hk _
    refine ⟨fun _ => ?_, fun hle => ?_⟩
    · simp [Host.Core.run, acceptedOffers_zero, withIssued]
    · rw [acceptedOffers_zero] at hle
      omega
  | succ m ih =>
    intro s hphase hk hinbox
    have hstep : step s = .next (emitStep s) := (step_of_nil hinbox).trans (engineStep_emit hphase)
    obtain ⟨hge, -⟩ | ⟨-, haccept, hs⟩ | ⟨hlt, haccept, hs⟩ | ⟨hlast, haccept, hs⟩ := emitStep_cases s
    · omega
    · rw [hs] at hstep
      exact emissionRun_held hstep haccept (ih _ hphase hk hinbox)
    · rw [hs] at hstep
      exact emissionRun_issued hk hstep haccept (ih _ hphase (Nat.succ_lt_succ hlt) hinbox)
    · rw [hs] at hstep
      exact emissionRun_ended hinbox hlast hstep haccept

/-- Settles O50: the states that `EmissionRun` speaks of, written out. -/
theorem emissionIsTheSequence : Obligations.EmissionIsTheSequence :=
  fun s m hphase hk hinbox => emissionRun m s hphase hk hinbox

/-! ## A host that waits -/

/-- The COMPUTE step ends the command or starts an emission, and only a program-building command's does that (R291). -/
theorem computeStep_ends (s : State) : ∃ t, computeStep s = .next t ∧ t.op = s.op ∧ t.inbox = s.inbox ∧
    t.downstream = s.downstream ∧ ((t.phase = .idle ∧ t.done = true) ∨
      (t.phase = .emit ∧ t.k = 0 ∧ ∃ i ∈ buildingCommands, s.op = encode i)) := by
  cases hdecode : decodeWord s.op with
  | error e => exact ⟨illegalCommand s, by rw [computeStep, hdecode], rfl, rfl, rfl, .inl ⟨rfl, rfl⟩⟩
  | ok i =>
    obtain ⟨t, ht⟩ := exec_next i s
    refine ⟨t, (computeStep_of_decode hdecode).trans ht, ?_⟩
    obtain hi | hi := mem_plain_or_building i
    · cases exec_plain_cases hi ht <;> exact ⟨rfl, rfl, rfl, .inl ⟨rfl, rfl⟩⟩
    · cases exec_building_cases hi ht with
      | error e => exact ⟨rfl, rfl, rfl, .inl ⟨rfl, rfl⟩⟩
      | program w g => exact ⟨rfl, rfl, rfl, .inr ⟨rfl, rfl, i, hi, eq_encode_of_decodeWord hdecode⟩⟩

/-- Some run ends with the command of the word `w` complete, the host having seen it, and nothing left to do (R91, R121). -/
def RunsToCompletion (w : Word) (s : State) : Prop :=
  ∃ n t, Host.Core.run Sys2Proof.core n s = .next t ∧ t.phase = .idle ∧ t.done = true ∧ t.settled = true ∧ t.op = w ∧
    t.inbox = []

section
variable {s t : State}

theorem RunsToCompletion.of_step {w : Word} (h : step s = .next t) (ht : RunsToCompletion w t) : RunsToCompletion w s := by
  obtain ⟨n, u, hrun, hu⟩ := ht
  exact ⟨n + 1, u, (run_next Sys2Proof.core n h).trans hrun, hu⟩

/-- The read of STATUS that finds the engine idle and DONE set ends the wait loop, and the host has seen the command complete
(R91, R121). -/
theorem pollStatus_done (hidle : s.phase = .idle) (hdone : s.done = true) :
    pollStatus s = withHostSide s.inbox true (s.reads + 1) (hostLoad 0x004 s) s := by
  have hb := Bool.eq_false_iff.1 ((busy_eq_false_iff s).2 hidle)
  rw [pollStatus, if_neg hb]
  exact congrArg (fun u : State => { u with busData := hostLoad 0x004 s }) (noteRead_status_done hidle hdone)

/-- A read of STATUS that finds the engine busy gives it a step and goes on (R121, R334). -/
theorem pollStatus_busy (hbusy : s.phase ≠ .idle) : pollStatus s = withHostSide (.engine :: .poll :: s.inbox)
    (noteRead 0x004 s).settled (s.reads + 1) (hostLoad 0x004 s) s := by
  have hb : busy s = true := by simpa [busy] using hbusy
  rw [pollStatus, if_pos hb]
  rfl

theorem runsToCompletion_done (hinbox : s.inbox = [.poll]) (hidle : s.phase = .idle) (hdone : s.done = true) :
    RunsToCompletion s.op s := by
  refine ⟨1, _, run_next Sys2Proof.core 0 (step_poll hinbox), ?_⟩
  rw [pollStatus_done (s := { s with inbox := [] }) hidle hdone]
  exact ⟨hidle, hdone, rfl, rfl, rfl⟩

theorem step_poll_busy {rest : List Event} (hinbox : s.inbox = .poll :: rest) (hbusy : s.phase ≠ .idle) :
    ∃ settled reads busData, step s = .next (withHostSide (.engine :: .poll :: rest) settled reads busData s) :=
  ⟨_, _, _, (step_poll hinbox).trans (congrArg _ (pollStatus_busy (s := { s with inbox := rest }) hbusy))⟩

/-- One round of the wait loop on a busy block: a read, which only the host's side shows, and an engine step. -/
theorem runsToCompletion_round {w : Word} (hinbox : s.inbox = [.poll]) (hbusy : s.phase ≠ .idle)
    (hnext : ∀ settled reads busData, ∃ t,
      engineStep (withHostSide [.poll] settled reads busData s) = .next t ∧ RunsToCompletion w t) :
    RunsToCompletion w s := by
  obtain ⟨settled, reads, busData, hpoll⟩ := step_poll_busy hinbox hbusy
  obtain ⟨t, hengine, ht⟩ := hnext settled reads busData
  exact .of_step hpoll (.of_step ((step_engine rfl).trans hengine) ht)

end

/-- The wait loop sees an emission through, by the number of offers that the downstream's answers take (R121, R333). -/
theorem runsToCompletion_emit (m : Nat) : ∀ s : State, s.phase = .emit → s.k < 42 → s.inbox = [.poll] →
    42 - s.k ≤ acceptedOffers s.downstream m → RunsToCompletion s.op s := by
  induction m with
  | zero =>
    intro s _ hk _ hle
    rw [acceptedOffers_zero] at hle
    omega
  | succ m ih =>
    intro s hphase hk hinbox hle
    refine runsToCompletion_round hinbox (by simp [hphase]) fun settled reads busData => ⟨_, engineStep_emit hphase, ?_⟩
    obtain ⟨hge, -⟩ | ⟨-, haccept, hs⟩ | ⟨hlt, haccept, hs⟩ | ⟨-, haccept, hs⟩ :=
      emitStep_cases (withHostSide [.poll] settled reads busData s)
    · exact absurd hk (Nat.not_lt.2 hge)
    · rw [hs]
      rw [acceptedOffers_held (d := s.downstream) m haccept] at hle
      exact ih _ hphase hk rfl hle
    · rw [hs]
      rw [acceptedOffers_accepted (d := s.downstream) m haccept] at hle
      refine ih _ hphase (Nat.succ_lt_succ hlt) rfl ?_
      simp only [withHostSide]
      omega
    · rw [hs]
      exact runsToCompletion_done rfl rfl rfl

/-- The first three steps of a host that writes a command word and waits: acceptance, a read, the COMPUTE step. -/
theorem host_command_steps {s : State} {w : Word} (hidle : s.phase = .idle)
    (hinbox : s.inbox = [wrEvent (.word .cmd) w, .poll]) : ∃ a b t, step s = .next a ∧ step a = .next b ∧
      step b = .next t ∧ t.op = w ∧ t.inbox = [.poll] ∧ t.downstream = s.downstream ∧
      ((t.phase = .idle ∧ t.done = true) ∨ (t.phase = .emit ∧ t.k = 0 ∧ ∃ i ∈ buildingCommands, w = encode i)) := by
  let a : State := { acceptCommand w { s with inbox := [.poll] } with busData := 0 }
  have haccept : step s = .next a := by
    rw [step_write hinbox, hostStore_command (s := { s with inbox := [.poll] }) w hidle]
  obtain ⟨settled, reads, busData, hpoll⟩ := step_poll_busy (s := a) (rest := []) rfl nofun
  obtain ⟨t, hcompute, hop, hrest, hdown, hend⟩ := computeStep_ends (withHostSide [.poll] settled reads busData a)
  have hengine : step (withHostSide [.engine, .poll] settled reads busData a) = .next t :=
    (step_engine rfl).trans ((engineStep_compute rfl).trans hcompute)
  exact ⟨a, _, t, haccept, hpoll, hengine, hop, hrest, hdown, hend⟩

/-- Settles O53: after those three steps the loop has one read left, or an emission to see through. -/
theorem hostRunCompletes : Obligations.HostRunCompletes := by
  intro s w hidle hinbox
  have hinbox : s.inbox = [wrEvent (.word .cmd) w, .poll] := by
    obtain h | ⟨i, rfl, h⟩ := hinbox <;> exact h
  obtain ⟨a, b, t, ha, hb, ht, hop, hpoll, hdown, hend⟩ := host_command_steps hidle hinbox
  refine ⟨⟨t, ?_, hop, ?_⟩, fun haccepts => ?_⟩
  · exact (run_next Sys2Proof.core 2 ha).trans ((run_next Sys2Proof.core 1 hb).trans (run_next Sys2Proof.core 0 ht))
  · obtain ⟨hphase, -⟩ | ⟨hphase, -⟩ := hend <;> simp [hphase]
  · refine RunsToCompletion.of_step ha (.of_step hb (.of_step ht (hop ▸ ?_)))
    obtain ⟨hphase, hdone⟩ | ⟨hphase, hk, hbuilding⟩ := hend
    · exact runsToCompletion_done hpoll hphase hdone
    · obtain ⟨m, hm⟩ := haccepts hbuilding
      exact runsToCompletion_emit m t hphase (by omega) hpoll (by rw [hk, hdown]; exact hm)

end Sys2Proof.Machine
end

section
/-!
PROOFS. Command words as the host bus carries them (R82, R110, R111): a word is its four bytes, so that the decoder on bytes
is the decoder on words.
-/

namespace Sys2Proof.Machine

/-- R82: four bytes put together give the bytes back. -/
theorem bytesOfWord_wordOfBytes (b0 b1 b2 b3 : Byte) : bytesOfWord (wordOfBytes b0 b1 b2 b3) = [b0, b1, b2, b3] := by
  have h0 : (wordOfBytes b0 b1 b2 b3).extractLsb' 0 8 = b0 :=
    (BitVec.extractLsb'_append_eq_of_add_le (by decide)).trans BitVec.extractLsb'_append_eq_right
  have h1 : (wordOfBytes b0 b1 b2 b3).extractLsb' 8 8 = b1 :=
    (BitVec.extractLsb'_append_eq_of_add_le (by decide)).trans BitVec.extractLsb'_append_eq_left
  have h2 : (wordOfBytes b0 b1 b2 b3).extractLsb' 16 8 = b2 :=
    (BitVec.extractLsb'_append_eq_of_le (by decide)).trans BitVec.extractLsb'_append_eq_right
  have h3 : (wordOfBytes b0 b1 b2 b3).extractLsb' 24 8 = b3 :=
    (BitVec.extractLsb'_append_eq_of_le (by decide)).trans BitVec.extractLsb'_append_eq_left
  rw [bytesOfWord, h0, h1, h2, h3]

/-- R82: the bytes of a word put together give the word back. -/
theorem wordOfBytes_of_bytesOfWord {w : Word} {b0 b1 b2 b3 : Byte} (h : bytesOfWord w = [b0, b1, b2, b3]) :
    wordOfBytes b0 b1 b2 b3 = w := by
  cases h
  have hhigh : w.extractLsb' 24 8 ++ w.extractLsb' 16 8 = w.extractLsb' 16 16 :=
    BitVec.extractLsb'_append_extractLsb'_eq_extractLsb' rfl
  have hlow : w.extractLsb' 8 8 ++ w.extractLsb' 0 8 = w.extractLsb' 0 16 :=
    BitVec.extractLsb'_append_extractLsb'_eq_extractLsb' rfl
  rw [wordOfBytes, hhigh, hlow]
  exact (BitVec.extractLsb'_append_extractLsb'_eq_extractLsb' rfl).trans BitVec.extractLsb'_eq_self

/-- The decoder on bytes takes the first four as a word, and decodes that. -/
theorem decode_eq_ok_iff {bytes rest : List Byte} {i : Instr} :
    decode bytes = .ok (i, rest) ↔ ∃ w, decodeWord w = .ok i ∧ bytes = bytesOfWord w ++ rest := by
  constructor
  · intro h
    unfold decode at h
    split at h
    case h_1 b0 b1 b2 b3 tail =>
      split at h
      case h_1 j hword =>
        cases h
        exact ⟨_, hword, by rw [bytesOfWord_wordOfBytes]; rfl⟩
      case h_2 => cases h
    case h_2 => cases h
  · rintro ⟨w, hword, rfl⟩
    simp only [bytesOfWord, List.cons_append, List.nil_append, decode, wordOfBytes_of_bytesOfWord (w := w) rfl, hword]

/-- Settles O1: both directions are the word's own (`decodeWord_encode`, `eq_encode_of_decodeWord`). -/
theorem decodeInvertsEncode : Obligations.DecodeInvertsEncode := by
  refine ⟨fun i rest _ => decode_eq_ok_iff.2 ⟨encode i, decodeWord_encode i, rfl⟩, fun bytes rest i h => ?_⟩
  obtain ⟨w, hword, rfl⟩ := decode_eq_ok_iff.1 h
  rw [eq_encode_of_decodeWord hword, encodeBytes]

end Sys2Proof.Machine
end

section
/-!
PROOFS. The EMIT step and the trace of a running emission (R95, R96, R249 to R252, R333): what one offer comes to by the
downstream's answer, and what every move of the block leaves of the sequence in the trace.
-/

namespace Sys2Proof.Machine

/-! ## The trace of a running emission -/

theorem sequencePrefix_zero (g : Shadow) : sequencePrefix g 0 = [] := rfl

theorem sequencePrefix_succ (g : Shadow) (k : Nat) :
    sequencePrefix g (k + 1) = sequencePrefix g k ++ [sequenceEntry g k] := by
  simp only [sequencePrefix, List.range_succ, List.map_append, List.map_singleton, sequenceEntry]

/-- R96, R249, R250: a commit starts with no write of its sequence issued, an accepted write is the next of the sequence, and
every other move leaves the program, the index and the trace, or leaves EMIT. -/
theorem BlockMove.emissionOk {s t : State} (h : BlockMove s t) (hs : EmissionOk s) : EmissionOk t := by
  cases h with
  | stay | setWerr | held => exact hs
  | accept | illegal | ended => exact nofun
  | store w v hidle =>
    intro hemit
    rw [storeWord_phase, hidle] at hemit
    cases hemit
  | plain i hphase hend => cases hend <;> exact nofun
  | building i hphase hend =>
    cases hend with
    | error e => exact nofun
    | program w g => exact fun _ => ⟨s.trace, by simp [sequencePrefix_zero]⟩
  | issued hphase hk =>
    obtain ⟨before, htrace⟩ := hs hphase
    refine fun _ => ⟨before, ?_⟩
    rw [htrace, sequencePrefix_succ, ← List.append_assoc]
    rfl

/-- Settles O56: a reset leaves EMIT, and every move of the block keeps the trace and the sequence together. -/
theorem stepKeepsEmissionOk : Obligations.StepKeepsEmissionOk := by
  intro s t hs h
  obtain ⟨-, rest, rfl⟩ | ⟨l, u, _, _, _, _, hmove, rfl⟩ := step_cases h
  · exact nofun
  · exact hmove.emissionOk hs

/-! ## One offer -/

section
variable {s : State}

theorem emitStep_held (hk : s.k < 42) (haccept : downstreamAccepts s.downstream = false) :
    emitStep s = { s with downstream := afterOffer s.downstream } := by
  obtain ⟨hge, -⟩ | ⟨-, -, hs⟩ | ⟨-, hyes, -⟩ | ⟨-, hyes, -⟩ := emitStep_cases s
  · omega
  · exact hs
  · simp [haccept] at hyes
  · simp [haccept] at hyes

theorem emitStep_issued (hk : s.k < 41) (haccept : downstreamAccepts s.downstream = true) :
    emitStep s = withIssued [sequenceEntry s.regs.prog s.k] (s.k + 1) (afterOffer s.downstream) s := by
  obtain ⟨hge, -⟩ | ⟨-, hno, -⟩ | ⟨-, -, hs⟩ | ⟨hlast, -⟩ := emitStep_cases s
  · omega
  · simp [haccept] at hno
  · exact hs
  · omega

theorem emitStep_ended (hk : s.k = 41) (haccept : downstreamAccepts s.downstream = true) :
    emitStep s = withAllIssued [sequenceEntry s.regs.prog 41] (afterOffer s.downstream) s := by
  obtain ⟨hge, -⟩ | ⟨-, hno, -⟩ | ⟨hlt, -⟩ | ⟨-, -, hs⟩ := emitStep_cases s
  · omega
  · simp [haccept] at hno
  · omega
  · exact hs

/-- The engine's turn is an engine step of the state that is left of the schedule. -/
theorem EngineTurn.step_eq {u : State} (h : EngineTurn s u) : step s = engineStep u ∧ ∃ l, u = { s with inbox := l } := by
  obtain ⟨hnil, rfl⟩ | ⟨rest, hengine, rfl⟩ := h
  · exact ⟨step_of_nil hnil, u.inbox, rfl⟩
  · exact ⟨step_engine hengine, rest, rfl⟩

end

/-- Settles O49: the engine's turn in EMIT is one offer, and its three results are those of `emitStep`. -/
theorem emitStepIssuesOneWrite : Obligations.EmitStepIssuesOneWrite := by
  intro s u hturn hphase hk
  obtain ⟨hstep, l, rfl⟩ := hturn.step_eq
  rw [hstep, engineStep_emit (s := { s with inbox := l }) hphase]
  exact ⟨fun hno => congrArg _ (emitStep_held (s := { s with inbox := l }) hk hno),
    fun hyes hlt => congrArg _ (emitStep_issued (s := { s with inbox := l }) hlt hyes),
    fun hyes hlast => congrArg _ (emitStep_ended (s := { s with inbox := l }) hlast hyes)⟩

/-! ## A downstream that never accepts -/

/-- R95, R333: an offer to a downstream that never accepts changes nothing at all. -/
theorem emitStep_stalled {s : State} (hdown : s.downstream = ⟨[], false⟩) : emitStep s = s := by
  have haccept : downstreamAccepts s.downstream = false := by rw [hdown]; rfl
  have hstay : { s with downstream := afterOffer s.downstream } = s := by
    have hafter : afterOffer s.downstream = s.downstream := by rw [hdown]; rfl
    rw [hafter]
  obtain ⟨-, hs⟩ | ⟨-, -, hs⟩ | ⟨-, hyes, -⟩ | ⟨-, hyes, -⟩ := emitStep_cases s
  · exact hs
  · exact hs.trans hstay
  · simp [haccept] at hyes
  · simp [haccept] at hyes

theorem engineStep_stalled {s : State} (hphase : s.phase = .emit) (hdown : s.downstream = ⟨[], false⟩) :
    engineStep s = .next s := by
  rw [engineStep_emit hphase, emitStep_stalled hdown]

/-- R54 to R56: a host store that finds the block busy changes WERR at most. -/
theorem hostStore_eq_of_busy (off : Nat) (v : Word) {s : State} (hbusy : s.phase ≠ .idle) :
    ∃ b, hostStore off v s = { s with werr := b } := by
  have hb : busy s ≠ false := fun h => hbusy ((busy_eq_false_iff s).1 h)
  obtain h | h | h | ⟨hidle, -⟩ | ⟨w, hidle, -⟩ := hostStore_cases off v s
  · exact ⟨true, h⟩
  · exact ⟨s.werr, h⟩
  · exact ⟨false, h⟩
  · exact absurd hidle hb
  · exact absurd hidle hb

theorem hostWrite_eq_of_busy (bytes : Nat) (off : Offset) (v : Word) {s : State} (hbusy : s.phase ≠ .idle) :
    ∃ b, (hostWrite bytes off v s).2 = { s with werr := b } := by
  rw [hostWrite]
  split
  · exact hostStore_eq_of_busy off.toNat v hbusy
  · exact ⟨s.werr, rfl⟩

/-- The states that differ from `s` at most in WERR and in the host's side of the bus: all that a host can bring about while
the block is busy. -/
def HostOnly (s t : State) : Prop :=
  ∃ b inbox settled reads busData, t = withHostSide inbox settled reads busData { s with werr := b }

/-- While the block is busy, a scheduled move that is no reset is an engine step, or the host's alone. -/
theorem serveEvent_busy {e : Event} {s t : State} (hbusy : s.phase ≠ .idle) (he : e ≠ .reset)
    (h : serveEvent e s = .next t) : engineStep s = .next t ∨ HostOnly s t := by
  cases e with
  | read bytes off =>
    obtain ⟨d, rfl⟩ := answerHost_cases h
    obtain ⟨settled, reads, hr⟩ := hostRead_state bytes off s
    exact .inr ⟨s.werr, s.inbox, settled, reads, d, by rw [hr]; rfl⟩
  | write bytes off v =>
    obtain ⟨d, rfl⟩ := answerHost_cases h
    obtain ⟨b, hw⟩ := hostWrite_eq_of_busy bytes off v hbusy
    exact .inr ⟨b, s.inbox, s.settled, s.reads, d, by rw [hw]; rfl⟩
  | poll =>
    cases h
    obtain ⟨inbox, settled, reads, busData, hp⟩ := pollStatus_eq s
    exact .inr ⟨s.werr, inbox, settled, reads, busData, hp⟩
  | reset => exact absurd rfl he
  | engine => exact .inl h
  | wait => cases h; exact .inr ⟨s.werr, s.inbox, s.settled, s.reads, s.busData, rfl⟩

theorem step_cons {s : State} {e : Event} {rest : List Event} (h : s.inbox = e :: rest) :
    step s = serveEvent e { s with inbox := rest } := by
  simp only [step, nextMove, h]

/-- R95, R333: in EMIT with a downstream that never accepts, a step that is no reset is the host's alone. -/
theorem step_stalled {s t : State} (hphase : s.phase = .emit) (hdown : s.downstream = ⟨[], false⟩)
    (hreset : s.inbox.head? ≠ some .reset) (h : step s = .next t) : HostOnly s t := by
  cases hinbox : s.inbox with
  | nil =>
    rw [step_of_nil hinbox, engineStep_stalled hphase hdown] at h
    cases h
    exact ⟨s.werr, s.inbox, s.settled, s.reads, s.busData, rfl⟩
  | cons e rest =>
    let u : State := { s with inbox := rest }
    have hserve : serveEvent e u = .next t := (step_cons hinbox).symm.trans h
    have he : e ≠ .reset := by rintro rfl; exact hreset (by rw [hinbox]; rfl)
    have hbusy : u.phase ≠ .idle := by simp [u, hphase]
    obtain hengine | hhost := serveEvent_busy hbusy he hserve
    · have ht : t = u := Host.Outcome.next.inj (hengine.symm.trans (engineStep_stalled hphase hdown))
      exact ⟨s.werr, rest, s.settled, s.reads, s.busData, ht⟩
    · exact hhost

/-- Settles O51: the host's side and WERR have no part in the emission, and an offer that nobody disturbs changes nothing. -/
theorem stalledDownstreamHoldsEmit : Obligations.StalledDownstreamHoldsEmit := by
  intro s hphase hdown
  refine ⟨fun t hreset h => ?_, fun hinbox m => ?_⟩
  · obtain ⟨b, inbox, settled, reads, busData, rfl⟩ := step_stalled hphase hdown hreset h
    exact ⟨hphase, hdown, rfl, rfl, rfl, rfl⟩
  · exact run_fixed Sys2Proof.core m ((step_of_nil hinbox).trans (engineStep_stalled hphase hdown))

end Sys2Proof.Machine
end

section
/-!
PROOFS. Host accesses by their form and offset (R81, R85, R91): which accesses the block refuses, what an access of an
unmapped offset does, and what a read before the completion is seen can show.
-/

namespace Sys2Proof.Machine

/-! ## Accesses that the block refuses, and those it serves (R81) -/

theorem accessAligned_eq_false_iff (bytes : Nat) (off : Offset) :
    accessAligned bytes off = false ↔ bytes ≠ 4 ∨ off.toNat % 4 ≠ 0 := by
  simp [accessAligned, or_iff_not_imp_left]

theorem hostRead_refused {bytes : Nat} {off : Offset} (h : accessAligned bytes off = false) (s : State) :
    hostRead bytes off s = (.error, s) := by
  simp [hostRead, h]

theorem hostWrite_refused {bytes : Nat} {off : Offset} (h : accessAligned bytes off = false) (v : Word) (s : State) :
    hostWrite bytes off v s = (.error, s) := by
  simp [hostWrite, h]

theorem hostRead_served {bytes : Nat} {off : Offset} (h : accessAligned bytes off = true) (s : State) :
    hostRead bytes off s = (.okay (hostLoad off.toNat s), noteRead off.toNat s) := by
  simp [hostRead, h]

theorem hostWrite_served {bytes : Nat} {off : Offset} (h : accessAligned bytes off = true) (v : Word) (s : State) :
    hostWrite bytes off v s = (.okay 0, hostStore off.toNat v s) := by
  simp [hostWrite, h]

theorem serveEvent_illFormed {e : Event} (h : e.wellFormed = false) (s : State) :
    serveEvent e s = .fault .busError := by
  cases e with
  | read bytes off => rw [serveEvent, hostRead_refused h, answerHost]
  | write bytes off v => rw [serveEvent, hostWrite_refused h, answerHost]
  | poll | reset | engine | wait => cases h

theorem serveEvent_wellFormed {e : Event} (h : e.wellFormed = true) (s : State) : ∃ t, serveEvent e s = .next t := by
  cases e with
  | read bytes off => exact ⟨_, by rw [serveEvent, hostRead_served h, answerHost]⟩
  | write bytes off v => exact ⟨_, by rw [serveEvent, hostWrite_served h, answerHost]⟩
  | engine => exact engineStep_next s
  | poll | reset | wait => exact ⟨_, rfl⟩

/-- A step is a fault where the next scheduled move is ill-formed, and a next state everywhere else. -/
theorem step_fault_or_next (s : State) :
    ((∃ e, s.inbox.head? = some e ∧ e.wellFormed = false) ∧ step s = .fault .busError) ∨
    ((¬ ∃ e, s.inbox.head? = some e ∧ e.wellFormed = false) ∧ ∃ t, step s = .next t) := by
  cases hinbox : s.inbox with
  | nil => exact .inr ⟨by simp, by rw [step_of_nil hinbox]; exact engineStep_next s⟩
  | cons e rest =>
    rw [step_cons hinbox]
    cases he : e.wellFormed with
    | false => exact .inl ⟨⟨e, rfl, he⟩, serveEvent_illFormed he _⟩
    | true => exact .inr ⟨by simp [he], serveEvent_wellFormed he _⟩

/-- Settles O60: the two cases of `step_fault_or_next` exclude each other, and neither is a refusal. -/
theorem onlyIllFormedAccessesStop : Obligations.OnlyIllFormedAccessesStop := by
  intro s
  obtain ⟨hill, hstep⟩ | ⟨hwell, t, hstep⟩ := step_fault_or_next s
  · exact ⟨⟨fun _ => hill, fun _ => ⟨.busError, hstep⟩⟩, fun r hr => by simp [hstep] at hr⟩
  · exact ⟨⟨fun ⟨f, hf⟩ => by simp [hstep] at hf, fun hill => absurd hill hwell⟩, fun r hr => by simp [hstep] at hr⟩

/-- Settles O8: an access of another width or alignment is refused, and the step that serves it is a fault. -/
theorem misalignedAccessRefused : Obligations.MisalignedAccessRefused := by
  intro s bytes off v rest h
  have hform := (accessAligned_eq_false_iff bytes off).2 h
  exact ⟨hostRead_refused hform s, hostWrite_refused hform v s, rfl,
    fun hinbox => (step_cons hinbox).trans (serveEvent_illFormed (e := .read bytes off) hform _),
    fun hinbox => (step_cons hinbox).trans (serveEvent_illFormed (e := .write bytes off v) hform _)⟩

/-! ## Unmapped offsets (R85) -/

/-- No word stands at an aligned offset that the table gives to none. -/
theorem wordAt_eq_none_of_unmapped {off : Nat} (halign : off % 4 = 0) (h : ∀ w, wordOffset w ≠ off) : wordAt off = none :=
  Option.eq_none_iff_forall_ne_some.2 fun w hw => h w (wordOffset_of_wordAt halign hw)

section
variable {off : Nat} (h : wordAt off = none) (s : State)
include h

theorem hostLoad_unmapped : hostLoad off s = 0 := by
  simp only [hostLoad, h]

theorem hostStore_unmapped (v : Word) : hostStore off v s = ignoreWrite s := by
  simp only [hostStore, h]

end

/-- A read of any word but STATUS notes nothing but its number (R84). -/
theorem noteRead_of_ne_status {off : Nat} (h : wordAt off ≠ some (.word .status)) (s : State) :
    noteRead off s = { s with reads := s.reads + 1 } := by
  simp [noteRead, beq_eq_false_iff_ne.2 h]

/-- Settles O9: where no word stands, a read has nothing to show and a write is an ignored one. -/
theorem unmappedOffsets : Obligations.UnmappedOffsets := by
  intro s off v rest halign hunmapped
  have hnone := wordAt_eq_none_of_unmapped halign hunmapped
  have hform : accessAligned 4 off = true := by simp [accessAligned, halign]
  refine ⟨fun hinbox => ?_, fun hinbox => ?_⟩
  · rw [step_cons hinbox, serveEvent, hostRead_served hform, hostLoad_unmapped hnone,
      noteRead_of_ne_status (by simp [hnone])]
    rfl
  · rw [step_cons hinbox, serveEvent, hostWrite_served hform, hostStore_unmapped hnone]
    rfl

/-! ## Reads before the completion is seen (R91) -/

/-- A word other than STATUS is one field: the free choices of other lanes have no part in it. -/
theorem wordValue_lane_zero {w : WindowWord} (hw : w ≠ .word .status) (v : Nat → CmdRegs) (s : State) :
    wordValue v s w = windowValue { s with regs := v 0 } w := by
  cases w with
  | word r =>
    cases r with
    | status => exact absurd rfl hw
    | _ => rfl
  | low r => cases r <;> rfl
  | high r => cases r <;> rfl

/-- R58, R91: what a host read shows of the registers a command writes is their old, their present or their new values. -/
theorem readRegs_cases (s : State) (lane : Nat) :
    readRegs s lane = s.old ∨ readRegs s lane = s.regs ∨ readRegs s lane = newRegs s := by
  rw [readRegs]
  split
  · exact .inr (.inl rfl)
  · rw [chosenRegs]
    split
    · exact .inl rfl
    · exact .inr (.inl rfl)
    · exact .inr (.inr rfl)

/-- Settles O16: the read shows its word from one of the three views, whichever the choice. -/
theorem unsettledReadsOldOrNew : Obligations.UnsettledReadsOldOrNew := by
  intro s w rest hw hinbox
  let u : State := { s with inbox := rest }
  have hvalue : hostWordValue u w = windowValue { u with regs := readRegs u 0 } w := by
    rw [hostWordValue, if_neg hw, wordValue_lane_zero hw]
  have hview : ∀ r : CmdRegs, windowValue { u with regs := r } w = windowValue { s with regs := r } w :=
    fun r => windowValue_withHostSide rest s.settled s.reads s.busData { s with regs := r } w
  refine ⟨hostWordValue u w, ?_, ?_⟩
  · rw [step_read hinbox, noteRead_of_ne_status (by simpa [wordAt_wordOffset] using hw)]
  · rw [hvalue, hview]
    obtain h | h | h := readRegs_cases u 0 <;> rw [h]
    · exact .inl rfl
    · exact .inr (.inl rfl)
    · exact .inr (.inr rfl)

end Sys2Proof.Machine
end

section
/-!
PROOFS. Which words are commands (R110 to R113): the decoder's three answers, each with the words that get it, the numbers of
the opcode table, and the two steps in which the block takes and completes an illegal word (R112).
-/

namespace Sys2Proof.Machine

/-! ## The opcode map -/

/-- R112: the opcodes that name no command. -/
def reservedOpcodes : List (BitVec 4) := [0x0, 0x6, 0x7, 0xD, 0xE, 0xF]

/-- R111, R112: the opcode map leaves out the reserved opcodes only, and has one way to refuse them. -/
theorem decodeOpc_eq_error_iff {opc : BitVec 4} {e : DecodeError} :
    decodeOpc opc = .error e ↔ e = .reservedOpcode ∧ opc ∈ reservedOpcodes := by
  cases e <;> revert opc <;> decide

/-! ## The decoder's three answers -/

section
variable {w : Word}

theorem decodeWord_of_rsv_eq_zero (h : w.extractLsb' 4 28 = 0) : decodeWord w = decodeOpc (w.extractLsb' 0 4) :=
  if_pos h

theorem decodeWord_of_rsv_ne_zero (h : w.extractLsb' 4 28 ≠ 0) : decodeWord w = .error .reservedBits :=
  if_neg h

/-- R111: the words that decode are those of the commands. -/
theorem decodeWord_eq_ok_iff {i : Instr} : decodeWord w = .ok i ↔ w = encode i :=
  ⟨eq_encode_of_decodeWord, fun h => h ▸ decodeWord_encode i⟩

/-- R110, R112: a reserved bit is refused before the opcode is looked at. -/
theorem decodeWord_eq_reservedBits_iff : decodeWord w = .error .reservedBits ↔ w.extractLsb' 4 28 ≠ 0 := by
  refine ⟨fun h hrsv => ?_, decodeWord_of_rsv_ne_zero⟩
  rw [decodeWord_of_rsv_eq_zero hrsv, decodeOpc_eq_error_iff] at h
  cases h.1

/-- R112: the opcode is what is wrong with a word only where its reserved bits are 0. -/
theorem decodeWord_eq_reservedOpcode_iff :
    decodeWord w = .error .reservedOpcode ↔ w.extractLsb' 4 28 = 0 ∧ w.extractLsb' 0 4 ∈ reservedOpcodes := by
  by_cases hrsv : w.extractLsb' 4 28 = 0
  · simp [decodeWord_of_rsv_eq_zero hrsv, decodeOpc_eq_error_iff, hrsv]
  · exact iff_of_false (by simp [decodeWord_of_rsv_ne_zero hrsv]) fun h => hrsv h.1

/-- R112: an illegal word, whichever of its fields makes it one, is refused. -/
theorem decodeWord_error_of_illegal (h : w.extractLsb' 4 28 ≠ 0 ∨ w.extractLsb' 0 4 ∈ reservedOpcodes) :
    ∃ e, decodeWord w = .error e := by
  by_cases hrsv : w.extractLsb' 4 28 = 0
  · exact ⟨_, decodeWord_eq_reservedOpcode_iff.2 ⟨hrsv, h.resolve_left (not_not_intro hrsv)⟩⟩
  · exact ⟨_, decodeWord_of_rsv_ne_zero hrsv⟩

/-- R111: the words of the commands, in the order of the opcode map. -/
theorem mem_commandWords_iff : w ∈ (plainCommands ++ buildingCommands).map encode ↔ ∃ i, w = encode i := by
  rw [List.mem_map]
  exact ⟨fun ⟨i, _, hi⟩ => ⟨i, hi.symm⟩, fun ⟨i, hi⟩ => ⟨i, List.mem_append.2 (mem_plain_or_building i), hi.symm⟩⟩

end

/-- Settles O2: the commands' words are the ten of the list, and each refusal has its own field of the word. -/
theorem legalWordsExactly : Obligations.LegalWordsExactly := fun _ =>
  ⟨(exists_congr fun _ => decodeWord_eq_ok_iff).trans mem_commandWords_iff.symm,
    decodeWord_eq_reservedBits_iff, decodeWord_eq_reservedOpcode_iff⟩

/-! ## The opcode table's numbers (R111) -/

/-- A word's number, laid out as the host bus carries it, is decoded as the word is. -/
theorem decodeTableWord_toNat (w : Word) : decodeTableWord 32 w.toNat = (decodeWord w).toOption := by
  rw [decodeTableWord, tableWord_toNat]
  simp only [bytesOfWord, decode, wordOfBytes_of_bytesOfWord (w := w) rfl]
  cases decodeWord w <;> rfl

theorem decodeTableWord_encode (i : Instr) : decodeTableWord 32 (encode i).toNat = some i := by
  rw [decodeTableWord_toNat, decodeWord_encode]
  rfl

theorem decodeTableWord_illegal {w : Word} (h : w.extractLsb' 4 28 ≠ 0 ∨ w.extractLsb' 0 4 ∈ reservedOpcodes) :
    decodeTableWord 32 w.toNat = none := by
  obtain ⟨e, he⟩ := decodeWord_error_of_illegal h
  rw [decodeTableWord_toNat, he]
  rfl

/-- Settles O3: the numbers are those of the ten commands' words, of a reserved opcode and of a word with a reserved bit. -/
theorem opcodeMapWords : Obligations.OpcodeMapWords :=
  ⟨decodeTableWord_encode .quant, decodeTableWord_encode .cyc2sec, decodeTableWord_encode .validate,
    decodeTableWord_encode .regidx, decodeTableWord_encode .regaddr, decodeTableWord_encode .sync,
    decodeTableWord_encode .delta, decodeTableWord_encode .one, decodeTableWord_encode .seq, decodeTableWord_encode .build,
    decodeTableWord_illegal (w := 0x00000000) (.inr (by decide)), decodeTableWord_illegal (w := 0x00000011) (.inl (by decide))⟩

/-! ## An illegal word (R112) -/

theorem computeStep_of_decode_error {s : State} {e : DecodeError} (h : decodeWord s.op = .error e) :
    computeStep s = .next (illegalCommand s) := by
  simp only [computeStep, h]

/-- R290: an idle block takes any word that the host writes to CMD. -/
theorem step_write_cmd {s : State} {w : Word} {rest : List Event} (hidle : s.phase = .idle)
    (hinbox : s.inbox = .write 4 0x000 w :: rest) :
    step s = .next { acceptCommand w { s with inbox := rest } with busData := 0 } := by
  rw [step_write (w := .word .cmd) hinbox, hostStore_command (s := { s with inbox := rest }) w hidle]

/-- The engine's turn on a word that decodes to no command completes it with the error (R112, R291). -/
theorem step_engine_illegal {s : State} {e : DecodeError} {rest : List Event} (hphase : s.phase = .compute)
    (hinbox : s.inbox = .engine :: rest) (herror : decodeWord s.op = .error e) :
    step s = .next (illegalCommand { s with inbox := rest }) := by
  rw [step_engine hinbox, engineStep_compute (s := { s with inbox := rest }) hphase]
  exact computeStep_of_decode_error herror

/-- Settles O6: the first step is acceptance, the second the error's report. -/
theorem illegalWordCompletes : Obligations.IllegalWordCompletes := by
  intro s w rest hidle hinbox hillegal
  obtain ⟨e, he⟩ := decodeWord_error_of_illegal hillegal
  have haccept := step_write_cmd hidle hinbox
  have hcomplete := step_engine_illegal
    (s := { acceptCommand w { s with inbox := .engine :: rest } with busData := 0 }) rfl rfl he
  exact (run_next Sys2Proof.core 1 haccept).trans (run_next Sys2Proof.core 0 hcomplete)

end Sys2Proof.Machine
end

section
/-!
PROOFS. The clock commands and their period (R130 to R133). Each command is given its rule, apart from how the COMPUTE step
ends with it; which errors a rule can raise is then said rule by rule, in the order in which they call each other.
-/

namespace Sys2Proof.Machine

/-! ## The rule of each command -/

/-- What a command's rule makes of the state of its COMPUTE step, before the step ends (R281, R291). -/
def commandRule (i : Instr) (s : State) : Except CmdError State :=
  match i with
  | .quant => (quantValue s.clkPeriod s.opA).map (setResult · s)
  | .cyc2sec => (cyc2secValue s.clkPeriod s.opA).map (setResult · s)
  | .validate => validateCommand s
  | .regidx => (regIdxValue s.opA).map (setResult · s)
  | .regaddr => (regAddrValue s.opA).map (setResult · s)
  | .sync => modeCommand syncSynth s
  | .delta => modeCommand deltaSynth s
  | .one => modeCommand oneSynth s
  | .seq => modeCommand seqSynth s
  | .build => buildCommand s

theorem exec_eq_finishPlain {i : Instr} (s : State) (hi : i ∈ plainCommands) :
    exec i s = finishPlain s (commandRule i s) := by
  cases i with
  | quant | cyc2sec | validate | regidx | regaddr => rfl
  | sync | delta | one | seq | build => simp [plainCommands] at hi

theorem exec_eq_finishBuilding {i : Instr} (s : State) (hi : i ∈ buildingCommands) :
    exec i s = finishBuilding s (commandRule i s) := by
  cases i with
  | sync | delta | one | seq | build => rfl
  | quant | cyc2sec | validate | regidx | regaddr => simp [buildingCommands] at hi

/-- R281: an error that the rule raises is the end of the command. -/
theorem exec_of_rule_error {i : Instr} {s : State} {e : CmdError} (h : commandRule i s = .error e) :
    exec i s = .next (raiseError e s) := by
  obtain hi | hi := mem_plain_or_building i
  · rw [exec_eq_finishPlain s hi, h]; rfl
  · rw [exec_eq_finishBuilding s hi, h]; rfl

/-- R281, R291: a COMPUTE step ends with the error of the command's rule, or with the registers that the rule answers. -/
theorem exec_rule_cases {i : Instr} {s t : State} (h : exec i s = .next t) :
    (∃ e, commandRule i s = .error e ∧ t = raiseError e s) ∨ ∃ u, commandRule i s = .ok u ∧ t.regs = u.regs := by
  obtain hi | hi := mem_plain_or_building i
  · rw [exec_eq_finishPlain s hi] at h
    obtain ⟨u, hu, rfl⟩ | herror := finishPlain_cases h
    · exact .inr ⟨u, hu, rfl⟩
    · exact .inl herror
  · rw [exec_eq_finishBuilding s hi] at h
    obtain hu | herror := finishBuilding_cases h
    · exact .inr ⟨t, hu, rfl⟩
    · exact .inl herror

theorem map_setResult_errCode {s u : State} {r : Except CmdError DWord} (h : r.map (setResult · s) = .ok u) :
    u.regs.errCode = s.regs.errCode := by
  cases r with
  | ok v => cases h; rfl
  | error e => cases h

theorem modeCommand_errCode {synth : State → F64 → Except CmdError (Vector Window 10)} {s u : State}
    (h : modeCommand synth s = .ok u) : u.regs.errCode = s.regs.errCode := by
  obtain ⟨-, w, g, -, -, rfl⟩ := modeCommand_ok.1 h
  rfl

/-- R291: a rule that raises nothing leaves ERR_CODE to acceptance, which has cleared it. -/
theorem commandRule_ok_errCode {i : Instr} {s u : State} (h : commandRule i s = .ok u) :
    u.regs.errCode = s.regs.errCode := by
  cases i with
  | quant | cyc2sec | regidx | regaddr => exact map_setResult_errCode h
  | validate =>
    obtain ⟨⟨c, rate⟩, -, hpure⟩ := bind_ok_iff.1 h
    cases hpure
    rfl
  | sync | delta | one | seq => exact modeCommand_errCode h
  | build =>
    obtain ⟨-, g, -, rfl⟩ := buildCommand_ok.1 h
    rfl

/-! ## QUANT and CYC2SEC at a valid period -/

theorem toNat_zeroExtend_u32 {n : Int} (h0 : 0 ≤ n) (h1 : n ≤ 4294967295) :
    (((u32 n).zeroExtend 64).toNat : Int) = n := by
  rw [BitVec.toNat_setWidth, Nat.mod_eq_of_lt (by have := (u32 n).isLt; omega), toNat_u32 h0 h1]

/-- R131, R132, R291: a plain command whose rule answers a value ends with it in RESULT. -/
theorem finishPlain_value (v : DWord) (s : State) :
    finishPlain s ((Except.ok v).map (setResult · s)) = .next (endedWith { s.regs with result := v } s) := rfl

theorem quantValue_eq {p : F64} (x : F64) (hp : PeriodOk p) :
    quantValue p x = (quantize p x chanNone).map fun c => (u32 c).zeroExtend 64 := by
  rw [quantValue, (checkPeriod_ok p).2 hp]
  cases quantize p x chanNone <;> rfl

theorem quantValue_ok {p x : F64} (hp : PeriodOk p) (hq : Quantizable p x) :
    quantValue p x = .ok ((u32 (cycles p x)).zeroExtend 64) := by
  rw [quantValue_eq x hp, quantize_ok.2 ⟨hq, rfl⟩]
  rfl

/-- Settles O23: RESULT is the cycle count, which is not negative and fits the low word. -/
theorem quantResult : Obligations.QuantResult := by
  intro s hp hq
  have ⟨_, _, _, hmax⟩ := hq
  refine ⟨_, toNat_zeroExtend_u32 (cycles_nonneg hp hq) hmax, ?_⟩
  rw [exec, execQuant, quantValue_ok hp hq, finishPlain_value, cycles]

/-- R130, R131: the error of QUANT at a time that `Quantize` does not take. -/
def quantError (p x : F64) : CmdError :=
  if flt x 0 then { kind := .negativeDuration }
  else if isNaN x then { kind := .invalidNumber }
  else { kind := .overflow, info := maxSeconds p }

theorem quantValue_error {p x : F64} (hp : PeriodOk p) (hq : ¬ Quantizable p x) :
    quantValue p x = .error (quantError p x) := by
  rw [quantValue_eq x hp, quantize_error chanNone hq]
  rfl

/-- R48, R280: how the error of QUANT is reported. -/
theorem raiseError_quantError (p x : F64) (s : State) :
    raiseError (quantError p x) s =
      if flt x 0 then endedWithError 0x01 15 0 s
      else if isNaN x then endedWithError 0x14 15 0 s
      else endedWithError 0x02 15 (fmul 0x41EFFFFFFFE00000 p) s := by
  rw [quantError]
  split_ifs <;> rfl

theorem exec_quant_error {s : State} (hp : PeriodOk s.clkPeriod) (hq : ¬ Quantizable s.clkPeriod s.opA) :
    exec .quant s = .next (raiseError (quantError s.clkPeriod s.opA) s) := by
  apply exec_of_rule_error
  rw [commandRule, quantValue_error hp hq]
  rfl

/-- Settles O24: `Quantize` raises the first error of the rule's order, and QUANT reports it. -/
theorem quantErrors : Obligations.QuantErrors := by
  intro s hp hq
  rw [exec_quant_error hp hq, raiseError_quantError]

theorem cyc2secValue_eq {p : F64} (a : DWord) (hp : PeriodOk p) :
    cyc2secValue p a = .ok (fmul (i2f (cyclesOperand a)) p) := by
  rw [cyc2secValue, (checkPeriod_ok p).2 hp]
  rfl

/-- Settles O25: at a valid period the check passes and CYC2SEC is its product. -/
theorem cyc2secResult : Obligations.Cyc2secResult := by
  intro s hp
  rw [exec, execCyc2sec, cyc2secValue_eq _ hp, finishPlain_value, cyclesOperand]

/-! ## The period checked first (R133) -/

theorem checkPeriod_bind_error {α : Type} {p : F64} (h : ¬ PeriodOk p) (f : Unit → Except CmdError α) :
    (checkPeriod p >>= f) = .error { kind := .invalidClockConfig } := by
  have hp : periodValid p = false := by rwa [← periodValid_iff, Bool.not_eq_true] at h
  rw [checkPeriod, raiseIf_bind, hp]
  rfl

/-- R133: each rule that reads CLK_PERIOD begins with the check. -/
theorem commandRule_period_error {i : Instr} {s : State} (hi : i ∈ [.quant, .cyc2sec] ++ buildingCommands)
    (h : ¬ PeriodOk s.clkPeriod) : commandRule i s = .error { kind := .invalidClockConfig } := by
  cases i with
  | quant => rw [commandRule, quantValue, checkPeriod_bind_error h]; rfl
  | cyc2sec => rw [commandRule, cyc2secValue, checkPeriod_bind_error h]; rfl
  | sync | delta | one | seq | build => exact checkPeriod_bind_error h _
  | validate | regidx | regaddr => simp [buildingCommands] at hi

/-! ## The errors a rule can raise -/

/-- No error that `r` ends with is of the kind `k`. -/
def NeverRaises {α : Type} (k : ErrorKind) (r : Except CmdError α) : Prop := ∀ e, r = .error e → e.kind ≠ k

section
variable {α β : Type} {k : ErrorKind}

theorem NeverRaises.ok (a : α) : NeverRaises k (.ok a : Except CmdError α) := nofun

theorem NeverRaises.error {e : CmdError} (h : e.kind ≠ k) : NeverRaises k (.error e : Except CmdError α) := by
  rintro _ ⟨⟩
  exact h

theorem NeverRaises.raise {kind : ErrorKind} {chan : BitVec 4} {info : DWord} (h : kind ≠ k) :
    NeverRaises k (.error ⟨kind, chan, info⟩ : Except CmdError α) :=
  .error h

theorem NeverRaises.raiseIf {c : Bool} {kind : ErrorKind} {chan : BitVec 4} {info : DWord} (h : kind ≠ k) :
    NeverRaises k (raiseIf c ⟨kind, chan, info⟩) := by
  cases c with
  | true => exact .error h
  | false => exact .ok ()

theorem NeverRaises.bind {r : Except CmdError α} {f : α → Except CmdError β} (hr : NeverRaises k r)
    (hf : ∀ a, NeverRaises k (f a)) : NeverRaises k (r >>= f) := by
  cases r with
  | ok a => exact hf a
  | error e => exact .error (hr e rfl)

theorem NeverRaises.map {r : Except CmdError α} (hr : NeverRaises k r) (f : α → β) : NeverRaises k (r.map f) := by
  cases r with
  | ok a => exact .ok _
  | error e => exact .error (hr e rfl)

/-- A raise at the head of a rule. -/
theorem NeverRaises.raiseIf_bind {c : Bool} {kind : ErrorKind} {chan : BitVec 4} {info : DWord}
    {f : Unit → Except CmdError α} (h : kind ≠ k) (hf : NeverRaises k (f ())) :
    NeverRaises k (Machine.raiseIf c ⟨kind, chan, info⟩ >>= f) :=
  .bind (.raiseIf h) fun _ => hf

end

/-! ## Every rule past the check of the period raises something else -/

theorem quantize_neverRaises (p x : F64) (chan : BitVec 4) : NeverRaises .invalidClockConfig (quantize p x chan) :=
  .raiseIf_bind (by decide) <| .raiseIf_bind (by decide) <| .raiseIf_bind (by decide) <| .raiseIf_bind (by decide) <| .ok _

theorem checkPeriod_neverRaises {p : F64} (hp : PeriodOk p) : NeverRaises .invalidClockConfig (checkPeriod p) := by
  rw [(checkPeriod_ok p).2 hp]
  exact .ok ()

theorem effectiveRate_neverRaises (latch : Option Int) (rep : Int) (chan : BitVec 4) :
    NeverRaises .invalidClockConfig (effectiveRate latch rep chan) := by
  unfold effectiveRate
  split
  · split
    · exact .ok _
    · exact .raise (by decide)
  · exact .ok _

theorem checkEnabled_neverRaises (start stop rep : Int) (chan : BitVec 4) :
    NeverRaises .invalidClockConfig (checkEnabled start stop rep chan) :=
  .raiseIf_bind (by decide) <| .raiseIf_bind (by decide) <| .raiseIf_bind (by decide) <| .raiseIf (by decide)

theorem validateWindow_neverRaises (latch : Option Int) (start stop rep : Int) (chan : BitVec 4) :
    NeverRaises .invalidClockConfig (validateWindow latch start stop rep chan) := by
  refine .bind (effectiveRate_neverRaises latch rep chan) fun rate => ?_
  split
  · exact .ok _
  · exact .bind (checkEnabled_neverRaises start stop rate chan) fun _ => .ok _

theorem validateEnabled_neverRaises (latch : Option Int) (start stop rep : Int) (chan : BitVec 4) :
    NeverRaises .invalidClockConfig (validateEnabled latch start stop rep chan) :=
  .bind (validateWindow_neverRaises latch start stop rep chan) fun _ => .raiseIf (by decide)

theorem checkSlot_neverRaises (ctx : BuildCtx) (i : Fin 10) (w : Window) (first : F64) :
    NeverRaises .invalidClockConfig (checkSlot ctx i w first) :=
  .raiseIf_bind (by decide) <| .raiseIf_bind (by decide) <| .raiseIf_bind (by decide) <| .raiseIf_bind (by decide) <| .ok _

theorem buildSlot_neverRaises (ctx : BuildCtx) (w : Vector Window 10) (acc : SlotAcc) (i : Fin 10) :
    NeverRaises .invalidClockConfig (buildSlot ctx w acc i) := by
  rw [buildSlot]
  split
  · exact .raiseIf_bind (by decide) <| .ok _
  · exact .bind (checkSlot_neverRaises ctx i _ _) fun _ => .bind (quantize_neverRaises _ _ _) fun _ =>
      .bind (quantize_neverRaises _ _ _) fun _ => .bind (validateEnabled_neverRaises _ _ _ _ _) fun _ => .ok _

theorem buildSlots_neverRaises (ctx : BuildCtx) (w : Vector Window 10) (l : List (Fin 10)) (acc : SlotAcc) :
    NeverRaises .invalidClockConfig (buildSlots ctx w l acc) := by
  induction l generalizing acc with
  | nil => exact .ok acc
  | cons i rest ih =>
    have hslot := buildSlot_neverRaises ctx w acc i
    rw [buildSlots]
    split
    · exact ih _
    next e he => exact .error (hslot e he)

theorem buildCharge_neverRaises (ctx : BuildCtx) (deadC : Int) (acc : SlotAcc) :
    NeverRaises .invalidClockConfig (buildCharge ctx deadC acc) :=
  .bind (quantize_neverRaises _ _ _) fun _ => .bind (validateEnabled_neverRaises _ _ _ _ _) fun _ =>
    .raiseIf_bind (by decide) <| .ok _

theorem buildProgram_neverRaises (p : F64) (latch : Option Int) (w : Vector Window 10) (count : Nat) (dead rep : F64) :
    NeverRaises .invalidClockConfig (buildProgram p latch w count dead rep) := by
  have hcount : NeverRaises .invalidClockConfig (checkCount count) :=
    .raiseIf_bind (by decide) <| .raiseIf (by decide)
  have hrate : NeverRaises .invalidClockConfig (buildRepRate p rep) :=
    .bind (quantize_neverRaises p rep _) fun _ => .raiseIf_bind (by decide) <| .ok _
  have hdead : NeverRaises .invalidClockConfig (buildDeadTime p dead) :=
    .bind (quantize_neverRaises p dead _) fun _ => .raiseIf_bind (by decide) <| .ok _
  exact .bind hcount fun _ => .bind hrate fun _ => .bind hdead fun _ =>
    .bind (buildSlots_neverRaises _ w slots _) fun _ => buildCharge_neverRaises _ _ _

theorem checkDelayEntries_neverRaises (n : Nat) (info : DWord) (d : Vector F64 10) (l : List (Fin 10)) :
    NeverRaises .invalidClockConfig (checkDelayEntries n info d l) := by
  induction l with
  | nil => exact .ok ()
  | cons k rest ih =>
    rw [checkDelayEntries]
    split
    · exact .raise (by decide)
    · exact ih

theorem checkDelays_neverRaises (present : Bool) (len n : Nat) (info : DWord) (d : Vector F64 10) :
    NeverRaises .invalidClockConfig (checkDelays present len n info d) := by
  rw [checkDelays]
  split
  · exact .raiseIf_bind (by decide) <| checkDelayEntries_neverRaises n info d slots
  · exact .ok ()

theorem checkCommon_neverRaises (s : State) : NeverRaises .invalidClockConfig (checkCommon s) :=
  .raiseIf_bind (by decide) <| .bind (checkDelays_neverRaises _ _ _ _ _) fun _ =>
    .bind (checkDelays_neverRaises _ _ _ _ _) fun _ => .ok _

theorem regIdxValue_neverRaises (a : DWord) : NeverRaises .invalidClockConfig (regIdxValue a) :=
  .raiseIf_bind (by decide) <| .ok _

theorem regAddrValue_neverRaises (a : DWord) : NeverRaises .invalidClockConfig (regAddrValue a) :=
  .raiseIf_bind (by decide) <| .ok _

theorem modeCommand_neverRaises {synth : State → F64 → Except CmdError (Vector Window 10)} {s : State}
    (hp : PeriodOk s.clkPeriod) (hsynth : NeverRaises .invalidClockConfig (synth s s.repRate)) :
    NeverRaises .invalidClockConfig (modeCommand synth s) :=
  .bind (checkPeriod_neverRaises hp) fun _ => .bind hsynth fun _ =>
    .bind (buildProgram_neverRaises _ _ _ _ _ _) fun _ => .ok _

theorem commandRule_neverRaises (i : Instr) {s : State} (hp : PeriodOk s.clkPeriod) :
    NeverRaises .invalidClockConfig (commandRule i s) := by
  have hperiod := checkPeriod_neverRaises hp
  cases i with
  | quant => exact .map (.bind hperiod fun _ => .bind (quantize_neverRaises _ _ _) fun _ => .ok _) _
  | cyc2sec => exact .map (.bind hperiod fun _ => .ok _) _
  | validate => exact .bind (validateWindow_neverRaises _ _ _ _ _) fun _ => .ok _
  | regidx => exact .map (regIdxValue_neverRaises _) _
  | regaddr => exact .map (regAddrValue_neverRaises _) _
  | sync | delta | seq => exact modeCommand_neverRaises hp (.bind (checkCommon_neverRaises s) fun _ => .ok _)
  | one => exact modeCommand_neverRaises hp (.raiseIf_bind (by decide) <| .ok _)
  | build => exact .bind hperiod fun _ => .bind (buildProgram_neverRaises _ _ _ _ _ _) fun _ => .ok _

theorem errorCode_eq_invalidClockConfig {k : ErrorKind} (h : errorCode k = 0x15) : k = .invalidClockConfig := by
  revert h
  cases k <;> decide

/-- Settles O22: the check comes first in each rule that reads the period, and past it no rule raises its error. -/
theorem periodCheckedFirst : Obligations.PeriodCheckedFirst := by
  refine ⟨fun s i hi hp => exec_of_rule_error (commandRule_period_error hi hp), fun s t i hp hcode h => ?_⟩
  obtain ⟨e, he, rfl⟩ | ⟨u, hu, hregs⟩ := exec_rule_cases h
  · exact fun hclock => commandRule_neverRaises i hp e he (errorCode_eq_invalidClockConfig hclock)
  · rw [hregs, commandRule_ok_errCode hu, hcode]
    decide

end Sys2Proof.Machine
end

section
/-!
PROOFS. The pulse generator's register map and its two commands (R151 to R155). Each rule is given its two answers, split at
the range check; the numbers they put into RESULT are small enough for the words that hold them.
-/

namespace Sys2Proof.Machine

/-! ## A command that answers a single value -/

/-- R47, R291: the value that a plain command's rule answers is RESULT, and the command is over. -/
theorem exec_of_rule_value {i : Instr} {s : State} {v : DWord} (hi : i ∈ plainCommands)
    (h : commandRule i s = .ok (setResult v s)) : exec i s = .next (endedWith { s.regs with result := v } s) := by
  rw [exec_eq_finishPlain s hi, h]
  rfl

/-! ## Register numbers and addresses (R151 to R153) -/

theorem channelRegister_eq (c : Nat) (sub field : Bool) :
    channelRegister c sub field = 4 * (c - 1) + 2 * sub.toNat + field.toNat := by
  cases sub <;> cases field <;> rfl

/-- R151: a channel's registers lie below the two fixed ones. -/
theorem channelRegister_lt {c : Nat} (sub field : Bool) (hc : c ≤ 10) : channelRegister c sub field < 40 := by
  have hsub := sub.toNat_le
  have hfield := field.toNat_le
  rw [channelRegister_eq]
  omega

theorem registerAddress_eq (n : Nat) : registerAddress n = 4 * n := Nat.mul_comm n 4

/-- R153: a valid index has an address that fits a word. -/
theorem toNat_ofNat_registerAddress {n : Nat} (hn : n ≤ 41) : (BitVec.ofNat 32 (registerAddress n)).toNat = 4 * n := by
  rw [registerAddress_eq, BitVec.toNat_ofNat, Nat.mod_eq_of_lt (by omega)]

/-! ## REGIDX -/

/-- R154: RESULT of REGIDX, the address above the index. -/
def indexResult (n : Nat) : DWord := joinWords (BitVec.ofNat 32 (registerAddress n)) (BitVec.ofNat 32 n)

theorem toNat_lowWord_indexResult {n : Nat} (hn : n ≤ 41) : (lowWord (indexResult n)).toNat = n := by
  rw [indexResult, lowWord_joinWords, BitVec.toNat_ofNat, Nat.mod_eq_of_lt (by omega)]

theorem toNat_highWord_indexResult {n : Nat} (hn : n ≤ 41) : (highWord (indexResult n)).toNat = 4 * n := by
  rw [indexResult, highWord_joinWords, toNat_ofNat_registerAddress hn]

theorem regIdxValue_eq (a : DWord) :
    regIdxValue a = if channelOperand a < 1 ∨ 10 < channelOperand a then .error { kind := .channelRange }
      else .ok (indexResult (channelRegister (channelOperand a) (subOperand a) (fieldOperand a))) := by
  simp only [regIdxValue, raiseIf_bind, Bool.or_eq_true, decide_eq_true_eq]
  rfl

theorem exec_regidx_inRange {s : State} (hlow : 1 ≤ channelOperand s.opA) (hhigh : channelOperand s.opA ≤ 10) :
    exec .regidx s = .next (endedWith { s.regs with
      result := indexResult (channelRegister (channelOperand s.opA) (subOperand s.opA) (fieldOperand s.opA)) } s) := by
  apply exec_of_rule_value (by decide)
  rw [commandRule, regIdxValue_eq, if_neg (by omega)]
  rfl

theorem exec_regidx_outOfRange {s : State} (h : channelOperand s.opA = 0 ∨ 10 < channelOperand s.opA) :
    exec .regidx s = .next (raiseError { kind := .channelRange } s) := by
  apply exec_of_rule_error
  rw [commandRule, regIdxValue_eq, if_pos (by omega)]
  rfl

/-- Settles O29: of a channel 1..10 RESULT is its register's address and index, and any other channel is the range error. -/
theorem regidxResult : Obligations.RegidxResult := by
  rintro s c rfl
  refine ⟨fun hlow hhigh => ?_, exec_regidx_outOfRange⟩
  have hn : channelRegister (channelOperand s.opA) (subOperand s.opA) (fieldOperand s.opA) ≤ 41 :=
    (channelRegister_lt _ _ hhigh).le.trans (by decide)
  have hindex := toNat_lowWord_indexResult hn
  have haddress := toNat_highWord_indexResult hn
  exact ⟨_, hindex.trans (channelRegister_eq _ _ _), haddress.trans (congrArg (4 * ·) hindex.symm),
    exec_regidx_inRange hlow hhigh⟩

/-! ## REGADDR -/

theorem regAddrValue_eq (a : DWord) :
    regAddrValue a = if 41 < a.toNat then .error { kind := .registerRange }
      else .ok ((BitVec.ofNat 32 (registerAddress a.toNat)).zeroExtend 64) := by
  simp only [regAddrValue, raiseIf_bind, decide_eq_true_eq]
  rfl

theorem toNat_addressResult {n : Nat} (hn : n ≤ 41) :
    ((BitVec.ofNat 32 (registerAddress n)).zeroExtend 64).toNat = 4 * n := by
  rw [BitVec.toNat_setWidth_of_le (by decide), toNat_ofNat_registerAddress hn]

theorem exec_regaddr_inRange {s : State} (h : s.opA.toNat ≤ 41) :
    exec .regaddr s = .next (endedWith { s.regs with
      result := (BitVec.ofNat 32 (registerAddress s.opA.toNat)).zeroExtend 64 } s) := by
  apply exec_of_rule_value (by decide)
  rw [commandRule, regAddrValue_eq, if_neg (by omega)]
  rfl

theorem exec_regaddr_outOfRange {s : State} (h : 41 < s.opA.toNat) :
    exec .regaddr s = .next (raiseError { kind := .registerRange } s) := by
  apply exec_of_rule_error
  rw [commandRule, regAddrValue_eq, if_pos h]
  rfl

/-- Settles O30: RESULT is the address of an index 0..41, and any other index is the range error. -/
theorem regaddrResult : Obligations.RegaddrResult := fun _ =>
  ⟨fun h => ⟨_, toNat_addressResult h, exec_regaddr_inRange h⟩, exec_regaddr_outOfRange⟩

end Sys2Proof.Machine
end

section
/-!
PROOFS. The window validator and its command (R170 to R176). `Validate` is said once for any repetition rate that its first
step settles on; VALIDATE reports what it answers.
-/

namespace Sys2Proof.Machine

section
variable {latch : Option Int} {start stop rep r : Int} {chan : BitVec 4}

/-! ## The repetition rate used (R171) -/

theorem effectiveRate_of_pos (h : 0 < rep) : effectiveRate latch rep chan = .ok rep :=
  if_neg (not_le.2 h)

theorem effectiveRate_latched (h : rep ≤ 0) : effectiveRate (some r) rep chan = .ok r :=
  if_pos h

theorem effectiveRate_missing (h : rep ≤ 0) :
    effectiveRate none rep chan = .error { kind := .invalidRepRate, chan := chan } :=
  if_pos h

/-! ## The classification and the ordering checks (R172, R173) -/

theorem sentinelPair_iff : sentinelPair start stop r = true ↔ (r < stop ∧ r < start) ∨ (stop < 0 ∧ start < 0) := by
  simp only [sentinelPair, Bool.or_eq_true, Bool.and_eq_true, decide_eq_true_eq]

/-- R173: the four ordering checks, of which the first that fails is raised. -/
theorem checkEnabled_bind {α : Type} (f : Unit → Except CmdError α) :
    (checkEnabled start stop r chan >>= f) =
      if r < start then .error { kind := .startExceedsPeriod, chan := chan }
      else if r < stop then .error { kind := .stopExceedsPeriod, chan := chan }
      else if stop < start then .error { kind := .stopBeforeStart, chan := chan }
      else if stop = start then .error { kind := .zeroWidthWindow, chan := chan }
      else f () := by
  simp only [checkEnabled, raiseIf, decide_eq_true_eq]
  split_ifs <;> rfl

/-- R171 to R174: what `Validate` answers with the repetition rate `r`, given or latched. -/
theorem validateWindow_of_rate (h : effectiveRate latch rep chan = .ok r) :
    validateWindow latch start stop rep chan =
      if (r < stop ∧ r < start) ∨ (stop < 0 ∧ start < 0) then .ok (.disabled, r)
      else if r < start then .error { kind := .startExceedsPeriod, chan := chan }
      else if r < stop then .error { kind := .stopExceedsPeriod, chan := chan }
      else if stop < start then .error { kind := .stopBeforeStart, chan := chan }
      else if stop = start then .error { kind := .zeroWidthWindow, chan := chan }
      else .ok (.enabled, r) := by
  have hwindow : validateWindow latch start stop rep chan =
      if sentinelPair start stop r then .ok (.disabled, r)
      else checkEnabled start stop r chan >>= fun _ => .ok (.enabled, r) := by
    rw [validateWindow, h]
    rfl
  simp only [hwindow, sentinelPair_iff, checkEnabled_bind]

/-- R171: without a rate to use, `Validate` looks at nothing else. -/
theorem validateWindow_of_no_rate {e : CmdError} (h : effectiveRate latch rep chan = .error e) :
    validateWindow latch start stop rep chan = .error e := by
  rw [validateWindow, h]
  rfl

end

/-! ## VALIDATE (R176) -/

section
variable {s : State}

/-- R53: a latched rate is there exactly while LATCH_VALID is set. -/
theorem latchedRate_of_valid (h : s.regs.latchValid = true) : latchedRate s = some (s.regs.latchRep.toNat : Int) :=
  if_pos h

theorem latchedRate_of_not_valid (h : s.regs.latchValid = false) : latchedRate s = none :=
  if_neg (Bool.eq_false_iff.1 h)

/-- R171: the rate that VALIDATE uses is a positive OP_C, or else the latched one. -/
theorem effectiveRate_validate {r : Int}
    (h : (0 < s.opC.toInt ∧ r = s.opC.toInt) ∨
      (s.opC.toInt ≤ 0 ∧ s.regs.latchValid = true ∧ r = (s.regs.latchRep.toNat : Int))) :
    effectiveRate (latchedRate s) (signedOperand s.opC) chanNone = .ok r := by
  obtain ⟨hpos, rfl⟩ | ⟨hneg, hvalid, rfl⟩ := h
  · exact effectiveRate_of_pos hpos
  · rw [latchedRate_of_valid hvalid]
    exact effectiveRate_latched hneg

/-- R176: the state in which VALIDATE ends, given what `Validate` answers. -/
def validateEnd (s : State) (answer : Except CmdError (WindowClass × Int)) : State :=
  match answer with
  | .ok (c, r) => endedWith { s.regs with cls := classBits c, result := BitVec.ofInt 64 r } s
  | .error e => raiseError e s

theorem exec_validate_eq (s : State) :
    exec .validate s = .next (validateEnd s
      (validateWindow (latchedRate s) (signedOperand s.opA) (signedOperand s.opB) (signedOperand s.opC) chanNone)) := by
  rw [exec_eq_finishPlain s (by decide), commandRule, validateCommand]
  cases validateWindow (latchedRate s) (signedOperand s.opA) (signedOperand s.opB) (signedOperand s.opC) chanNone <;> rfl

theorem exec_validate_missing_rate (hneg : s.opC.toInt ≤ 0) (hlatch : s.regs.latchValid = false) :
    exec .validate s = .next (endedWithError 0x03 15 0 s) := by
  have hrate : effectiveRate (latchedRate s) (signedOperand s.opC) chanNone = .error { kind := .invalidRepRate } := by
    rw [latchedRate_of_not_valid hlatch]
    exact effectiveRate_missing hneg
  rw [exec_validate_eq, validateWindow_of_no_rate hrate]
  rfl

end

/-- Settles O31: `Validate` answers by the rate used, and the report branches as that answer does, with one end per answer. -/
theorem validateResult : Obligations.ValidateResult := by
  refine ⟨?_, fun _ => exec_validate_missing_rate⟩
  rintro s start stop r rfl rfl hrate
  rw [exec_validate_eq, validateWindow_of_rate (effectiveRate_validate hrate)]
  simp only [apply_ite (validateEnd s)]
  rfl

end Sys2Proof.Machine
end

section
/-!
PROOFS. The waveform modes (R190 to R217). What a program-building command ends in when the builder accepts its windows is
said once for all five commands; a mode whose own checks refuse its operands ends with their error.
-/

namespace Sys2Proof.Machine

/-! ## A step of a rule -/

section
variable {α β : Type}

theorem bind_of_error {r : Except CmdError α} (h : r = .error e) (f : α → Except CmdError β) :
    (r >>= f) = .error e := by
  rw [h]
  rfl

theorem bind_of_ok {r : Except CmdError α} {a : α} (h : r = .ok a) (f : α → Except CmdError β) :
    (r >>= f) = f a := by
  rw [h]
  rfl

end

/-! ## The builder accepts (R231 to R247) -/

section
variable {p rep dead : F64} {w : Vector Window 10}

/-- R237: the earliest start is the repetition rate or the start of an enabled slot. -/
theorem earliestStart_cases (hrep : isNaN rep = false)
    (hstart : ∀ i : Fin 10, ¬ SlotOff rep w[i] → isNaN w[i].start = false) :
    earliestStart rep w = rep ∨ ∃ i : Fin 10, ¬ SlotOff rep w[i] ∧ earliestStart rep w = w[i].start := by
  obtain ⟨hfirst | ⟨i, -, hon, hfirst⟩, -⟩ := earliest_fold rep w slots rep hrep fun i _ => hstart i
  · exact .inl hfirst
  · exact .inr ⟨i, hon, hfirst⟩

/-- R239, R244: the charge window can be measured from the earliest start, which comes no later than the period ends. -/
theorem earliestStart_quantizable (hrep : Quantizable p rep)
    (hslot : ∀ i : Fin 10, ¬ SlotOff rep w[i] → SlotAccepted p rep w[i]) :
    Quantizable p (earliestStart rep w) ∧ cycles p (earliestStart rep w) ≤ cycles p rep := by
  have hstart : ∀ i : Fin 10, ¬ SlotOff rep w[i] → isNaN w[i].start = false := fun i hon => by
    obtain ⟨-, -, -, ⟨-, hnan, -⟩, -⟩ := hslot i hon
    exact hnan
  have ⟨_, hnan, _⟩ := hrep
  obtain hfirst | ⟨i, hon, hfirst⟩ := earliestStart_cases hnan hstart
  · rw [hfirst]
    exact ⟨hrep, le_rfl⟩
  · obtain ⟨-, -, -, hq, -, hlt, hle⟩ := hslot i hon
    rw [hfirst]
    exact ⟨hq, hlt.le.trans hle⟩

/-- R230: the builder answers the program of the windows that the rules accept, whatever the latch. -/
theorem buildProgram_of_accepted (latch : Option Int) (hp : PeriodOk p) (h : ProgramAccepted p rep dead w) :
    buildProgram p latch w 10 dead rep = .ok (programOf p rep dead w) := by
  obtain ⟨hrep, hrep0, hdead, hdeadMin, hslot, hcharge⟩ := h
  have hpos : 0 < cycles p rep := lt_of_le_of_ne (cycles_nonneg hp hrep) (Ne.symm hrep0)
  have hdead0 : 0 ≤ cycles p dead := cycles_nonneg hp hdead
  obtain ⟨hfirst, hle⟩ := earliestStart_quantizable hrep fun i => (hslot i).2
  have hslots := (buildSlots_ok (ctx := ⟨p, rep, cycles p rep, latch⟩) hp rfl hpos slots (slotAccStart rep) _).2
    ⟨fun i _ => hslot i, (slots_result _ w).symm⟩
  rw [buildProgram, bind_of_ok (checkCount_ok.2 rfl), bind_of_ok (buildRepRate_ok.2 ⟨hrep, hrep0, rfl⟩),
    bind_of_ok (buildDeadTime_ok.2 ⟨hdead, hdeadMin, rfl⟩), bind_of_ok hslots]
  refine (buildCharge_ok hpos (by exact ioMask_high _)).2 ⟨hfirst, ⟨.inl hdead0, hcharge, ?_⟩, rfl⟩
  dsimp only
  omega

end

/-! ## The emission starts (R191, R248, R253) -/

section
variable {s : State} {i : Instr} {w : Vector Window 10}

/-- R191, R253: the rule of a program-building command on windows that the builder makes a program of. -/
theorem commandRule_of_program {g : Program} (hi : i ∈ buildingCommands) (hp : PeriodOk s.clkPeriod)
    (hc : OperandsPass i s)
    (hg : buildProgram s.clkPeriod (latchedRate s) (tenOf (givenWindow i s)) 10 s.deadTime s.repRate = .ok g) :
    commandRule i s = .ok (commitProgram g (writeWindows (tenOf (givenWindow i s)) s)) := by
  obtain ⟨hsync, hdelta, hone, hseq⟩ := synth_given hc
  obtain ⟨-, -, hcount⟩ := hc
  cases i with
  | sync => exact modeCommand_ok.2 ⟨hp, _, g, hsync rfl, hg, rfl⟩
  | delta => exact modeCommand_ok.2 ⟨hp, _, g, hdelta rfl, hg, rfl⟩
  | one => exact modeCommand_ok.2 ⟨hp, _, g, hone rfl, hg, rfl⟩
  | seq => exact modeCommand_ok.2 ⟨hp, _, g, hseq rfl, hg, rfl⟩
  | build =>
    have hbuffer : tenOf (givenWindow .build s) = bufferWindows s := rfl
    rw [hbuffer] at hg ⊢
    exact buildCommand_ok.2 ⟨hp, g, by rwa [winCountField, hcount rfl], by rw [writeWindows_bufferWindows]⟩
  | quant | cyc2sec | validate | regidx | regaddr => simp [buildingCommands] at hi

/-- R191, R248, R253: a program-building command whose windows the builder accepts is in EMIT with them and their program. -/
theorem exec_startsEmission (hi : i ∈ buildingCommands) (hp : PeriodOk s.clkPeriod) (hc : OperandsPass i s)
    (hw : ∀ k : Fin 10, w[k] = givenWindow i s k) (h : ProgramAccepted s.clkPeriod s.repRate s.deadTime w) :
    exec i s = .next (startedEmission w (programOf s.clkPeriod s.repRate s.deadTime w) s) := by
  obtain rfl := eq_tenOf w _ hw
  rw [exec_eq_finishBuilding s hi, commandRule_of_program hi hp hc (buildProgram_of_accepted _ hp h)]
  rfl

/-- R193: of the checks before the builder, those of SYNC, DELTA and SEQ are CheckCommon's. -/
theorem operandsPass_of_commonOk (hi : i ∈ [Instr.sync, .delta, .seq]) (hc : CommonOk s) : OperandsPass i s :=
  ⟨fun _ => hc, by rintro rfl; simp at hi, by rintro rfl; simp at hi⟩

end

/-- Settles O32: the windows are those that SYNC gives the builder. -/
theorem syncStartsEmission : Obligations.SyncStartsEmission := fun _ _ hp hc hw h =>
  exec_startsEmission (by decide) hp (operandsPass_of_commonOk (by decide) hc) hw h

/-- Settles O33: the windows are those that DELTA gives the builder. -/
theorem deltaStartsEmission : Obligations.DeltaStartsEmission := by
  rintro s w n change hp hc rfl rfl hw h
  exact exec_startsEmission (by decide) hp (operandsPass_of_commonOk (by decide) hc) hw h

/-- Settles O34: of a channel that ONE does not refuse, the windows are those that it gives the builder. -/
theorem oneStartsEmission : Obligations.OneStartsEmission := by
  rintro s w ch hp rfl hlow hhigh hw h
  exact exec_startsEmission (by decide) hp ⟨fun hmem => by simp at hmem, fun _ => ⟨hlow, hhigh⟩, nofun⟩ hw h

/-- Settles O35: the windows are those that SEQ gives the builder, its pulse number counted from 1. -/
theorem seqStartsEmission : Obligations.SeqStartsEmission := by
  rintro s w n tb hp hc rfl rfl hw h
  refine exec_startsEmission (by decide) hp (operandsPass_of_commonOk (by decide) hc) (fun k => ?_) h
  rw [hw k]
  simp only [givenWindow, sub_add_cancel]

/-! ## The errors of the modes' own checks (R193, R205) -/

section
variable {s : State} {i : Instr} {e : CmdError}

/-- R191: at a valid period a mode reports the error of its synthesis. -/
theorem modeCommand_of_synth_error {synth : State → F64 → Except CmdError (Vector Window 10)} (hp : PeriodOk s.clkPeriod)
    (h : synth s s.repRate = .error e) : modeCommand synth s = .error e := by
  rw [modeCommand, bind_of_ok ((checkPeriod_ok _).2 hp), bind_of_error h]

/-- R193: the synthesis of SYNC, DELTA and SEQ begins with CheckCommon. -/
theorem exec_of_checkCommon_error (hi : i ∈ [Instr.sync, .delta, .seq]) (hp : PeriodOk s.clkPeriod)
    (h : checkCommon s = .error e) : exec i s = .next (raiseError e s) := by
  apply exec_of_rule_error
  cases i with
  | sync | delta | seq => exact modeCommand_of_synth_error hp (bind_of_error h _)
  | quant | cyc2sec | validate | regidx | regaddr | one | build => simp at hi

/-! ### One delay array -/

section
variable {len n : Nat} {info : DWord} {d : Vector F64 10} {k : Fin 10}

theorem slots_eq_append (k : Fin 10) : ∃ l₁ l₂, slots = l₁ ++ k :: l₂ ∧ ∀ j ∈ l₁, j < k :=
  ⟨slots.take k, slots.drop (k + 1), by revert k; decide⟩

theorem checkDelayEntries_append {l₁ l₂ : List (Fin 10)} (h : ∀ j ∈ l₁, fle d[j] 0 = true) :
    checkDelayEntries n info d (l₁ ++ l₂) = checkDelayEntries n info d l₂ := by
  induction l₁ with
  | nil => rfl
  | cons j l ih =>
    obtain ⟨hj, hl⟩ := List.forall_mem_cons.1 h
    rw [List.cons_append, checkDelayEntries, kZero, hj, Bool.not_true, Bool.and_false, if_neg Bool.false_ne_true, ih hl]

/-- R193: the entries are checked in order, so the error names the first one above 0. -/
theorem checkDelayEntries_error (hk : k.val < n) (hbefore : ∀ j : Fin 10, j < k → fle d[j] 0 = true)
    (hbad : fle d[k] 0 = false) :
    checkDelayEntries n info d slots = .error { kind := .delayPositive, chan := BitVec.ofNat 4 k.val, info := info } := by
  obtain ⟨l₁, l₂, hslots, hl₁⟩ := slots_eq_append k
  rw [hslots, checkDelayEntries_append fun j hj => hbefore j (hl₁ j hj), checkDelayEntries, kZero, hbad, decide_eq_true hk]
  rfl

theorem checkDelays_length_error (h : len ≠ n) :
    checkDelays true len n info d = .error { kind := .delayLength, info := info } := by
  rw [checkDelays, if_pos rfl, raiseIf_bind, decide_eq_true h]
  rfl

theorem checkDelays_entry_error (hlen : len = n) (hk : k.val < n) (hbefore : ∀ j : Fin 10, j < k → fle d[j] 0 = true)
    (hbad : fle d[k] 0 = false) :
    checkDelays true len n info d =
      .error { kind := .delayPositive, chan := BitVec.ofNat 4 k.val, info := info } := by
  rw [checkDelays, if_pos rfl, raiseIf_bind, decide_eq_false (not_not.2 hlen), if_neg Bool.false_ne_true,
    checkDelayEntries_error hk hbefore hbad]

end

/-! ### CheckCommon, check by check -/

theorem checkCommon_count_error (h : 10 < numChField s.param) : checkCommon s = .error { kind := .tooManyChannels } := by
  rw [checkCommon, raiseIf_bind, decide_eq_true h]
  rfl

/-- R193: with at most ten channels the two delay arrays are checked, `delay_begin` first. -/
theorem checkCommon_of_count (h : numChField s.param ≤ 10) :
    checkCommon s = (do
      checkDelays (dbPresent s.param) (dbLenField s.param) (numChField s.param) 0 s.delayBegin
      checkDelays (dePresent s.param) (deLenField s.param) (numChField s.param) 1 s.delayEnd
      pure (numChField s.param)) := by
  rw [checkCommon, raiseIf_bind, decide_eq_false h.not_gt]
  rfl

theorem checkCommon_begin_error (hn : numChField s.param ≤ 10) (hpresent : s.param.getLsbD 9 = true)
    (h : checkDelays true (dbLenField s.param) (numChField s.param) 0 s.delayBegin = .error e) :
    checkCommon s = .error e := by
  rw [checkCommon_of_count hn, dbPresent, hpresent, bind_of_error h]

theorem checkCommon_end_error (hn : numChField s.param ≤ 10)
    (hbegin : DelaysOk (dbPresent s.param) (dbLenField s.param) (numChField s.param) s.delayBegin)
    (hpresent : s.param.getLsbD 10 = true)
    (h : checkDelays true (deLenField s.param) (numChField s.param) 1 s.delayEnd = .error e) :
    checkCommon s = .error e := by
  rw [checkCommon_of_count hn, bind_of_ok (checkDelays_ok.2 hbegin), dePresent, hpresent, bind_of_error h]

/-- R205: ONE's channel is checked before its windows are made. -/
theorem oneSynth_error {rep : F64} (h : channelField s.param = 0 ∨ 10 ≤ channelField s.param) :
    oneSynth s rep = .error { kind := .channelRange } := by
  have hrange : (!(decide (0 < channelField s.param) && decide (channelField s.param < 10))) = true := by
    simp only [Bool.not_eq_true', Bool.and_eq_false_iff, decide_eq_false_iff_not]
    omega
  rw [oneSynth, raiseIf_bind, hrange]
  rfl

end

/-- Settles O37: each clause is one error of CheckCommon, raised after the checks before it have passed. -/
theorem commonCheckErrors : Obligations.CommonCheckErrors := by
  rintro s i n hi hp rfl
  have hreport {e : CmdError} (h : checkCommon s = .error e) := exec_of_checkCommon_error hi hp h
  refine ⟨?count, ?beginLength, ?beginEntry, ?endLength, ?endEntry⟩
  case count => exact fun hn => hreport (checkCommon_count_error hn)
  case beginLength =>
    exact fun hn hpresent hlen => hreport (checkCommon_begin_error hn hpresent (checkDelays_length_error hlen))
  case beginEntry =>
    exact fun hn hpresent hlen _ hk hbefore hbad =>
      hreport (checkCommon_begin_error hn hpresent (checkDelays_entry_error hlen hk hbefore hbad))
  case endLength =>
    exact fun hn hbegin hpresent hlen =>
      hreport (checkCommon_end_error hn hbegin hpresent (checkDelays_length_error hlen))
  case endEntry =>
    exact fun hn hbegin hpresent hlen _ hk hbefore hbad =>
      hreport (checkCommon_end_error hn hbegin hpresent (checkDelays_entry_error hlen hk hbefore hbad))

/-- Settles O38: ONE's rule answers the range error, and the command reports it. -/
theorem oneChannelRange : Obligations.OneChannelRange := by
  intro s hp hch
  have herror : commandRule .one s = .error { kind := .channelRange } :=
    modeCommand_of_synth_error hp (oneSynth_error hch)
  exact exec_of_rule_error herror

end Sys2Proof.Machine
end

section
/-!
PROOFS. The write sequence of a program (R249): each slot's four writes, in the order of the registers that they go to.
-/

namespace Sys2Proof.Machine

/-- R249: the writes of slot `i`, of which write `r` goes to register `4i + r`. -/
theorem seqWrite_of_slot (g : Shadow) {m r : Nat} (i : Fin 10) (hm : m = 2 + 4 * i.val + r) (hr : r < 4) :
    seqWrite g m = (4 * i.val + r,
      if r = 0 then g.pulseStart[i] else if r = 1 then g.pulseStop[i] else if r = 2 then g.chgStart else g.chgStop) := by
  have hslot : seqSlot m = i := Fin.ext (by rw [seqSlot, Fin.val_ofNat]; omega)
  have hfield : (m - 2) % 4 = r := by omega
  rw [seqWrite, if_neg (by omega), if_neg (by omega)]
  simp only [hslot, hfield, channelRegister_eq, Nat.add_sub_cancel]
  split_ifs <;> simp <;> omega

/-- Settles O48: the first two writes are fixed, and the others are the four of their slot. -/
theorem writeSequenceTable : Obligations.WriteSequenceTable := fun g i =>
  ⟨rfl, rfl, seqWrite_of_slot g (r := 0) i (by omega) (by decide), seqWrite_of_slot g (r := 1) i (by omega) (by decide),
    seqWrite_of_slot g (r := 2) i (by omega) (by decide), seqWrite_of_slot g (r := 3) i (by omega) (by decide)⟩

end Sys2Proof.Machine
end

section
/-!
PROOFS. The builder and BUILD (R230 to R253). The windows that the builder takes and the program it makes of them are exact
in both directions; then its errors, step by step, each of which every program-building command reports as it is.
-/

namespace Sys2Proof.Machine

/-! ## Acceptance (R230, R253) -/

/-- Settles O41: what the builder has checked when it answers are the conditions, and on the conditions it answers. -/
theorem buildAcceptsExactly : Obligations.BuildAcceptsExactly := by
  intro p rep dead latch w g hp
  constructor
  · intro h
    obtain ⟨⟨hrep, hrep0, hdead, hdeadMin⟩, hslot, hcharge, -, hg⟩ := buildProgram_ok hp h
    exact ⟨⟨hrep, hrep0, hdead, hdeadMin, hslot, hcharge⟩, hg⟩
  · rintro ⟨h, rfl⟩
    exact buildProgram_of_accepted latch hp h

/-- R253: of the checks before the builder's step 2, BUILD has only that of the window count. -/
theorem operandsPass_build {s : State} (h : (s.param.extractLsb' 20 4).toNat = 10) : OperandsPass .build s :=
  ⟨fun hmem => by simp at hmem, nofun, fun _ => h⟩

/-- Settles O36: the windows are the buffer's, so keeping them leaves the buffer as it was. -/
theorem buildStartsEmission : Obligations.BuildStartsEmission := by
  intro s w hp hcount hw h
  obtain rfl : w = bufferWindows s := eq_tenOf w _ hw
  have hkept : (writeWindows (bufferWindows s) s).regs = s.regs := congrArg State.regs (writeWindows_bufferWindows s)
  exact ⟨exec_startsEmission (by decide) hp (operandsPass_build hcount) hw h,
    show (writeWindows (bufferWindows s) s).regs.winStart = _ by rw [hkept],
    show (writeWindows (bufferWindows s) s).regs.winStop = _ by rw [hkept]⟩

/-! ## The window count (R231) -/

theorem checkCount_many_error {n : Nat} (h : 10 < n) : checkCount n = .error { kind := .tooManyChannels } := by
  rw [checkCount, raiseIf_bind, decide_eq_true h]
  rfl

theorem checkCount_few_error {n : Nat} (h : n < 10) : checkCount n = .error { kind := .wrongChannelCount } := by
  rw [checkCount, raiseIf_bind, decide_eq_false h.not_gt, raiseIf, decide_eq_true h]
  rfl

/-- R253: the count is the first thing that BUILD's builder looks at. -/
theorem exec_build_count_error {s : State} {e : CmdError} (hp : PeriodOk s.clkPeriod)
    (h : checkCount (winCountField s.param) = .error e) : exec .build s = .next (raiseError e s) := by
  apply exec_of_rule_error
  rw [commandRule, buildCommand, bind_of_ok ((checkPeriod_ok _).2 hp), buildProgram, bind_of_error (bind_of_error h _)]

/-! ## The repetition rate and the dead time (R232 to R234) -/

section
variable {p rep dead : F64} {latch : Option Int} {w : Vector Window 10} {e : CmdError}

theorem buildProgram_rate_error (h : buildRepRate p rep = .error e) : buildProgram p latch w 10 dead rep = .error e := by
  rw [buildProgram, bind_of_ok (checkCount_ok.2 rfl), bind_of_error h]

theorem buildProgram_dead_error (hrep : Quantizable p rep) (hrep0 : cycles p rep ≠ 0)
    (h : buildDeadTime p dead = .error e) : buildProgram p latch w 10 dead rep = .error e := by
  rw [buildProgram, bind_of_ok (checkCount_ok.2 rfl), bind_of_ok (buildRepRate_ok.2 ⟨hrep, hrep0, rfl⟩),
    bind_of_error h]

/-- R130: a time that `Quantize` does not take is the first of its three errors. -/
theorem quantize_chanNone_error (h : ¬ Quantizable p rep) : quantize p rep chanNone = .error (quantError p rep) :=
  quantize_error chanNone h

theorem buildRepRate_time_error (h : ¬ Quantizable p rep) : buildRepRate p rep = .error (quantError p rep) := by
  rw [buildRepRate, bind_of_error (quantize_chanNone_error h)]

theorem buildRepRate_zero_error (h : Quantizable p rep) (h0 : cycles p rep = 0) :
    buildRepRate p rep = .error { kind := .invalidRepRate } := by
  rw [buildRepRate, bind_of_ok (quantize_ok.2 ⟨h, rfl⟩), raiseIf_bind, decide_eq_true h0]
  rfl

theorem buildDeadTime_time_error (h : ¬ Quantizable p dead) : buildDeadTime p dead = .error (quantError p dead) := by
  rw [buildDeadTime, bind_of_error (quantize_chanNone_error h)]

theorem buildDeadTime_short_error (h : Quantizable p dead) (hshort : flt dead 0x3E7AD7F29ABCAF48 = true) :
    buildDeadTime p dead = .error { kind := .deadTimeTooShort } := by
  rw [buildDeadTime, bind_of_ok (quantize_ok.2 ⟨h, rfl⟩), raiseIf_bind, kDeadMin, hshort]
  rfl

end

/-! ### The checks of a time as the statement lists them -/

section
variable {α : Type} {p x : F64}

theorem timeChecks_of_quantizable (h : Quantizable p x) (negative nan overflow passed : α) :
    (if flt x 0 then negative else if isNaN x then nan else if ¬ Quantizable p x then overflow else passed) = passed := by
  have ⟨hneg, hnan, _⟩ := h
  rw [if_neg (Bool.eq_false_iff.1 hneg), if_neg (Bool.eq_false_iff.1 hnan), if_neg (not_not.2 h)]

theorem timeChecks_of_not_quantizable (h : ¬ Quantizable p x) (negative nan overflow passed : α) :
    (if flt x 0 then negative else if isNaN x then nan else if ¬ Quantizable p x then overflow else passed) =
      if flt x 0 then negative else if isNaN x then nan else overflow := by
  rw [if_pos h]

end

/-- Settles O39: BUILD's count is the builder's first check; past the operand checks each time fails in the order of its
checks, the dead time after the repetition rate. -/
theorem buildEarlyErrors : Obligations.BuildEarlyErrors := by
  refine ⟨fun s hp => ⟨fun hmany => exec_build_count_error hp (checkCount_many_error hmany),
    fun hfew => exec_build_count_error hp (checkCount_few_error hfew)⟩, fun s c hm hp hc htimes => ?_⟩
  by_cases hrep : Quantizable s.clkPeriod s.repRate
  · rw [timeChecks_of_quantizable hrep]
    by_cases hrep0 : cycles s.clkPeriod s.repRate = 0
    · rw [if_pos hrep0, exec_builder_error hm hp hc (buildProgram_rate_error (buildRepRate_zero_error hrep hrep0))]
      rfl
    · rw [if_neg hrep0]
      by_cases hdead : Quantizable s.clkPeriod s.deadTime
      · have hshort : flt s.deadTime 0x3E7AD7F29ABCAF48 = true := by
          by_contra hlong
          exact htimes ⟨hrep, hrep0, hdead, Bool.eq_false_iff.2 hlong⟩
        rw [timeChecks_of_quantizable hdead, exec_builder_error hm hp hc
          (buildProgram_dead_error hrep hrep0 (buildDeadTime_short_error hdead hshort))]
        rfl
      · rw [timeChecks_of_not_quantizable hdead, exec_builder_error hm hp hc
          (buildProgram_dead_error hrep hrep0 (buildDeadTime_time_error hdead)), raiseError_quantError]
  · rw [timeChecks_of_not_quantizable hrep,
      exec_builder_error hm hp hc (buildProgram_rate_error (buildRepRate_time_error hrep)), raiseError_quantError]

end Sys2Proof.Machine
end

section
/-!
PROOFS. Times that the builder orders, infinities included (R15, R239). It compares and subtracts a slot's ends before it
quantizes them, so what those comparisons say of the ends must hold of every time.
-/

namespace Sys2Proof.Machine

/-! ## Infinite times -/

section
variable {x y : F64}

theorem isInf_iff_pattern (x : F64) : isInf x = true ↔ x.toNat % 2 ^ 63 = infMag := by
  have hinf : infMag = 2047 * 2 ^ 52 := rfl
  simp only [isInf, expBits_eq, fracBits_eq, Bool.and_eq_true, beq_iff_eq]
  omega

/-- An infinity is the time of the largest magnitude. -/
theorem isInf_iff_magUnits (x : F64) : isInf x = true ↔ magUnits x = magOfPattern infMag := by
  rw [isInf_iff_pattern, magUnits_eq, magOfPattern_strictMono.injective.eq_iff]

theorem magUnits_le_infMag (h : isNaN x = false) : magUnits x ≤ magOfPattern infMag := by
  have hinf : infMag = 2047 * 2 ^ 52 := rfl
  simp only [isNaN, expBits_eq, fracBits_eq, Bool.and_eq_false_iff, beq_eq_false_iff_ne, bne_eq_false_iff_eq] at h
  rw [magUnits_eq, magOfPattern_strictMono.le_iff_le]
  omega

/-- A time no larger than a finite one is finite. -/
theorem isInf_false_of_magUnits_le (hy : IsFinite y) (h : magUnits x ≤ magUnits y) : isInf x = false := by
  obtain ⟨hnan, hfin⟩ := hy
  by_contra hinf
  have hx := (isInf_iff_magUnits x).1 (Bool.of_not_eq_false hinf)
  have hy : isInf y = true := (isInf_iff_magUnits y).2 (le_antisymm (magUnits_le_infMag hnan) (hx ▸ h))
  rw [hfin] at hy
  cases hy

theorem natAbs_units (x : F64) : (units x).natAbs = magUnits x := by
  rw [units_eq_withSign, natAbs_withSign]

theorem isNegative_of_units_neg (h : units x < 0) : isNegative x = true := by
  rw [units_eq_withSign] at h
  cases hn : isNegative x with
  | true => rfl
  | false => rw [hn, withSign_false] at h; omega

end

/-! ## The width of a window (R237) -/

section
variable {p start stop : F64}

/-- The width of a window that stops no later than it starts is not positive; with both ends the same infinity, it is no
number. -/
theorem fsub_nonpos (hstart : isNaN start = false) (hstop : isNaN stop = false) (hle : units stop ≤ units start)
    (hfin : units stop = units start → isInf start = false) :
    isNaN (fsub stop start) = false ∧ units (fsub stop start) ≤ 0 := by
  have hstartLe := magUnits_le_infMag hstart
  have hstopLe := magUnits_le_infMag hstop
  have hstartInf := isInf_iff_magUnits start
  have hstopInf := isInf_iff_magUnits stop
  have hneg := units_fneg start
  rw [← natAbs_units] at hstartLe hstopLe hstartInf hstopInf
  rw [fsub]
  cases hi : isInf stop <;> cases hj : isInf start <;>
    simp only [hi, hj, true_iff, Bool.false_eq_true, false_iff, imp_false, Bool.true_eq_false] at hstartInf hstopInf hfin
  case false.false =>
    obtain ⟨hnan, hpos⟩ := fadd_class hstop (isNaN_fneg start ▸ hstart) hi (isInf_fneg start ▸ hj)
    exact ⟨hnan, by omega⟩
  case false.true =>
    rw [fadd_finite_inf (isInf_fneg start ▸ hj) ⟨hstop, hi⟩, isNaN_fneg]
    exact ⟨hstart, by omega⟩
  case true.false =>
    rw [fadd_inf_finite hi ⟨isNaN_fneg start ▸ hstart, isInf_fneg start ▸ hj⟩]
    exact ⟨hstop, by omega⟩
  case true.true =>
    have hsign : isNegative stop = isNegative (fneg start) :=
      (isNegative_of_units_neg (by omega)).trans (isNegative_of_units_neg (by omega)).symm
    rw [fadd_inf_inf hi (isInf_fneg start ▸ hj), if_pos hsign]
    exact ⟨hstop, by omega⟩

theorem width_lt_period (hp : PeriodOk p) (hstart : isNaN start = false) (hstop : isNaN stop = false)
    (hle : units stop ≤ units start) (hfin : units stop = units start → isInf start = false) :
    flt (fsub stop start) p = true := by
  obtain ⟨hnan, hwidth⟩ := fsub_nonpos hstart hstop hle hfin
  obtain ⟨hperiod, -⟩ := hp
  rw [flt_iff, units_zero] at hperiod
  obtain ⟨-, hperiodNan, hpos⟩ := hperiod
  exact (flt_iff _ _).2 ⟨hnan, hperiodNan, by omega⟩

/-- R239: a window that is wide enough does not stop before it starts, so StartAfterStop is never raised. -/
theorem flt_stop_start_of_width (hp : PeriodOk p) (h : flt (fsub stop start) p = false) : flt stop start = false := by
  by_contra hlt
  obtain ⟨hstop, hstart, hunits⟩ := (flt_iff _ _).1 (Bool.of_not_eq_false hlt)
  rw [width_lt_period hp hstart hstop hunits.le fun he => absurd he hunits.ne] at h
  cases h

theorem start_lt_stop_of_width (hp : PeriodOk p) (hstart : IsFinite start) (hstop : isNaN stop = false)
    (h : flt (fsub stop start) p = false) : units start < units stop := by
  obtain ⟨hnan, hfin⟩ := hstart
  by_contra hle
  rw [width_lt_period hp hnan hstop (not_lt.1 hle) fun _ => hfin] at h
  cases h

end

/-! ## Times that are no later than a quantizable one -/

section
variable {p x y : F64}

theorem rne_packF64_le (neg : Bool) {n : Nat} (h : n < 2 ^ 63) :
    rne (packF64 neg n) ≤ roundTiesEven (magOfPattern n) unitsPerOne := by
  rw [rne_eq_withSign, isNegative_packF64 neg n h, magUnits_packF64 neg n h]
  cases neg
  · exact le_rfl
  · rw [withSign_true]; omega

/-- R130: a time between 0 and a quantizable one is quantizable, with no more cycles. -/
theorem Quantizable.of_le (hp : PeriodOk p) (hy : Quantizable p y) (hx0 : flt x 0 = false) (hx : isNaN x = false)
    (h : units x ≤ units y) : Quantizable p x ∧ cycles p x ≤ cycles p y := by
  have ⟨hy0, hnan, hquot, hmax⟩ := hy
  have hfin := hy.finite hp
  have hmag := magUnits_le_of_units_le hx0 hx hy0 hnan h
  have hxq := fdiv_finite hp hx (isInf_false_of_magUnits_le ⟨hnan, hfin⟩ hmag)
  have hle := quotMag_mono hp hmag
  have hlt : quotMag p y ≠ infMag := by
    rw [fdiv_finite hp hnan hfin, isInf_packF64 _ _ (quotMag_le p y)] at hquot
    exact of_decide_eq_false hquot
  have hyle := quotMag_le p y
  have hcycles : cycles p x ≤ cycles p y := by
    calc cycles p x = rne (packF64 (isNegative x) (quotMag p x)) := by rw [cycles, hxq]
      _ ≤ roundTiesEven (magOfPattern (quotMag p x)) unitsPerOne :=
        rne_packF64_le _ (lt_of_le_of_lt (quotMag_le p x) infMag_lt)
      _ ≤ roundTiesEven (magOfPattern (quotMag p y)) unitsPerOne :=
        Int.ofNat_le.2 (roundTiesEven_mono unitsPerOne_pos unitsPerOne_pos
          (Nat.mul_le_mul_right _ (magOfPattern_strictMono.monotone hle)))
      _ = cycles p y := (cycles_eq hp hy).symm
  refine ⟨⟨hx0, hx, ?_, hcycles.trans hmax⟩, hcycles⟩
  rw [hxq, isInf_packF64 _ _ (quotMag_le p x)]
  exact decide_eq_false (by omega)

/-- The quotient of a finite time that is not negative is not negative. -/
theorem fdiv_nonneg (hp : PeriodOk p) (hx0 : flt x 0 = false) (hx : IsFinite x) :
    isNaN (fdiv x p) = false ∧ 0 ≤ units (fdiv x p) := by
  obtain ⟨hnan, hfin⟩ := hx
  rw [fdiv_finite hp hnan hfin, units_packF64 _ _ (lt_of_le_of_lt (quotMag_le p x) infMag_lt)]
  refine ⟨isNaN_packF64 _ _ (quotMag_le p x), ?_⟩
  obtain hpos | hzero := nonneg_facts hx0 hnan
  · rw [hpos]; exact Int.natCast_nonneg _
  · rw [quotMag, hzero, Nat.zero_mul, roundUnits_zero, magOfPattern_zero]; simp

theorem periodOk_two : PeriodOk 0x4000000000000000 := by decide +kernel

/-- R237, R239: a start no earlier than the midpoint of the period is not negative. -/
theorem nonneg_of_not_before_midpoint (hp : PeriodOk p) (hy : Quantizable p y)
    (h : flt x (fdiv y 0x4000000000000000) = false) : flt x 0 = false := by
  have ⟨hy0, hynan, _⟩ := hy
  obtain ⟨hnan, hmid⟩ := fdiv_nonneg periodOk_two hy0 ⟨hynan, hy.finite hp⟩
  by_contra hneg
  obtain ⟨hx, -, hlt⟩ := (flt_iff _ _).1 (Bool.of_not_eq_false hneg)
  rw [units_zero] at hlt
  rw [flt_false_iff hx hnan] at h
  omega

/-- R236, R237, R239: a slot that is not disabled and does not cross the period's end stops within the period. -/
theorem stop_le_rep {rep : F64} {w : Window} (hrep : isNaN rep = false) (hstart : isNaN w.start = false)
    (hstop : isNaN w.stop = false) (hon : ¬ SlotOff rep w)
    (hlast : ¬ (flt rep w.stop = true ∧ fle w.start rep = true)) : units w.stop ≤ units rep := by
  by_contra hlt
  have hafter : flt rep w.stop = true := (flt_iff _ _).2 ⟨hrep, hstop, not_le.1 hlt⟩
  have hlate : units rep < units w.start := by
    by_contra hle
    exact hlast ⟨hafter, (fle_iff _ _).2 ⟨hstart, hrep, not_lt.1 hle⟩⟩
  exact hon (.inl ⟨(flt_iff _ _).2 ⟨hrep, hstart, hlate⟩, hafter⟩)

end

end Sys2Proof.Machine
end

section
/-!
PROOFS. The errors of the slots and of the charge window (R236 to R245). A slot's error is said once, as a function of its
window; the builder raises the one of the first slot that does not pass, and every program-building command reports it.
-/

namespace Sys2Proof.Machine

/-! ## An enabled slot (R237 to R239) -/

/-- R238, R239: the error of a slot whose seconds pass: one of its ends is not quantized, or both are the same cycle. -/
def slotCyclesError (p : F64) (w : Window) (chan : BitVec 4) : CmdError :=
  if isNaN w.start then { kind := .invalidNumber, chan := chan }
  else if ¬ Quantizable p w.start then { kind := .overflow, chan := chan, info := maxSeconds p }
  else if isNaN w.stop then { kind := .invalidNumber, chan := chan }
  else { kind := .zeroWidthWindow, chan := chan }

/-- R237 to R239: the error of an enabled slot that does not pass. -/
def slotError (p rep : F64) (w : Window) (chan : BitVec 4) : CmdError :=
  if flt (fsub w.stop w.start) p then { kind := .widthBelowClockPeriod, chan := chan }
  else if flt rep w.stop ∧ fle w.start rep then { kind := .lastValueExceedsRepRate, chan := chan }
  else if flt w.start (fdiv rep 0x4000000000000000) then { kind := .insufficientChargeTime, chan := chan }
  else slotCyclesError p w chan

/-- R280: how the error of an enabled slot is reported. -/
theorem raiseError_slotError (p rep : F64) (w : Window) (chan : BitVec 4) (s : State) :
    raiseError (slotError p rep w chan) s =
      if flt (fsub w.stop w.start) p then endedWithError 0x0B chan 0 s
      else if flt rep w.stop ∧ fle w.start rep then endedWithError 0x0C chan 0 s
      else if flt w.start (fdiv rep 0x4000000000000000) then endedWithError 0x0D chan 0 s
      else if isNaN w.start then endedWithError 0x14 chan 0 s
      else if ¬ Quantizable p w.start then endedWithError 0x02 chan (fmul 0x41EFFFFFFFE00000 p) s
      else if isNaN w.stop then endedWithError 0x14 chan 0 s
      else endedWithError 0x07 chan 0 s := by
  rw [slotError, slotCyclesError]
  simp only [apply_ite (raiseError · s)]
  rfl

/-- R237: the checks of a slot in seconds, of which the first that fails is raised. -/
theorem checkSlot_eq (ctx : BuildCtx) (i : Fin 10) (w : Window) (first : F64) :
    checkSlot ctx i w first =
      if flt (fsub w.stop w.start) ctx.p then .error { kind := .widthBelowClockPeriod, chan := BitVec.ofNat 4 i.val }
      else if flt ctx.rep w.stop ∧ fle w.start ctx.rep then
        .error { kind := .lastValueExceedsRepRate, chan := BitVec.ofNat 4 i.val }
      else if flt w.start (fdiv ctx.rep 0x4000000000000000) then
        .error { kind := .insufficientChargeTime, chan := BitVec.ofNat 4 i.val }
      else if flt w.stop w.start then .error { kind := .startAfterStop, chan := BitVec.ofNat 4 i.val }
      else .ok (if flt w.start first then w.start else first) := by
  simp only [checkSlot, raiseIf_bind, fgt, kTwo, Bool.and_eq_true]
  rfl

/-- R130: a time that is not negative fails as a NaN or as too great. -/
theorem quantize_error_of_not_neg {p x : F64} (chan : BitVec 4) (hx : flt x 0 = false) (h : ¬ Quantizable p x) :
    quantize p x chan = .error (if isNaN x then { kind := .invalidNumber, chan := chan }
      else { kind := .overflow, chan := chan, info := maxSeconds p }) := by
  rw [quantize_error chan h, if_neg (Bool.eq_false_iff.1 hx)]

theorem flt_of_isNaN {x : F64} (y : F64) (h : isNaN x = true) : flt x y = false := by
  rw [flt, h]
  rfl

section
variable {p rep : F64} {w : Window}

/-- R239: past the checks in seconds, with a start that is quantized, a stop that is a number ends within the period. -/
theorem stop_quantizable (hp : PeriodOk p) (hrep : Quantizable p rep) (hon : ¬ SlotOff rep w)
    (hwidth : flt (fsub w.stop w.start) p = false) (hlast : ¬ (flt rep w.stop = true ∧ fle w.start rep = true))
    (hstart : Quantizable p w.start) (hstop : isNaN w.stop = false) :
    Quantizable p w.stop ∧ cycles p w.start ≤ cycles p w.stop ∧ cycles p w.stop ≤ cycles p rep := by
  have ⟨hneg, hnan, _⟩ := hstart
  have hlt := start_lt_stop_of_width hp ⟨hnan, hstart.finite hp⟩ hstop hwidth
  have hstop0 : flt w.stop 0 = false := by
    rw [flt_false_iff hnan isNaN_zero] at hneg
    rw [flt_false_iff hstop isNaN_zero]
    omega
  have ⟨_, hrepNan, _⟩ := hrep
  obtain ⟨hq, hle⟩ := hrep.of_le hp hstop0 hstop (stop_le_rep hrepNan hnan hstop hon hlast)
  obtain ⟨-, hcycles⟩ := hq.of_le hp hneg hnan hlt.le
  exact ⟨hq, hcycles, hle⟩

/-- R238, R239: what the builder does with a slot past the checks in seconds, when the slot does not pass. -/
theorem slot_cycles_error {α : Type} (latch : Option Int) (chan : BitVec 4) (f : Int → Int → Except CmdError α)
    (hp : PeriodOk p) (hrep : Quantizable p rep) (hpos : 0 < cycles p rep) (hon : ¬ SlotOff rep w)
    (hbad : ¬ SlotAccepted p rep w)
    (hwidth : flt (fsub w.stop w.start) p = false) (hlast : ¬ (flt rep w.stop = true ∧ fle w.start rep = true))
    (hmid : flt w.start (fdiv rep 0x4000000000000000) = false) :
    (do
      let sc ← quantize p w.start chan
      let tc ← quantize p w.stop chan
      validateEnabled latch sc tc (cycles p rep) chan
      f sc tc) = .error (slotCyclesError p w chan) := by
  rw [slotCyclesError]
  by_cases hstart : Quantizable p w.start
  · have ⟨_, hnan, _⟩ := hstart
    rw [if_neg (Bool.eq_false_iff.1 hnan), if_neg (not_not.2 hstart), bind_of_ok (quantize_ok.2 ⟨hstart, rfl⟩)]
    by_cases hstop : isNaN w.stop = true
    · have hnq : ¬ Quantizable p w.stop := fun ⟨_, hnum, _⟩ => by rw [hnum] at hstop; cases hstop
      rw [bind_of_error (quantize_error_of_not_neg chan (flt_of_isNaN 0 hstop) hnq), if_pos hstop, if_pos hstop]
    · obtain ⟨hq, hle, hrepLe⟩ := stop_quantizable hp hrep hon hwidth hlast hstart (Bool.eq_false_iff.2 hstop)
      have hsame : cycles p w.stop = cycles p w.start := by
        by_contra hne
        exact hbad ⟨hwidth, hlast, hmid, hstart, hq, by omega, hrepLe⟩
      rw [bind_of_ok (quantize_ok.2 ⟨hq, rfl⟩),
        bind_of_error (validateEnabled_error hpos (cycles_nonneg hp hstart) hrepLe (by omega)), if_neg hstop,
        if_neg (by omega), if_neg (by omega)]
  · rw [bind_of_error (quantize_error_of_not_neg chan (nonneg_of_not_before_midpoint hp hrep hmid) hstart), if_pos hstart]

end

section
variable {ctx : BuildCtx} {w : Vector Window 10} {acc : SlotAcc} {i : Fin 10}

theorem buildEnabled_error {w : Window} (hp : PeriodOk ctx.p) (hrep : Quantizable ctx.p ctx.rep)
    (hc : ctx.repC = cycles ctx.p ctx.rep) (hpos : 0 < ctx.repC) (hon : ¬ SlotOff ctx.rep w)
    (hbad : ¬ SlotAccepted ctx.p ctx.rep w) :
    buildEnabled ctx i w acc = .error (slotError ctx.p ctx.rep w (BitVec.ofNat 4 i.val)) := by
  rw [buildEnabled, slotError, checkSlot_eq]
  by_cases hwidth : flt (fsub w.stop w.start) ctx.p = true
  · rw [if_pos hwidth, if_pos hwidth]; rfl
  rw [if_neg hwidth, if_neg hwidth]
  by_cases hlast : flt ctx.rep w.stop = true ∧ fle w.start ctx.rep = true
  · rw [if_pos hlast, if_pos hlast]; rfl
  rw [if_neg hlast, if_neg hlast]
  by_cases hmid : flt w.start (fdiv ctx.rep 0x4000000000000000) = true
  · rw [if_pos hmid, if_pos hmid]; rfl
  rw [if_neg hmid, if_neg hmid]
  rw [Bool.not_eq_true] at hwidth hmid
  rw [if_neg (Bool.eq_false_iff.1 (flt_stop_start_of_width hp hwidth)), hc]
  exact slot_cycles_error _ _ _ hp hrep (hc ▸ hpos) hon hbad hwidth hlast hmid

/-- R241: the error of a disabled slot whose sentinel does not fit 32 bits. -/
def sentinelError (repC : Int) (chan : BitVec 4) : CmdError :=
  { kind := .overflow, chan := chan, info := (u32 repC).zeroExtend 64 }

theorem buildSlot_sentinel_error (hoff : SlotOff ctx.rep w[i]) (h : 4294967295 < ctx.repC + 2) :
    buildSlot ctx w acc i = .error (sentinelError ctx.repC (BitVec.ofNat 4 i.val)) := by
  have hmax : maxCycles < ctx.repC + sentinelOffset := h
  rw [buildSlot, if_pos ((slotDisabled_iff _ _).2 hoff), buildDisabled, raiseIf_bind, decide_eq_true hmax]
  rfl

theorem buildSlot_enabled_error (hp : PeriodOk ctx.p) (hrep : Quantizable ctx.p ctx.rep)
    (hc : ctx.repC = cycles ctx.p ctx.rep) (hpos : 0 < ctx.repC) (hon : ¬ SlotOff ctx.rep w[i])
    (hbad : ¬ SlotAccepted ctx.p ctx.rep w[i]) :
    buildSlot ctx w acc i = .error (slotError ctx.p ctx.rep w[i] (BitVec.ofNat 4 i.val)) := by
  rw [buildSlot, if_neg (mt (slotDisabled_iff _ _).1 hon), buildEnabled_error hp hrep hc hpos hon hbad]

end

/-! ## The builder past its times (R236 to R245) -/

section
variable {p rep dead : F64} {latch : Option Int} {w : Vector Window 10} {e : CmdError}

/-- What the builder still does once the two times have passed. -/
theorem buildProgram_of_timesPass (h : TimesPass p rep dead) :
    buildProgram p latch w 10 dead rep =
      (buildSlots ⟨p, rep, cycles p rep, latch⟩ w slots (slotAccStart rep) >>=
        buildCharge ⟨p, rep, cycles p rep, latch⟩ (cycles p dead)) := by
  obtain ⟨hrep, hrep0, hdead, hmin⟩ := h
  rw [buildProgram, bind_of_ok (checkCount_ok.2 rfl), bind_of_ok (buildRepRate_ok.2 ⟨hrep, hrep0, rfl⟩),
    bind_of_ok (buildDeadTime_ok.2 ⟨hdead, hmin, rfl⟩)]

theorem TimesPass.cycles_pos (hp : PeriodOk p) (h : TimesPass p rep dead) : 0 < cycles p rep := by
  obtain ⟨hrep, hrep0, -⟩ := h
  exact lt_of_le_of_ne (cycles_nonneg hp hrep) (Ne.symm hrep0)

/-- R285: the builder ends with the error of the first slot that does not pass. -/
theorem buildProgram_slot_error (hp : PeriodOk p) (h : TimesPass p rep dead) (i : Fin 10)
    (hbefore : ∀ j : Fin 10, j < i → SlotOk p rep w[j])
    (hi : ∀ acc, buildSlot ⟨p, rep, cycles p rep, latch⟩ w acc i = .error e) :
    buildProgram p latch w 10 dead rep = .error e := by
  have hslots := buildSlots_error (ctx := ⟨p, rep, cycles p rep, latch⟩) hp rfl (h.cycles_pos hp) i hbefore e hi
  rw [buildProgram_of_timesPass h, bind_of_error (hslots _)]

/-- R244, R245: the error of a charge window that is empty or reversed; its stop cannot exceed the period. -/
def chargeError (repC deadC firstC : Int) : CmdError :=
  if repC < deadC then { kind := .startExceedsPeriod, chan := chanCharge }
  else if firstC - deadC < deadC then { kind := .stopBeforeStart, chan := chanCharge }
  else { kind := .zeroWidthWindow, chan := chanCharge }

theorem buildCharge_error {ctx : BuildCtx} {deadC : Int} {acc : SlotAcc} (hpos : 0 < ctx.repC) (hdead : 0 ≤ deadC)
    (hfirst : Quantizable ctx.p acc.first) (hle : cycles ctx.p acc.first ≤ ctx.repC)
    (h : cycles ctx.p acc.first ≤ 2 * deadC) :
    buildCharge ctx deadC acc = .error (chargeError ctx.repC deadC (cycles ctx.p acc.first)) := by
  rw [buildCharge, bind_of_ok (quantize_ok.2 ⟨hfirst, rfl⟩)]
  exact bind_of_error (validateEnabled_error hpos hdead (by omega) (by omega)) _

theorem buildProgram_charge_error (hp : PeriodOk p) (h : TimesPass p rep dead) (hslot : ∀ i : Fin 10, SlotOk p rep w[i])
    (hcharge : cycles p (earliestStart rep w) ≤ 2 * cycles p dead) :
    buildProgram p latch w 10 dead rep =
      .error (chargeError (cycles p rep) (cycles p dead) (cycles p (earliestStart rep w))) := by
  have ⟨hrep, _, hdead, _⟩ := h
  obtain ⟨hfirst, hle⟩ := earliestStart_quantizable hrep fun i => (hslot i).2
  have hslots := (buildSlots_ok (ctx := ⟨p, rep, cycles p rep, latch⟩) hp rfl (h.cycles_pos hp) slots _ _).2
    ⟨fun i _ => hslot i, (slots_result _ w).symm⟩
  rw [buildProgram_of_timesPass h, bind_of_ok hslots]
  exact buildCharge_error (h.cycles_pos hp) (cycles_nonneg hp hdead) hfirst hle hcharge

end

/-- Settles O40: the slots before slot `i` pass, so the error is slot `i`'s own; when all pass, it is the charge window's. -/
theorem buildReportsFirstBadSlot : Obligations.BuildReportsFirstBadSlot := by
  intro s c w hm hp hc hw htimes
  obtain rfl := eq_tenOf w _ hw
  have hpos := htimes.cycles_pos hp
  have ⟨hrep, _, hdead, _⟩ := htimes
  have ⟨_, _, _, hmax⟩ := hrep
  refine ⟨fun i hbefore => ⟨fun hoff hsent => ?sentinel, fun hon hbad => ?enabled⟩, fun hslot => ?charge⟩
  case sentinel =>
    have hreport := exec_builder_error hm hp hc
      (buildProgram_slot_error hp htimes i hbefore fun _ => buildSlot_sentinel_error hoff hsent)
    exact ⟨_, toNat_zeroExtend_u32 hpos.le hmax, hreport⟩
  case enabled =>
    rw [← raiseError_slotError]
    exact exec_builder_error hm hp hc
      (buildProgram_slot_error hp htimes i hbefore fun _ => buildSlot_enabled_error hp hrep rfl hpos hon hbad)
  case charge =>
    have hreport := fun h => exec_builder_error hm hp hc (buildProgram_charge_error hp htimes hslot h)
    obtain ⟨-, hle⟩ := earliestStart_quantizable hrep fun i => (hslot i).2
    refine ⟨fun hlong => ?_, fun hshort hlt => ?_, fun hshort heq => ?_⟩
    · rw [hreport (by omega), chargeError, if_pos hlong]
      rfl
    · rw [hreport hlt.le, chargeError, if_neg hshort.not_gt, if_pos (by omega)]
      rfl
    · rw [hreport heq.le, chargeError, if_neg hshort.not_gt, if_neg (by omega)]
      rfl

end Sys2Proof.Machine
end

section
/-!
PROOFS. A command's acceptance and its error (R281, R290): what a write to CMD does in each phase, and that a COMPUTE step
which sets ERR has raised an error and done nothing else.
-/

namespace Sys2Proof.Machine

/-! ## Acceptance (R290) -/

/-- R290: while a command runs, a CMD write is ignored. -/
theorem step_write_cmd_busy {s : State} {w : Word} {rest : List Event} (hbusy : s.phase ≠ .idle)
    (hinbox : s.inbox = .write 4 0x000 w :: rest) :
    step s = .next { ignoreWrite { s with inbox := rest } with busData := 0 } := by
  rw [step_write (w := .word .cmd) hinbox, hostStore_busy (s := { s with inbox := rest }) w hbusy (by decide)]

/-- Settles O5: the store to CMD is `acceptCommand` in IDLE and an ignored write in the other phases. -/
theorem commandAcceptance : Obligations.CommandAcceptance := fun _ _ _ hinbox =>
  ⟨fun hidle => step_write_cmd hidle hinbox, fun hbusy => step_write_cmd_busy hbusy hinbox⟩

/-! ## A command that ends with an error (R281) -/

theorem one_le_errorCode (k : ErrorKind) : 1 ≤ (errorCode k).toNat := by cases k <;> decide

theorem PlainEnd.error_or_err_eq {i : Instr} {s t : State} (h : PlainEnd i s t) :
    (∃ e, t = raiseError e s) ∨ t.regs.err = s.regs.err := by
  cases h with
  | error e => exact .inl ⟨e, rfl⟩
  | value v => exact .inr rfl
  | classified hi c v => exact .inr rfl

theorem BuildingEnd.error_or_err_eq {i : Instr} {s t : State} (h : BuildingEnd i s t) :
    (∃ e, t = raiseError e s) ∨ t.regs.err = s.regs.err := by
  cases h with
  | error e => exact .inl ⟨e, rfl⟩
  | program w g hg hw => exact .inr rfl

/-- R281, R291: a COMPUTE step raises an error, or leaves ERR as acceptance has set it. -/
theorem exec_error_or_err_eq {i : Instr} {s t : State} (h : exec i s = .next t) :
    (∃ e, t = raiseError e s) ∨ t.regs.err = s.regs.err := by
  obtain hi | hi := mem_plain_or_building i
  · exact (exec_plain_cases hi h).error_or_err_eq
  · exact (exec_building_cases hi h).error_or_err_eq

/-- Settles O47: a step that turns ERR from 0 to 1 is not one that leaves ERR alone, so it is a raise, whose code is that of
its kind. -/
theorem errorsChangeOnlyTheReport : Obligations.ErrorsChangeOnlyTheReport := by
  intro s t i h hclear hset
  obtain ⟨e, rfl⟩ | hsame := exec_error_or_err_eq h
  · exact ⟨rfl, one_le_errorCode e.kind, errorCode_le e.kind⟩
  · rw [hsame, hclear] at hset
    contradiction

end Sys2Proof.Machine
end

section
/-!
PROOFS. Reset (R321 to R324): from any state the window shows the power-on values, and an emission that a reset cuts short
leaves the writes that the downstream has accepted by then.
-/

namespace Sys2Proof.Machine

/-! ## Reset from any state (R321) -/

theorem step_reset {s : State} {rest : List Event} (h : s.inbox = .reset :: rest) :
    step s = .next (applyReset { s with inbox := rest }) := step_cons h

/-- No word of the window shows a field that reset keeps. -/
theorem windowValue_applyReset (s : State) (w : WindowWord) : windowValue (applyReset s) w = windowValue State.reset w := by
  cases w with
  | word r => cases r <;> rfl
  | low r => cases r <;> rfl
  | high r => cases r <;> rfl

/-- Settles O19: after a reset every word is the one that it is at power-on. -/
theorem resetFromAnyState : Obligations.ResetFromAnyState := by
  intro s rest hinbox
  refine ⟨applyReset { s with inbox := rest }, step_reset hinbox, fun w => ?_, rfl, rfl, rfl, rfl, rfl⟩
  rw [windowValue_applyReset]
  exact resetWindowValues w

/-! ## A reset during an emission (R323) -/

/-- `m` engine steps of an emission and then a reset, when the offers that the downstream accepts are not the whole sequence:
the reset finds a trace that ends with the writes issued before and those accepted since. By the number of engine steps. -/
theorem emission_reset (before : List (Word × Word)) (rest : List Event) (m : Nat) : ∀ s : State, s.phase = .emit →
    s.inbox = List.replicate m .engine ++ .reset :: rest → s.k + acceptedOffers s.downstream m < 42 →
    s.trace = before ++ sequencePrefix s.regs.prog s.k →
    ∃ u, Host.Core.run Sys2Proof.core (m + 1) s = .next (applyReset u) ∧
      u.trace = before ++ sequencePrefix s.regs.prog (s.k + acceptedOffers s.downstream m) := by
  induction m with
  | zero =>
    intro s _ hinbox _ htrace
    exact ⟨_, run_next Sys2Proof.core 0 (step_reset hinbox), by rwa [acceptedOffers_zero]⟩
  | succ m ih =>
    intro s hphase hinbox hcount htrace
    let u : State := { s with inbox := List.replicate m .engine ++ .reset :: rest }
    have hstep : step s = .next (emitStep u) := (step_engine hinbox).trans (engineStep_emit hphase)
    rw [run_next Sys2Proof.core (m + 1) hstep]
    cases haccept : downstreamAccepts s.downstream with
    | false =>
      rw [acceptedOffers_held m haccept] at hcount ⊢
      have hk : s.k < 42 := by omega
      rw [emitStep_held (s := u) hk haccept]
      exact ih _ hphase rfl hcount htrace
    | true =>
      rw [acceptedOffers_accepted m haccept, ← Nat.add_assoc, Nat.add_right_comm] at hcount ⊢
      have hk : s.k < 41 := by omega
      have hissued : s.trace ++ [sequenceEntry s.regs.prog s.k] = before ++ sequencePrefix s.regs.prog (s.k + 1) := by
        rw [htrace, sequencePrefix_succ, List.append_assoc]
      rw [emitStep_issued (s := u) hk haccept]
      exact ih _ hphase rfl hcount hissued

/-- Settles O52: the reset keeps the trace of the writes accepted since write 0, and gives the latch and the sequencer their
reset values. -/
theorem resetCutsEmissionShort : Obligations.ResetCutsEmissionShort := by
  intro s m hphase hk haccepted hinbox
  have hstart : s.trace = s.trace ++ sequencePrefix s.regs.prog s.k := by
    rw [hk, sequencePrefix_zero, List.append_nil]
  obtain ⟨u, hrun, htrace⟩ := emission_reset s.trace [] m s hphase hinbox (by omega) hstart
  rw [hk, Nat.zero_add] at htrace
  exact ⟨applyReset u, hrun, htrace, rfl, rfl, rfl⟩

end Sys2Proof.Machine
end

section
/-!
PROOFS. What follows from the quantizer (R136 to R138). A cycle count is two roundings away from the exact quotient, and its
product with the period is a third; each of them is off by little enough that the three together stay within a period.
-/

namespace Sys2Proof.Machine

/-! ## Order (R137) -/

/-- Settles O26: a time that comes no later than a quantizable one has no more cycles. -/
theorem quantizeMonotone : Obligations.QuantizeMonotone := by
  intro p x y cx cy hp _ hle hx hy
  obtain ⟨⟨hx0, hnan, -⟩, rfl⟩ := quantize_ok.1 hx
  obtain ⟨hyq, rfl⟩ := quantize_ok.1 hy
  obtain ⟨-, -, hunits⟩ := (fle_iff x y).1 hle
  obtain ⟨-, hcycles⟩ := hyq.of_le hp hx0 hnan hunits
  exact hcycles

/-! ## The zeros (R138) -/

theorem rne_zero (neg : Bool) : rne (packF64 neg 0) = 0 := by
  rw [rne_eq_withSign, magUnits_packF64 _ _ (Nat.two_pow_pos 63), magOfPattern_zero, roundTiesEven_zero, withSign_zero]

/-- R130: a time of magnitude 0 is quantizable, of either sign, with no cycles. -/
theorem quantizable_of_magUnits_zero {p x : F64} (hp : PeriodOk p) (hx : IsFinite x) (h : magUnits x = 0) :
    Quantizable p x ∧ cycles p x = 0 := by
  obtain ⟨hnan, hfin⟩ := hx
  have hquot : fdiv x p = packF64 (isNegative x) 0 := by
    rw [fdiv_finite hp hnan hfin, quotMag, h, Nat.zero_mul, roundUnits_zero]
  have hcycles : rne (fdiv x p) = 0 := by rw [hquot, rne_zero]
  refine ⟨⟨?_, hnan, ?_, by rw [hcycles]; decide⟩, hcycles⟩
  · rw [flt_false_iff hnan isNaN_zero, units_zero, (units_eq_zero_iff x).2 h]
  · rw [hquot, isInf_packF64 _ _ (Nat.zero_le _)]
    decide

/-- Settles O27: both zeros have the magnitude 0. -/
theorem quantizeZero : Obligations.QuantizeZero := by
  intro p chan hp
  have hzero (x : F64) (hx : IsFinite x) (h : magUnits x = 0) : quantize p x chan = .ok 0 := by
    obtain ⟨hq, hcycles⟩ := quantizable_of_magUnits_zero hp hx h
    exact quantize_ok.2 ⟨hq, hcycles.symm⟩
  exact ⟨hzero _ (by decide) (by decide), hzero _ (by decide) (by decide)⟩

/-! ## There and back (R136) -/

/-- The relative error of a rounding to 53 significant bits, and half a unit where the quotient has fewer. -/
theorem roundUnits_error {num den : Nat} (hd : 0 < den) (hf : roundUnits num den ≠ infMag) :
    2 ^ 53 * ((magOfPattern (roundUnits num den) * den : Nat) - (num : Nat) : Int).natAbs ≤ max num (2 ^ 52 * den) := by
  obtain ⟨-, hbinade⟩ := roundStep_bounds num den
  rw [magOfPattern_roundUnits num den (lt_of_le_of_ne (roundUnits_le _ _) hf), roundSig]
  generalize roundStep num den = k at hbinade ⊢
  have hnear := roundTiesEven_near num (den * 2 ^ k) (by positivity)
  rw [Nat.mul_assoc, Nat.mul_comm (2 ^ k) den]
  obtain rfl | hlarge := hbinade
  · rw [pow_zero, Nat.mul_one] at hnear ⊢
    omega
  · have hnum : 2 ^ 52 * (den * 2 ^ k) ≤ num := by
      calc 2 ^ 52 * (den * 2 ^ k) = 2 ^ (k + 52) * den := by ring
        _ ≤ num := (Nat.le_div_iff_mul_le hd).1 hlarge
    omega

/-- A whole number of units is off by its relative error alone: less than half a unit is none. -/
theorem roundUnits_whole_error {n den : Nat} (hd : 0 < den) (hf : roundUnits (n * den) den ≠ infMag) :
    2 ^ 53 * ((magOfPattern (roundUnits (n * den) den) : Nat) - (n : Nat) : Int).natAbs ≤ n := by
  have herror := roundUnits_error hd hf
  rw [Nat.cast_mul, Nat.cast_mul, ← sub_mul, Int.natAbs_mul, Int.natAbs_natCast, ← Nat.mul_assoc,
    max_mul_mul_right] at herror
  have := Nat.le_of_mul_le_mul_right herror hd
  omega

/-- The count `c` nearest to `q / u`, where `q / u` is the rounding of the quotient `x / p`: with `c` below 2^32 it is within
5/8 of `x / p`. The bounds are compared over the common denominator `u * p`. -/
theorem count_error {c p q u x : Nat} (hu : 8 ≤ u) (hc : c ≤ 4294967295)
    (hround : 2 * q ≤ 2 * (c * u) + u ∧ 2 * (c * u) ≤ 2 * q + u)
    (hquot : 2 ^ 53 * ((q * p : Nat) - (x * u : Nat) : Int).natAbs ≤ max (x * u) (2 ^ 52 * p)) :
    8 * ((c * p : Nat) - (x : Nat) : Int).natAbs ≤ 5 * p := by
  obtain ⟨hover, hunder⟩ := hround
  have hpos : 0 < u := by omega
  have hlow : 2 * (q * p) ≤ 2 * (c * p * u) + p * u := by linarith only [Nat.mul_le_mul_right p hover]
  have hhigh : 2 * (c * p * u) ≤ 2 * (q * p) + p * u := by linarith only [Nat.mul_le_mul_right p hunder]
  have hmax : c * p * u ≤ 4294967295 * (p * u) := by
    rw [Nat.mul_assoc]
    exact Nat.mul_le_mul_right _ hc
  have hunit : 8 * p ≤ p * u := by
    rw [Nat.mul_comm]
    exact Nat.mul_le_mul_left p hu
  have habove : 8 * (c * p) ≤ 8 * x + 5 * p := by
    apply Nat.le_of_mul_le_mul_right _ hpos
    rw [Nat.add_mul, Nat.mul_assoc, Nat.mul_assoc 8, Nat.mul_assoc 5]
    omega
  have hbelow : 8 * x ≤ 8 * (c * p) + 5 * p := by
    apply Nat.le_of_mul_le_mul_right _ hpos
    rw [Nat.add_mul, Nat.mul_assoc, Nat.mul_assoc 8, Nat.mul_assoc 5]
    omega
  omega

section
variable {p x : F64} {c : Nat}

theorem Quantizable.quotMag_ne (hp : PeriodOk p) (h : Quantizable p x) : quotMag p x ≠ infMag := by
  have ⟨_, hnan, hquot, _⟩ := h
  rw [fdiv_finite hp hnan (h.finite hp), isInf_packF64 _ _ (quotMag_le p x)] at hquot
  exact of_decide_eq_false hquot

theorem Quantizable.cycles_le (h : Quantizable p x) : cycles p x ≤ 4294967295 := by
  obtain ⟨-, -, -, hmax⟩ := h
  exact hmax

theorem Quantizable.units_eq (h : Quantizable p x) : units x = magUnits x := by
  obtain ⟨hneg, hnan, -⟩ := h
  obtain hpos | hzero := nonneg_facts hneg hnan
  · rw [units_eq_withSign, hpos, withSign_false]
  · rw [units_eq_withSign, hzero, withSign_zero]; rfl

theorem eight_le_unitsPerOne : 8 ≤ unitsPerOne := by decide +kernel

/-- R130: the count is the quotient's nearest integer but for the rounding of the quotient. -/
theorem Quantizable.cycles_error (hp : PeriodOk p) (h : Quantizable p x) (hc : cycles p x = c) :
    8 * ((c * magUnits p : Nat) - (magUnits x : Nat) : Int).natAbs ≤ 5 * magUnits p := by
  have hmax := h.cycles_le
  obtain ⟨-, -, hpos⟩ := hp.facts
  have hround := roundTiesEven_near (magOfPattern (quotMag p x)) unitsPerOne unitsPerOne_pos
  have hcount := cycles_eq hp h
  rw [hc, Nat.cast_inj] at hcount
  rw [← hcount] at hround
  exact count_error eight_le_unitsPerOne (by omega) hround (roundUnits_error hpos (h.quotMag_ne hp))

/-- R132: the product that CYC2SEC gives for `c` cycles of a valid period. -/
theorem fmul_i2f (hp : PeriodOk p) (hc : c ≤ 2 ^ 53) :
    fmul (i2f c) p = packF64 false (roundUnits (c * magUnits p * unitsPerOne) unitsPerOne) := by
  obtain ⟨hnan, hpos, -⟩ := hp.facts
  obtain ⟨-, hfin⟩ := hp
  obtain ⟨hunits, hfinite⟩ := i2f_exact (n := c) (by simpa using hc)
  have hsign : isNegative (i2f c) = false := by
    rw [i2f, isNegative_packF64_roundUnits]
    exact decide_eq_false (by omega)
  have hmag : magUnits (i2f c) = c * unitsPerOne := by
    rw [← natAbs_units, hunits, ← withSign_unitsPerOne, Int.natAbs_mul, Int.natAbs_natCast, natAbs_withSign]
  rw [fmul_of_finite hfinite ⟨hnan, hfin⟩, hsign, hpos, hmag, Nat.mul_right_comm]
  rfl

end

/-- Settles O28: the count is within 5/8 of a period of the time, and the product of a count below 2^32 is off by far less
than the rest. -/
theorem quantizeRoundTrip : Obligations.QuantizeRoundTrip := by
  intro p x c hp hx hfin
  obtain ⟨hq, hc⟩ := quantize_ok.1 hx
  have hmax := hq.cycles_le
  obtain ⟨n, rfl⟩ := Int.eq_ofNat_of_zero_le (hc ▸ cycles_nonneg hp hq)
  have hn : n ≤ 4294967295 := by omega
  rw [fmul_i2f hp (by omega)] at hfin ⊢
  rw [isInf_packF64 _ _ (roundUnits_le _ _)] at hfin
  have hcount := hq.cycles_error hp hc.symm
  have hproduct := roundUnits_whole_error unitsPerOne_pos (of_decide_eq_false hfin)
  have hbound := Nat.mul_le_mul_right (magUnits p) hn
  rw [units_packF64 _ _ (roundUnits_lt_two_pow _ _), if_neg Bool.false_ne_true, hq.units_eq]
  omega

end Sys2Proof.Machine
end

section
/-!
PROOFS. The charge window (R244, R246). It is measured from the earliest start, which is the period's end when no slot is
enabled and an enabled slot's start, before that end, when one is.
-/

namespace Sys2Proof.Machine

section
variable {p rep dead : F64} {w : Vector Window 10}

/-- R237: with no slot enabled the earliest start stays the repetition rate. -/
theorem earliestStart_of_all_off (hoff : ∀ i : Fin 10, SlotOff rep w[i]) (hrep : isNaN rep = false) :
    earliestStart rep w = rep := by
  obtain hfirst | ⟨i, hon, -⟩ := earliestStart_cases hrep fun i hon => absurd (hoff i) hon
  · exact hfirst
  · exact absurd (hoff i) hon

/-- R237: with a slot enabled the earliest start is an enabled slot's, and no enabled slot starts before it. -/
theorem earliestStart_of_enabled (hp : PeriodOk p) (hrep : Quantizable p rep)
    (hslot : ∀ i : Fin 10, ¬ SlotOff rep w[i] → SlotAccepted p rep w[i]) {j : Fin 10} (hj : ¬ SlotOff rep w[j]) :
    (∃ i : Fin 10, ¬ SlotOff rep w[i] ∧ earliestStart rep w = w[i].start) ∧
      ∀ i : Fin 10, ¬ SlotOff rep w[i] → units (earliestStart rep w) ≤ units w[i].start := by
  have ⟨_, hnan, _⟩ := hrep
  have hstart (i : Fin 10) (hon : ¬ SlotOff rep w[i]) : isNaN w[i].start = false := by
    obtain ⟨-, -, -, ⟨-, hnan, -⟩, -⟩ := hslot i hon
    exact hnan
  obtain ⟨hfirst, -, -, hleast⟩ := earliest_fold rep w slots rep hnan fun i _ => hstart i
  have hleast (i : Fin 10) (hon : ¬ SlotOff rep w[i]) : units (earliestStart rep w) ≤ units w[i].start :=
    hleast i (mem_slots i) hon
  refine ⟨?_, hleast⟩
  obtain hrepStart | ⟨i, -, hon, hi⟩ := hfirst
  · obtain ⟨hlt, hle⟩ := (hslot j hj).start_lt hp hrep hj
    have hbefore := hleast j hj
    rw [earliestStart, hrepStart] at hbefore
    omega
  · exact ⟨i, hon, hi⟩

/-- R238: the pulse start that a program holds for an enabled slot. -/
theorem programOf_ps_of_enabled {i : Fin 10} (hon : ¬ SlotOff rep w[i]) :
    (programOf p rep dead w).ps[i] = cycles p w[i].start := by
  rw [programOf, tenOf_getElem_fin, if_neg hon]

end

/-- Settles O42: the program is that of the windows, whose earliest start is the least of the enabled slots' starts. -/
theorem chargeWindowValues : Obligations.ChargeWindowValues := by
  intro p rep dead latch w g hp hg
  obtain ⟨⟨hrep, -, hdead, -⟩, hslot, hcharge, hct, rfl⟩ := buildProgram_ok hp hg
  have hon := fun i => (hslot i).2
  obtain ⟨hfirst, -⟩ := earliestStart_quantizable hrep hon
  refine ⟨cycles_nonneg hp hdead, hcharge, hct, cycles p (earliestStart rep w), quantize_ok.2 ⟨hfirst, rfl⟩, rfl, rfl,
    fun hoff => ?allOff, fun ⟨j, hj⟩ => ?enabled⟩
  case allOff =>
    have ⟨_, hnan, _⟩ := hrep
    rw [earliestStart_of_all_off hoff hnan]
    rfl
  case enabled =>
    obtain ⟨⟨i, hi, hmin⟩, hleast⟩ := earliestStart_of_enabled hp hrep hon hj
    refine ⟨⟨i, hi, by rw [programOf_ps_of_enabled hi, hmin]⟩, fun k hk => ?_⟩
    obtain ⟨-, -, -, hstart, -⟩ := hon k hk
    obtain ⟨hfirst0, hfirstNan, -⟩ := hfirst
    obtain ⟨-, hle⟩ := hstart.of_le hp hfirst0 hfirstNan (hleast k hk)
    rwa [programOf_ps_of_enabled hk]

end Sys2Proof.Machine
end

section
/-!
PROOFS. Determinism of the builder (R254). `Validate` is given the latched rate but has a positive one to use, so the latch
has no part in a program; and what the modes synthesize, they read from the operand registers alone.
-/

namespace Sys2Proof.Machine

/-- Two rules that go on alike from whatever their first step answers. -/
theorem bind_congr_of_ok {α β : Type} {r : Except CmdError α} {f g : α → Except CmdError β}
    (h : ∀ a, r = .ok a → f a = g a) : (r >>= f) = (r >>= g) := by
  cases r with
  | ok a => exact h a rfl
  | error e => rfl

/-! ## The latch has no part in a program (R170, R254) -/

section
variable {ctx : BuildCtx}

theorem validateEnabled_latch {latch : Option Int} (latch' : Option Int) {start stop rep : Int} {chan : BitVec 4}
    (h : 0 < rep) : validateEnabled latch' start stop rep chan = validateEnabled latch start stop rep chan := by
  rw [validateEnabled, validateEnabled, validateWindow_pos h, validateWindow_pos h]

theorem buildSlot_latch (latch' : Option Int) (hpos : 0 < ctx.repC) (w : Vector Window 10) (acc : SlotAcc) (i : Fin 10) :
    buildSlot { ctx with latch := latch' } w acc i = buildSlot ctx w acc i := by
  have hvalidate := fun start stop chan =>
    validateEnabled_latch (latch := ctx.latch) latch' (start := start) (stop := stop) (chan := chan) hpos
  simp only [buildSlot, buildEnabled, hvalidate]
  rfl

theorem buildSlots_latch (latch' : Option Int) (hpos : 0 < ctx.repC) (w : Vector Window 10) (l : List (Fin 10))
    (acc : SlotAcc) : buildSlots { ctx with latch := latch' } w l acc = buildSlots ctx w l acc := by
  induction l generalizing acc with
  | nil => rfl
  | cons i rest ih =>
    rw [buildSlots, buildSlots, buildSlot_latch latch' hpos]
    cases buildSlot ctx w acc i with
    | ok acc' => exact ih acc'
    | error e => rfl

theorem buildCharge_latch (latch' : Option Int) (hpos : 0 < ctx.repC) (deadC : Int) (acc : SlotAcc) :
    buildCharge { ctx with latch := latch' } deadC acc = buildCharge ctx deadC acc := by
  simp only [buildCharge, validateEnabled_latch (latch := ctx.latch) latch' hpos]

/-- R254: past the repetition rate, which is positive, the builder has no use for the latch. -/
theorem buildProgram_latch {p : F64} (latch latch' : Option Int) (w : Vector Window 10) (count : Nat) (dead rep : F64)
    (hp : PeriodOk p) : buildProgram p latch' w count dead rep = buildProgram p latch w count dead rep := by
  refine bind_congr_of_ok fun _ _ => bind_congr_of_ok fun repC hrate => bind_congr_of_ok fun deadC _ => ?_
  obtain ⟨hrep, hrep0, rfl⟩ := buildRepRate_ok.1 hrate
  have hpos : 0 < cycles p rep := lt_of_le_of_ne (cycles_nonneg hp hrep) (Ne.symm hrep0)
  exact congrArg₂ (· >>= ·) (buildSlots_latch (ctx := ⟨p, rep, cycles p rep, latch⟩) latch' hpos w slots _)
    (funext (buildCharge_latch (ctx := ⟨p, rep, cycles p rep, latch⟩) latch' hpos deadC))

end

/-! ## A program-building command as the builder's run (R191, R253) -/

/-- The windows that a program-building command gives the builder, or the error of the checks before it (R191, R253). -/
def synthesize (i : Instr) (s : State) : Except CmdError (Vector Window 10) :=
  match i with
  | .sync => syncSynth s s.repRate
  | .delta => deltaSynth s s.repRate
  | .one => oneSynth s s.repRate
  | .seq => seqSynth s s.repRate
  | .build | .quant | .cyc2sec | .validate | .regidx | .regaddr => .ok (bufferWindows s)

/-- The window count that a program-building command gives the builder (R191, R253). -/
def givenCount (i : Instr) (s : State) : Nat := if i = .build then winCountField s.param else numChannels

/-- What a program-building command makes of the operands, before it is committed: its windows and their program, with no
rate latched. -/
def builderRun (i : Instr) (s : State) : Except CmdError (Vector Window 10 × Program) := do
  checkPeriod s.clkPeriod
  let w ← synthesize i s
  let g ← buildProgram s.clkPeriod none w (givenCount i s) s.deadTime s.repRate
  pure (w, g)

/-- R191, R253: BUILD keeps the windows it found, so every program-building command writes its windows and commits their
program. -/
theorem commandRule_building {i : Instr} (s : State) (hi : i ∈ buildingCommands) :
    commandRule i s = (do
      checkPeriod s.clkPeriod
      let w ← synthesize i s
      let g ← buildProgram s.clkPeriod (latchedRate s) w (givenCount i s) s.deadTime s.repRate
      pure (commitProgram g (writeWindows w s))) := by
  cases i with
  | sync | delta | one | seq => rfl
  | build =>
    simp only [commandRule, buildCommand, synthesize, bind_of_ok rfl, writeWindows_bufferWindows]
    rfl
  | quant | cyc2sec | validate | regidx | regaddr => simp [buildingCommands] at hi

/-- R254: the builder's run does not see the latch, so the command ends as if none were valid. -/
theorem commandRule_eq_map {i : Instr} (s : State) (hi : i ∈ buildingCommands) :
    commandRule i s = (fun (w, g) => commitProgram g (writeWindows w s)) <$> builderRun i s := by
  rw [commandRule_building s hi]
  simp only [builderRun, map_bind, map_pure]
  refine bind_congr_of_ok fun _ hp => bind_congr_of_ok fun w _ => ?_
  rw [buildProgram_latch none (latchedRate s) w _ _ _ ((checkPeriod_ok _).1 hp)]

/-! ## The operand registers (R254) -/

/-- The state with the operand registers of `s` and its window buffer, and all else as at power-on. -/
def operandsOf (s : State) : State :=
  { State.reset with
    clkPeriod := s.clkPeriod, repRate := s.repRate, deadTime := s.deadTime, pulseLen := s.pulseLen, auxTime := s.auxTime
    param := s.param, delayBegin := s.delayBegin, delayEnd := s.delayEnd
    regs := { CmdRegs.reset with winStart := s.regs.winStart, winStop := s.regs.winStop } }

/-- R254: the builder's run reads nothing but the operand registers and the window buffer. -/
theorem builderRun_operandsOf (i : Instr) (s : State) : builderRun i (operandsOf s) = builderRun i s := by
  cases i <;> rfl

/-- Settles O44: both commands end with what the builder's run on the same operands gives. -/
theorem sameOperandsSameProgram : Obligations.SameOperandsSameProgram := by
  intro s s' t t' i hi hclk hrep hdead hlen haux hparam hbegin hend hstart hstop h h'
  have hoperands : operandsOf s' = operandsOf s := by
    rw [operandsOf, operandsOf, hclk, hrep, hdead, hlen, haux, hparam, hbegin, hend, hstart, hstop]
  have hrun : builderRun i s' = builderRun i s := by
    rw [← builderRun_operandsOf i s', hoperands, builderRun_operandsOf]
  rw [exec_eq_finishBuilding _ hi, commandRule_eq_map _ hi] at h h'
  rw [hrun] at h'
  cases hresult : builderRun i s with
  | ok program =>
    rw [hresult] at h h'
    cases h
    cases h'
    exact ⟨rfl, fun _ => ⟨rfl, rfl, rfl⟩, nofun⟩
  | error e =>
    rw [hresult] at h h'
    cases h
    cases h'
    exact ⟨rfl, nofun, fun _ => ⟨rfl, rfl, rfl⟩⟩

end Sys2Proof.Machine
end

section
/-!
PROOFS. The two errors that are never reported (R239, R247). Every rule's errors are of other kinds: the builder's, because a
slot or a charge window that fails is reported by an earlier check; the rest, because no other rule raises these two.
-/

namespace Sys2Proof.Machine

/-! ## The two kinds -/

/-- The kinds that the spec infers to be unreachable (U4, U5). -/
abbrev Unreachable (k : ErrorKind) : Prop := k = .startAfterStop ∨ k = .internalInvariant

theorem unreachable_iff_errorCode (k : ErrorKind) : Unreachable k ↔ errorCode k = 0x0E ∨ errorCode k = 0x0F := by
  cases k <;> decide

theorem NeverRaises.bind_of_ok {α β : Type} {k : ErrorKind} {r : Except CmdError α} {f : α → Except CmdError β}
    (hr : NeverRaises k r) (hf : ∀ a, r = .ok a → NeverRaises k (f a)) : NeverRaises k (r >>= f) := by
  cases r with
  | ok a => exact hf a rfl
  | error e => exact .error (hr e rfl)

section
variable {k : ErrorKind} (hk : Unreachable k)
include hk

theorem Unreachable.ne {kind : ErrorKind} (h : ¬ Unreachable kind) : kind ≠ k := by
  rintro rfl
  exact h hk

/-! ## The operand checks (R130, R154, R155, R170, R193, R205) -/

theorem quantize_unreachable (p x : F64) (chan : BitVec 4) : NeverRaises k (quantize p x chan) :=
  .raiseIf_bind (hk.ne (by decide)) <| .raiseIf_bind (hk.ne (by decide)) <| .raiseIf_bind (hk.ne (by decide)) <|
    .raiseIf_bind (hk.ne (by decide)) <| .ok _

theorem effectiveRate_unreachable (latch : Option Int) (rep : Int) (chan : BitVec 4) :
    NeverRaises k (effectiveRate latch rep chan) := by
  obtain hpos | hneg := lt_or_ge 0 rep
  · rw [effectiveRate_of_pos hpos]
    exact .ok _
  · cases latch with
    | some r => rw [effectiveRate_latched hneg]; exact .ok _
    | none => rw [effectiveRate_missing hneg]; exact .raise (hk.ne (by decide))

/-- `Validate` itself raises neither: only the builder takes a disabled window for an error (R245). -/
theorem validateWindow_unreachable (latch : Option Int) (start stop rep : Int) (chan : BitVec 4) :
    NeverRaises k (validateWindow latch start stop rep chan) := by
  cases hrate : effectiveRate latch rep chan with
  | ok r =>
    rw [validateWindow_of_rate hrate]
    split_ifs
    · exact .ok _
    iterate 4 exact .raise (hk.ne (by decide))
    · exact .ok _
  | error e =>
    rw [validateWindow_of_no_rate hrate]
    exact .error (effectiveRate_unreachable hk latch rep chan e hrate)

theorem regIdxValue_unreachable (a : DWord) : NeverRaises k (regIdxValue a) :=
  .raiseIf_bind (hk.ne (by decide)) <| .ok _

theorem regAddrValue_unreachable (a : DWord) : NeverRaises k (regAddrValue a) :=
  .raiseIf_bind (hk.ne (by decide)) <| .ok _

theorem checkDelayEntries_unreachable (n : Nat) (info : DWord) (d : Vector F64 10) (l : List (Fin 10)) :
    NeverRaises k (checkDelayEntries n info d l) := by
  induction l with
  | nil => exact .ok ()
  | cons j rest ih =>
    rw [checkDelayEntries]
    split
    · exact .raise (hk.ne (by decide))
    · exact ih

theorem checkDelays_unreachable (present : Bool) (len n : Nat) (info : DWord) (d : Vector F64 10) :
    NeverRaises k (checkDelays present len n info d) := by
  rw [checkDelays]
  split
  · exact .raiseIf_bind (hk.ne (by decide)) <| checkDelayEntries_unreachable hk n info d slots
  · exact .ok ()

theorem checkCommon_unreachable (s : State) : NeverRaises k (checkCommon s) :=
  .raiseIf_bind (hk.ne (by decide)) <| .bind (checkDelays_unreachable hk _ _ _ _ _) fun _ =>
    .bind (checkDelays_unreachable hk _ _ _ _ _) fun _ => .ok _

theorem synthesize_unreachable (i : Instr) (s : State) : NeverRaises k (synthesize i s) := by
  cases i with
  | sync | delta | seq => exact .bind (checkCommon_unreachable hk s) fun _ => .ok _
  | one => exact .raiseIf_bind (hk.ne (by decide)) <| .ok _
  | build | quant | cyc2sec | validate | regidx | regaddr => exact .ok _

/-! ## The builder (R230 to R247) -/

section
variable {p rep dead : F64} {latch : Option Int} {w : Vector Window 10}

theorem slotError_unreachable {α : Type} (v : Window) (chan : BitVec 4) :
    NeverRaises k (.error (slotError p rep v chan) : Except CmdError α) := by
  rw [slotError, slotCyclesError]
  split_ifs <;> exact .raise (hk.ne (by decide))

theorem chargeError_unreachable {α : Type} (repC deadC firstC : Int) :
    NeverRaises k (.error (chargeError repC deadC firstC) : Except CmdError α) := by
  rw [chargeError]
  split_ifs <;> exact .raise (hk.ne (by decide))

/-- R239: a slot that fails is first reported as another error. -/
theorem buildProgram_slot_unreachable (hp : PeriodOk p) (h : TimesPass p rep dead)
    (hslot : ¬ ∀ i : Fin 10, SlotOk p rep w[i]) : NeverRaises k (buildProgram p latch w 10 dead rep) := by
  obtain ⟨i, hfirst⟩ := exists_minimal_of_wellFoundedLT (fun i : Fin 10 => ¬ SlotOk p rep w[i]) (not_forall.1 hslot)
  have hbefore (j : Fin 10) (hj : j < i) : SlotOk p rep w[j] := not_not.1 (hfirst.not_prop_of_lt hj)
  have hbad := hfirst.prop
  have ⟨hrep, _⟩ := h
  by_cases hoff : SlotOff rep w[i]
  · have hsent : 4294967295 < cycles p rep + 2 := by
      by_contra hle
      exact hbad ⟨fun _ => not_lt.1 hle, fun hon => absurd hoff hon⟩
    rw [buildProgram_slot_error hp h i hbefore fun _ => buildSlot_sentinel_error hoff hsent]
    exact .raise (hk.ne (by decide))
  · have hrefused : ¬ SlotAccepted p rep w[i] := fun hacc => hbad ⟨fun hon => absurd hon hoff, fun _ => hacc⟩
    rw [buildProgram_slot_error hp h i hbefore fun _ =>
      buildSlot_enabled_error hp hrep rfl (h.cycles_pos hp) hoff hrefused]
    exact slotError_unreachable hk _ _

/-- R247: with every slot passed, the charge window is in order or an error of its own, and the mask has its high bits. -/
theorem buildProgram_charge_unreachable (hp : PeriodOk p) (h : TimesPass p rep dead)
    (hslot : ∀ i : Fin 10, SlotOk p rep w[i]) : NeverRaises k (buildProgram p latch w 10 dead rep) := by
  by_cases hcharge : cycles p (earliestStart rep w) ≤ 2 * cycles p dead
  · rw [buildProgram_charge_error hp h hslot hcharge]
    exact chargeError_unreachable hk _ _ _
  · obtain ⟨hrep, hrep0, hdead, hmin⟩ := h
    rw [buildProgram_of_accepted latch hp ⟨hrep, hrep0, hdead, hmin, hslot, by omega⟩]
    exact .ok _

theorem buildProgram_unreachable (hp : PeriodOk p) (count : Nat) :
    NeverRaises k (buildProgram p latch w count dead rep) := by
  have hcount : NeverRaises k (checkCount count) := .raiseIf_bind (hk.ne (by decide)) <| .raiseIf (hk.ne (by decide))
  have hrate : NeverRaises k (buildRepRate p rep) :=
    .bind (quantize_unreachable hk p rep _) fun _ => .raiseIf_bind (hk.ne (by decide)) <| .ok _
  have hdead : NeverRaises k (buildDeadTime p dead) :=
    .bind (quantize_unreachable hk p dead _) fun _ => .raiseIf_bind (hk.ne (by decide)) <| .ok _
  refine .bind hcount fun _ => .bind_of_ok hrate fun _ hrate => .bind_of_ok hdead fun _ hdead => ?_
  obtain ⟨hrepQ, hrep0, rfl⟩ := buildRepRate_ok.1 hrate
  obtain ⟨hdeadQ, hmin, rfl⟩ := buildDeadTime_ok.1 hdead
  have htimes : TimesPass p rep dead := ⟨hrepQ, hrep0, hdeadQ, hmin⟩
  change NeverRaises k (buildSlots ⟨p, rep, cycles p rep, latch⟩ w slots (slotAccStart rep) >>=
    buildCharge ⟨p, rep, cycles p rep, latch⟩ (cycles p dead))
  rw [← buildProgram_of_timesPass htimes]
  by_cases hslot : ∀ i : Fin 10, SlotOk p rep w[i]
  · exact buildProgram_charge_unreachable hk hp htimes hslot
  · exact buildProgram_slot_unreachable hk hp htimes hslot

end

/-! ## The commands -/

theorem checkPeriod_unreachable (p : F64) : NeverRaises k (checkPeriod p) := .raiseIf (hk.ne (by decide))

theorem builderRun_unreachable (i : Instr) (s : State) : NeverRaises k (builderRun i s) :=
  .bind_of_ok (checkPeriod_unreachable hk _) fun _ hp => .bind (synthesize_unreachable hk i s) fun _ =>
    .bind (buildProgram_unreachable hk ((checkPeriod_ok _).1 hp) _) fun _ => .ok _

theorem commandRule_unreachable (i : Instr) (s : State) : NeverRaises k (commandRule i s) := by
  cases i with
  | quant =>
    exact .map (.bind (checkPeriod_unreachable hk _) fun _ => .bind (quantize_unreachable hk _ _ _) fun _ => .ok _) _
  | cyc2sec => exact .map (.bind (checkPeriod_unreachable hk _) fun _ => .ok _) _
  | validate => exact .bind (validateWindow_unreachable hk _ _ _ _ _) fun _ => .ok _
  | regidx => exact .map (regIdxValue_unreachable hk _) _
  | regaddr => exact .map (regAddrValue_unreachable hk _) _
  | sync | delta | one | seq | build =>
    rw [commandRule_eq_map s (by decide)]
    exact .map (builderRun_unreachable hk _ s) _

end

/-- Settles O43: a rule's error is of another kind, and where a rule answers, the code stays cleared. -/
theorem unreachableErrors : Obligations.UnreachableErrors := by
  intro s t i hcode h
  rw [← not_or]
  obtain ⟨e, he, rfl⟩ | ⟨u, hu, hregs⟩ := exec_rule_cases h
  · exact fun hbad => commandRule_unreachable ((unreachable_iff_errorCode e.kind).2 hbad) i s e he rfl
  · rw [hregs, commandRule_ok_errCode hu, hcode]
    decide

end Sys2Proof.Machine
end
